-- ==== Sys2Proof/Word.lean ====
section
/-! DEFINITION. The block's two word types (00_scope.md R7: every register, field and memory byte is unsigned). -/

namespace Sys2Proof

/-- A codeword or memory byte. -/
abbrev Byte := BitVec 8

/-- A register, a bus word or a command word. -/
abbrev Word := BitVec 32

end Sys2Proof
end

