-- ==== Sys2Proof/Syntax.lean ====
section
/-! DEFINITION. The commands of QREC as data: one constructor per row of spec/opcode_table.json (30_encoding.md R92). -/

namespace Sys2Proof

/-- A decoded command. A class B operand (R91) is the unsigned count in A8; a class M operand is the mask index
A8[2:0]. All other operands are implicit registers (R95). -/
inductive Instr where
  /-- NOP (40_control.md R114). -/
  | nop
  /-- GF.MUL (41_gf_rs.md R125). -/
  | gfMul
  /-- RS.DIV deg (41_gf_rs.md R126). -/
  | rsDiv (deg : Nat)
  /-- RS.REM (41_gf_rs.md R127). -/
  | rsRem
  /-- RS.ENC (41_gf_rs.md R128). -/
  | rsEnc
  /-- PK.CLR (42_packer.md R142). -/
  | pkClr
  /-- PK.APP n (42_packer.md R143). -/
  | pkApp (n : Nat)
  /-- PK.FIN (42_packer.md R144). -/
  | pkFin
  /-- IL.RUN (43_interleaver.md R150). -/
  | ilRun
  /-- MK.FMT m (44_mask.md R170). -/
  | mkFmt (m : Fin 8)
  /-- MK.SCORE m (44_mask.md R171). -/
  | mkScore (m : Fin 8)
  /-- MK.APPLY m (44_mask.md R172). -/
  | mkApply (m : Fin 8)
  /-- MK.SEL (44_mask.md R173). -/
  | mkSel
deriving DecidableEq, Repr

end Sys2Proof
end

