-- ==== Sys2Proof/WellFormed.lean ====
section
/-! DEFINITION. Which command terms have an encoding: a class B operand is one byte (30_encoding.md R91). A class M
operand is a `Fin 8`, so it needs no check. -/

namespace Sys2Proof

/-- The operands fit their fields of the command word (R90, R91). -/
def Instr.wellFormed : Instr → Bool
  | .rsDiv deg => decide (deg < 256)
  | .pkApp n => decide (n < 256)
  | .nop => true
  | .gfMul => true
  | .rsRem => true
  | .rsEnc => true
  | .pkClr => true
  | .pkFin => true
  | .ilRun => true
  | .mkFmt _ => true
  | .mkScore _ => true
  | .mkApply _ => true
  | .mkSel => true

end Sys2Proof
end

