-- ==== Sys2Proof/Decode.lean ====
section
/-! DEFINITION. Command decoding (30_encoding.md R90 to R94), total on every 32-bit word and rejecting by name, and the
encoder (R97) written from the same tables. -/

namespace Sys2Proof

/-- Why a word is no command: the four cases of 30_encoding.md R93, in its order. Each of them makes the command fail with
ILLEGAL_CMD. -/
inductive Reject where
  /-- R93 item 1: w[31:16] is not 0. -/
  | reservedField
  /-- R93 item 2: w[7:0] is a reserved OP. -/
  | reservedOp
  /-- R93 item 3: class Z and w[15:8] is not 0. -/
  | classZOperand
  /-- R93 item 4: class M and w[15:11] is not 0. -/
  | classMOperand
deriving DecidableEq, Repr

/-- R90: bits 7:0. -/
def opField (w : Word) : Nat := (w.extractLsb' 0 8).toNat

/-- R90: bits 15:8. -/
def a8Field (w : Word) : Nat := (w.extractLsb' 8 8).toNat

/-- R90: bits 31:16. -/
def rsvField (w : Word) : Nat := (w.extractLsb' 16 16).toNat

/-- R91 class Z: A8 must be 0. -/
def classZ (a8 : Nat) (i : Instr) : Except Reject Instr :=
  if a8 = 0 then .ok i else .error .classZOperand

/-- R91 class M: A8 is the mask index, 0..7. -/
def classM (a8 : Nat) (mk : Fin 8 → Instr) : Except Reject Instr :=
  if h : a8 < 8 then .ok (mk ⟨a8, h⟩) else .error .classMOperand

/-- R92: OP alone selects the command; every other OP is reserved. -/
def decodeOp (op a8 : Nat) : Except Reject Instr :=
  match op with
  | 0x00 => classZ a8 .nop
  | 0x01 => classZ a8 .gfMul
  | 0x02 => .ok (.rsDiv a8)
  | 0x03 => classZ a8 .rsRem
  | 0x04 => classZ a8 .rsEnc
  | 0x10 => classZ a8 .pkClr
  | 0x11 => .ok (.pkApp a8)
  | 0x12 => classZ a8 .pkFin
  | 0x20 => classZ a8 .ilRun
  | 0x30 => classM a8 .mkFmt
  | 0x31 => classM a8 .mkScore
  | 0x32 => classM a8 .mkApply
  | 0x33 => classZ a8 .mkSel
  | _ => .error .reservedOp

/-- R93: decode one command word. -/
def decode (w : Word) : Except Reject Instr :=
  if rsvField w = 0 then decodeOp (opField w) (a8Field w) else .error .reservedField

/-- R92: the opcode of a command. -/
def Instr.op : Instr → Nat
  | .nop => 0x00
  | .gfMul => 0x01
  | .rsDiv _ => 0x02
  | .rsRem => 0x03
  | .rsEnc => 0x04
  | .pkClr => 0x10
  | .pkApp _ => 0x11
  | .pkFin => 0x12
  | .ilRun => 0x20
  | .mkFmt _ => 0x30
  | .mkScore _ => 0x31
  | .mkApply _ => 0x32
  | .mkSel => 0x33

/-- R91, R95: the immediate operand a command carries in A8, 0 for class Z. -/
def Instr.imm : Instr → Nat
  | .rsDiv deg => deg
  | .pkApp n => n
  | .mkFmt m => m.val
  | .mkScore m => m.val
  | .mkApply m => m.val
  | .nop => 0
  | .gfMul => 0
  | .rsRem => 0
  | .rsEnc => 0
  | .pkClr => 0
  | .pkFin => 0
  | .ilRun => 0
  | .mkSel => 0

/-- R97: `X <imm>` encodes as OP(X) | imm << 8. -/
def encode (i : Instr) : Word := BitVec.ofNat 32 i.op ||| (BitVec.ofNat 32 i.imm <<< 8)

/-- The decoder on an instruction given as a number whose bit 0 is the command word's bit 0. A command is one 32-bit
word (R90), so the bits above `nbits` are 0 and nothing is longer. -/
def decodeTableWord (nbits w : Nat) : Option Instr :=
  match decode (BitVec.ofNat 32 (w % 2 ^ nbits)) with
  | .ok i => some i
  | .error _ => none

end Sys2Proof
end

