-- ==== Sys2Proof/Config.lean ====
section
/-! DEFINITION. The values the spec leaves open (93_implementation_defined.md U1 to U4), each a constant with no body:
nothing in Lean can evaluate one, so whatever is proved holds for every choice an implementation makes. -/

namespace Sys2Proof

/-- U1 (20_memory.md R72): what the byte at bus address `addr` holds since power-up, until it is first written.
`any value`, fixed; log entry 1. -/
opaque Config.powerUpByte (addr : Nat) : Byte

/-- U2 (70_reset_and_hazards.md R213): what the byte at bus address `addr` of an aborted command's write footprint holds
after the abort; `nth` is the free-value counter at the abort. Log entry 3. -/
opaque Config.abortByte (nth addr : Nat) : Byte

/-- U3 (40_control.md R113): LAT less 1 for the command `word`; `nth` is the free-value counter at its acceptance, so
that each accepted command has a latency of its own. Log entry 2. -/
opaque Config.extraLatency (word : Word) (nth : Nat) : Nat

/-- U4 (20_memory.md R62; 92_eei_decisions.md D47): QREC_BASE, where the platform puts the block. No rule depends on
it; log entry 12. -/
opaque Config.qrecBase : Nat

/-- The address at which the platform's bus reaches offset `offset` of the block. -/
def Config.hostAddress (offset : Nat) : Nat := Config.qrecBase + offset

end Sys2Proof
end

