-- ==== Sys2Proof/Machine/State.lean ====
section
/-! DEFINITION. The state of QREC: every register of 10_state.md, the six memories of 20_memory.md, the engine phase, and
what the outside presents to it. Plain data throughout. -/

namespace Sys2Proof.Machine

/-- The error codes (60_exceptions.md R191). Codes 10..15 never occur (93_implementation_defined.md U7). -/
inductive ErrCode where
  | none
  | illegalCmd
  | busyOverrun
  | badDegree
  | badRange
  | packOverflow
  | dataTooLong
  | badBlockCfg
  | badQcfg
  | badNbits
deriving DecidableEq, Repr

/-- CTRL's stored bits (10_state.md R23). -/
structure Ctrl where
  ieDone : Bool
  ieErr : Bool
deriving DecidableEq, Repr

/-- STATUS's stored fields (10_state.md R24). BUSY is the engine phase (`State.busy`). -/
structure Status where
  done : Bool
  err : Bool
  errcode : ErrCode
  lastop : Byte
deriving DecidableEq, Repr

/-- QCFG's implemented bits (10_state.md R29). -/
structure Qcfg where
  ver : BitVec 6
  ecl : BitVec 2
deriving DecidableEq, Repr

/-- BCFG's implemented bits (10_state.md R32). -/
structure Bcfg where
  nb1 : BitVec 8
  nb2 : BitVec 8
  d1 : BitVec 8
  ecb : BitVec 5
deriving DecidableEq, Repr

/-- MSEL's implemented bits (10_state.md R41). -/
structure Msel where
  mask : Fin 8
  valid : Bool
  auto : Bool
deriving DecidableEq, Repr

/-- The penalty registers of one mask: PEN[m][1..4] and PENT[m] (10_state.md R42, R43). -/
structure Penalty where
  p1 : Word
  p2 : Word
  p3 : Word
  p4 : Word
  total : Word
deriving DecidableEq, Repr

/-- The engine phase (10_state.md R44): the accepted command word is CMD; `left` is the number of clock edges up to and
including the completion edge. -/
inductive Phase where
  | idle
  | busy (left : Nat)
deriving DecidableEq, Repr

/-- Every byte of DMEM, EMEM, OMEM, MOD, FUNC and FINAL that has been written, keyed by its bus address
(20_memory.md R62), addresses strictly rising. An unlisted address holds no value: nothing has written it, and a read of
it gives the free value of U1 (log entry 1). -/
abbrev Memory := List Host.Cell

/-- What the outside presents at one rising edge of PCLK (20_memory.md R64): no transfer, the access phase of a read or
of a write, or PRESETn = 0 (70_reset_and_hazards.md R210). -/
inductive HostEdge where
  | quiet
  | read (addr : BitVec 16)
  | write (addr : BitVec 16) (data : Word)
  | resetLow
deriving DecidableEq, Repr

/-- The levels of the input ports at one rising edge of PCLK (20_memory.md R64). -/
structure Pins where
  presetn : Bool
  psel : Bool
  penable : Bool
  pwrite : Bool
  paddr : BitVec 16
  pwdata : Word
deriving DecidableEq, Repr

/-- The latest edge: PRDATA and PSLVERR of its transfer, or PRESETn = 0. A write shows no read data; with PRESETn = 0 both
are 0, and the next edge with PRESETn = 1 still takes no transfer (70_reset_and_hazards.md R210). -/
inductive Response where
  | noTransfer
  | read (prdata : Word) (pslverr : Bool)
  | write (pslverr : Bool)
  | inReset
deriving DecidableEq, Repr

/-- The registers of the address map (10_state.md section 2). `pen m k` is PEN[m][k+1]; `divram i` is DIVRAM word i. -/
inductive Reg where
  | id | ctrl | status | cmd | arg0 | result | qcfg | bcfg
  | dataCw | ecCw | totalCw | cfgCheck | pkBitlen | rsSrc | rsLen | rsDst | divDeg | msel
  | pen (m : Fin 8) (k : Fin 4)
  | pent (m : Fin 8)
  | divram (i : Fin 8)
deriving DecidableEq, Repr

/-- What an aligned bus address reaches (20_memory.md R62, R68, R69). -/
inductive Target where
  | reg (r : Reg)
  /-- four stored memory bytes, the first at bus address `base` -/
  | mem (base : Nat)
  /-- a plane row 177..255 (R69) -/
  | notStored
  | unmapped
deriving DecidableEq, Repr

/-- The block's state. -/
structure State where
  ctrl : Ctrl
  status : Status
  cmd : Word
  arg0 : Word
  result : Word
  qcfg : Qcfg
  bcfg : Bcfg
  pkBitlen : BitVec 16
  rsSrc : BitVec 12
  rsLen : BitVec 13
  rsDst : BitVec 12
  divDeg : BitVec 5
  divram : Vector Byte 32
  msel : Msel
  pen : Vector Penalty 8
  phase : Phase
  mem : Memory
  /-- the model's own: what the outside presents at the coming edges, the next first; none listed is `quiet` -/
  host : List HostEdge
  /-- the model's own: what the latest edge was, with the answer to its transfer -/
  resp : Response
  /-- the model's own: how many free values have been drawn -/
  fresh : Nat
deriving DecidableEq, Repr

/-- No step of QREC stops the machine: "An error never stops the block" (60_exceptions.md R190). So there is no fault,
and none is raised (log entry 11). -/
inductive Fault : Type
deriving DecidableEq, Repr

/-- Why the model gives an instruction no meaning. -/
inductive Refusal where
  /-- Raised by an arm of `exec` for an instruction not modelled; safe. No arm of this model raises it. -/
  | notModelled (mnemonic : String)
deriving DecidableEq, Repr

/-- What a step or an instruction answers. -/
abbrev Result := Host.Outcome State Fault Refusal

/-- After hard reset at power-up and the first edge with PRESETn = 1 (70_reset_and_hazards.md R210; log entry 13): every
register at its reset value, idle, and nothing written to any memory (R212). -/
def State.reset : State where
  ctrl := { ieDone := false, ieErr := false }
  status := { done := false, err := false, errcode := .none, lastop := 0 }
  cmd := 0
  arg0 := 0
  result := 0
  qcfg := { ver := 0, ecl := 0 }
  bcfg := { nb1 := 0, nb2 := 0, d1 := 0, ecb := 0 }
  pkBitlen := 0
  rsSrc := 0
  rsLen := 0
  rsDst := 0
  divDeg := 0
  divram := Vector.replicate 32 0
  msel := { mask := 0, valid := false, auto := false }
  pen := Vector.replicate 8 { p1 := 0, p2 := 0, p3 := 0, p4 := 0, total := 0 }
  phase := .idle
  mem := []
  host := []
  resp := .noTransfer
  fresh := 0

end Sys2Proof.Machine
end

