-- ==== Sys2Proof/Machine/Flags.lean ====
section
/-! DEFINITION. The flags: every transition of STATUS (10_state.md R24, R25; 40_control.md R110 to R112; 60_exceptions.md
R194, R197), the words STATUS, CTRL and MSEL read as, and IRQ (60_exceptions.md R196). -/

namespace Sys2Proof.Machine

/-- 60_exceptions.md R191: the number of an error code. -/
def ErrCode.code : ErrCode → BitVec 4
  | .none => 0
  | .illegalCmd => 1
  | .busyOverrun => 2
  | .badDegree => 3
  | .badRange => 4
  | .packOverflow => 5
  | .dataTooLong => 6
  | .badBlockCfg => 7
  | .badQcfg => 8
  | .badNbits => 9

/-- Acceptance of the word `w` (40_control.md R110): LASTOP <- w[7:0], DONE <- 0; ERR and ERRCODE stay. -/
def Status.accepted (st : Status) (w : Word) : Status :=
  { st with lastop := w.extractLsb' 0 8, done := false }

/-- Successful completion (40_control.md R111): DONE <- 1; ERR and ERRCODE stay. -/
def Status.completed (st : Status) : Status := { st with done := true }

/-- Failed completion with code `e` (40_control.md R112). -/
def Status.failed (st : Status) (e : ErrCode) : Status := { st with done := true, err := true, errcode := e }

/-- A CMD write while BUSY (60_exceptions.md R194): ERR and ERRCODE only. -/
def Status.overrun (st : Status) : Status := { st with err := true, errcode := .busyOverrun }

/-- A host write of `v` to STATUS (10_state.md R25). -/
def Status.hostWrite (st : Status) (v : Word) : Status :=
  let st1 := if v.getLsbD 1 then { st with done := false } else st
  if v.getLsbD 2 then { st1 with err := false, errcode := .none } else st1

/-- STATUS.BUSY (10_state.md R24). -/
def State.busy (s : State) : Bool :=
  match s.phase with
  | .idle => false
  | .busy _ => true

/-- One bit as a word. -/
def bitWord (b : Bool) : Word := (BitVec.ofBool b).zeroExtend 32

/-- What STATUS reads as (10_state.md R24): reserved bits 0. -/
def State.statusWord (s : State) : Word :=
  bitWord s.busy ||| (bitWord s.status.done <<< 1) ||| (bitWord s.status.err <<< 2) |||
  (s.status.errcode.code.zeroExtend 32 <<< 8) ||| (s.status.lastop.zeroExtend 32 <<< 16)

/-- What CTRL reads as (10_state.md R23): SRST and reserved bits 0. -/
def Ctrl.word (c : Ctrl) : Word := (bitWord c.ieDone <<< 1) ||| (bitWord c.ieErr <<< 2)

/-- The stored bits of a CTRL write (10_state.md R23). -/
def Ctrl.ofWord (v : Word) : Ctrl := { ieDone := v.getLsbD 1, ieErr := v.getLsbD 2 }

/-- What MSEL reads as (10_state.md R41). -/
def Msel.word (x : Msel) : Word :=
  BitVec.ofNat 32 x.mask.val ||| (bitWord x.valid <<< 8) ||| (bitWord x.auto <<< 16)

/-- The interrupt output (60_exceptions.md R196). -/
def State.irq (s : State) : Bool := (s.status.done && s.ctrl.ieDone) || (s.status.err && s.ctrl.ieErr)

end Sys2Proof.Machine
end

