-- ==== Sys2Proof/Machine/Memory.lean ====
section
/-! DEFINITION. The one set of operations over the six memories (20_memory.md R60 to R62, R66, R69, R72). All six are byte
ranges of one list keyed by bus address. -/

namespace Sys2Proof.Machine

/-- The window bases of 20_memory.md R62. -/
def dmemBase : Nat := 0x1000
def ememBase : Nat := 0x2000
def omemBase : Nat := 0x3000
def modBase : Nat := 0x4000
def funcBase : Nat := 0x6000
def finalBase : Nat := 0x8000

/-- R6, R60: each codeword memory has 4096 bytes. -/
def memBytes : Nat := 4096

/-- R6, R61: rows of a plane. -/
def matRows : Nat := 177

/-- R61, R66: bytes of a plane row (256 cells, eight words). -/
def rowPitch : Nat := 32

/-- The byte addresses that are stored: the three codeword windows, and rows 0..176 of the three planes (R62, R69). -/
def storedAddr (a : Nat) : Bool :=
  (decide (dmemBase ≤ a) && decide (a < modBase)) ||
  (decide (modBase ≤ a) && decide (a < 0xA000) && decide ((a - modBase) % 0x2000 < matRows * rowPitch))

/-- The canonical form: addresses strictly rising, each of them a stored address. An unlisted address holds no value, so
no entry equals what one holds (log entry 1). -/
def Memory.wf : Memory → Bool
  | [] => true
  | c :: m => storedAddr c.1 && (match m with | [] => true | d :: _ => decide (c.1 < d.1)) && Memory.wf m

/-- The byte at bus address `a`: the last value written, or before any write the free value of U1 (R72). -/
def Memory.read (m : Memory) (a : Nat) : Byte :=
  match m.lookup a with
  | some v => v
  | none => Config.powerUpByte a

/-- The `n` bytes from bus address `a`. -/
def Memory.readBlock (m : Memory) (a n : Nat) : List Byte :=
  let near : Memory := m.filter fun c => decide (a ≤ c.1) && decide (c.1 < a + n)
  (List.range n).map fun i => Memory.read near (a + i)

/-- `bs` at consecutive addresses from `a`. -/
def cellsAt : Nat → List Byte → Memory
  | _, [] => []
  | a, b :: bs => (a, b) :: cellsAt (a + 1) bs

/-- Write the bytes `bs` at consecutive addresses from `a`; every other address keeps what it held. -/
def Memory.writeBlock (m : Memory) (a : Nat) (bs : List Byte) : Memory :=
  m.filter (fun c => decide (c.1 < a)) ++ cellsAt a bs ++ m.filter (fun c => decide (a + bs.length ≤ c.1))

/-- Write one byte. -/
def Memory.write (m : Memory) (a : Nat) (v : Byte) : Memory := m.writeBlock a [v]

/-- R66 item 1: four bytes as a word, the first in bits 7:0. -/
def wordOfBytes (b0 b1 b2 b3 : Byte) : Word := b3 ++ b2 ++ b1 ++ b0

/-- R66 item 1: a word as four bytes, bits 7:0 first. -/
def bytesOfWord (w : Word) : List Byte :=
  [w.extractLsb' 0 8, w.extractLsb' 8 8, w.extractLsb' 16 8, w.extractLsb' 24 8]

/-- The word at aligned bus address `a` (R66 items 1 and 2: a plane word has the same byte lanes, since its bit j is
cell 32w + j). -/
def Memory.readWord (m : Memory) (a : Nat) : Word :=
  wordOfBytes (m.read a) (m.read (a + 1)) (m.read (a + 2)) (m.read (a + 3))

/-- Replace the word at aligned bus address `a` (R65: always all 32 bits). -/
def Memory.writeWord (m : Memory) (a : Nat) (v : Word) : Memory := m.writeBlock a (bytesOfWord v)

/-- DMEM[k], EMEM[k], OMEM[k] (00_scope.md R8). -/
def Memory.dmem (m : Memory) (k : Nat) : Byte := m.read (dmemBase + k)
def Memory.emem (m : Memory) (k : Nat) : Byte := m.read (ememBase + k)
def Memory.omem (m : Memory) (k : Nat) : Byte := m.read (omemBase + k)

/-- Cell (r, c) of the plane at `base` (R61, R66 item 2): bit c mod 8 of byte c // 8 of row r. -/
def Memory.cell (m : Memory) (base r c : Nat) : Bool := (m.read (base + rowPitch * r + c / 8)).getLsbD (c % 8)

/-- MOD[r][c], FUNC[r][c], FINAL[r][c] (00_scope.md R8). -/
def Memory.modCell (m : Memory) (r c : Nat) : Bool := m.cell modBase r c
def Memory.funcCell (m : Memory) (r c : Nat) : Bool := m.cell funcBase r c
def Memory.finalCell (m : Memory) (r c : Nat) : Bool := m.cell finalBase r c

/-- The bits of a byte, bit 0 first: eight cells of a plane row from left to right. -/
def cellsOfByte (b : Byte) : List Bool := (List.range 8).map b.getLsbD

/-- Cells (r, 0) .. (r, n-1) of the plane at `base`. -/
def Memory.row (m : Memory) (base r n : Nat) : List Bool :=
  ((m.readBlock (base + rowPitch * r) ((n + 7) / 8)).flatMap cellsOfByte).take n

/-- Cells as a number, the first the least significant bit. -/
def natOfCells : List Bool → Nat
  | [] => 0
  | b :: bs => b.toNat + 2 * natOfCells bs

/-- `n` bytes of a plane row holding the cells `bs` from column 0 on, and 0 past their end. -/
def bytesOfCells : Nat → List Bool → List Byte
  | 0, _ => []
  | n + 1, bs => BitVec.ofNat 8 (natOfCells (bs.take 8)) :: bytesOfCells n (bs.drop 8)

end Sys2Proof.Machine
end

