-- ==== Sys2Proof/Machine/Operands.lean ====
section
/-! DEFINITION. Operand assembly (30_encoding.md R95) and everything the rules derive from the configuration registers:
block structure (10_state.md R32 to R36), matrix side (R30), validity, and the byte sequences a command reads. -/

namespace Sys2Proof.Machine

/-- R33: DATA_CW = NB1*D1 + NB2*(D1+1). -/
def Bcfg.dataCw (b : Bcfg) : Nat := b.nb1.toNat * b.d1.toNat + b.nb2.toNat * (b.d1.toNat + 1)

/-- R32: NB = NB1 + NB2. -/
def Bcfg.nb (b : Bcfg) : Nat := b.nb1.toNat + b.nb2.toNat

/-- R33: EC_CW = (NB1+NB2)*ECB. -/
def Bcfg.ecCw (b : Bcfg) : Nat := b.nb * b.ecb.toNat

/-- R33: TOTAL_CW = DATA_CW + EC_CW. -/
def Bcfg.totalCw (b : Bcfg) : Nat := b.dataCw + b.ecCw

/-- R34: when BCFG is valid. -/
def Bcfg.valid (b : Bcfg) : Bool :=
  decide (1 ≤ b.nb1.toNat) && decide (1 ≤ b.d1.toNat) && decide (1 ≤ b.ecb.toNat) && decide (b.ecb.toNat ≤ 30) &&
  decide (b.dataCw ≤ 4096) && decide (b.ecCw ≤ 4096) && decide (b.totalCw ≤ 4096)

/-- R35: the data length of block `k`. -/
def Bcfg.len (b : Bcfg) (k : Nat) : Nat := if k < b.nb1.toNat then b.d1.toNat else b.d1.toNat + 1

/-- R35: the data offset of block `k` in DMEM. -/
def Bcfg.doff (b : Bcfg) (k : Nat) : Nat :=
  if k < b.nb1.toNat then k * b.d1.toNat
  else b.nb1.toNat * b.d1.toNat + (k - b.nb1.toNat) * (b.d1.toNat + 1)

/-- R35: the EC offset of block `k` in EMEM. -/
def Bcfg.eoff (b : Bcfg) (k : Nat) : Nat := k * b.ecb.toNat

/-- R30: side = 17 + 4*VER. -/
def Qcfg.side (q : Qcfg) : Nat := 17 + 4 * q.ver.toNat

/-- R31: QCFG is valid exactly when 1 <= VER <= 40. -/
def Qcfg.valid (q : Qcfg) : Bool := decide (1 ≤ q.ver.toNat) && decide (q.ver.toNat ≤ 40)

/-- R95: the operands a and b of GF.MUL; ARG0[31:16] is ignored. -/
def State.gfA (s : State) : Byte := s.arg0.extractLsb' 0 8
def State.gfB (s : State) : Byte := s.arg0.extractLsb' 8 8

/-- R95, 42_packer.md R143: the bits ARG0[n-1], ..., ARG0[0] of PK.APP n. -/
def State.fieldBits (s : State) (n : Nat) : List Bool := (List.range n).map fun i => s.arg0.getLsbD (n - 1 - i)

/-- R95: the divisor RS.REM uses, DIVRAM[0..DIV_DEG-1]. -/
def State.divisor (s : State) : List Byte := s.divram.toList.take s.divDeg.toNat

/-- The data bytes of block `k`, DMEM[doff(k) .. doff(k)+len(k)-1] (10_state.md R35). -/
def State.dataBlock (s : State) (k : Nat) : List Byte :=
  s.mem.readBlock (dmemBase + s.bcfg.doff k) (s.bcfg.len k)

/-- The EC bytes of block `k`, EMEM[eoff(k) .. eoff(k)+ECB-1] (20_memory.md R60). -/
def State.ecBlock (s : State) (k : Nat) : List Byte :=
  s.mem.readBlock (ememBase + s.bcfg.eoff k) s.bcfg.ecb.toNat

/-- Every block's data, in block order. -/
def State.dataBlocks (s : State) : List (List Byte) := (List.range s.bcfg.nb).map s.dataBlock

/-- Every block's EC codewords, in block order. -/
def State.ecBlocks (s : State) : List (List Byte) := (List.range s.bcfg.nb).map s.ecBlock

end Sys2Proof.Machine
end

