-- ==== Sys2Proof/Machine/Ops.lean ====
section
/-! DEFINITION. The shared operations over the registers: acceptance, completion and failure of a command (the block's one
way to take an error, 60_exceptions.md R190, and the clear that answers it, R197), register reads and configuration writes,
and the address map. -/

namespace Sys2Proof.Machine

/-- LAT of the command `w` when accepted at `s` (40_control.md R113): at least 1, otherwise open. -/
def State.latency (s : State) (w : Word) : Nat := 1 + Config.extraLatency w s.fresh

/-- Acceptance of the word `w` (40_control.md R110). The snapshot is not stored: no operand can change before completion
(70_reset_and_hazards.md R216; log entry 9). -/
def State.accept (s : State) (w : Word) : State :=
  { s with cmd := w, status := s.status.accepted w, phase := .busy (s.latency w), fresh := s.fresh + 1 }

/-- The end of a successful command (40_control.md R111), after the writes of its effect: BUSY <- 0, DONE <- 1. -/
def State.complete (s : State) : State := { s with phase := .idle, status := s.status.completed }

/-- `raise CmdError(e)` (00_scope.md R8; 40_control.md R112): the command ends failed, and nothing but STATUS changes. -/
def State.fail (s : State) (e : ErrCode) : State := { s with phase := .idle, status := s.status.failed e }

/-- Evaluate one command's rule at its completion edge (40_control.md R111, R112): `chk` is the first check that fails,
`eff` the state with the effect's writes. -/
def conclude (chk : Option ErrCode) (eff s : State) : Result :=
  match chk with
  | some e => .next (s.fail e)
  | none => .next eff.complete

/-- A CMD write while BUSY = 1 (60_exceptions.md R194): the word is dropped and the error reported. -/
def State.overrun (s : State) : State := { s with status := s.status.overrun }

/-- A host write to STATUS (10_state.md R25): the acknowledge of a flag, and the only way back from an error
(60_exceptions.md R197). -/
def State.clearFlags (s : State) (v : Word) : State := { s with status := s.status.hostWrite v }

/-- What a scalar register field reads as, zero-extended to 32 bits. -/
def natWord (n : Nat) : Word := BitVec.ofNat 32 n

/-- 10_state.md R29. -/
def Qcfg.word (q : Qcfg) : Word := q.ver.zeroExtend 32 ||| (q.ecl.zeroExtend 32 <<< 8)

/-- 10_state.md R29; 40_control.md R115: bits 9:8 and 5:0 are implemented. -/
def Qcfg.ofWord (v : Word) : Qcfg := { ver := v.extractLsb' 0 6, ecl := v.extractLsb' 8 2 }

/-- 10_state.md R32. -/
def Bcfg.word (b : Bcfg) : Word :=
  b.nb1.zeroExtend 32 ||| (b.nb2.zeroExtend 32 <<< 8) ||| (b.d1.zeroExtend 32 <<< 16) ||| (b.ecb.zeroExtend 32 <<< 24)

/-- 10_state.md R32; 40_control.md R115: bits 28:0 are implemented. -/
def Bcfg.ofWord (v : Word) : Bcfg :=
  { nb1 := v.extractLsb' 0 8, nb2 := v.extractLsb' 8 8, d1 := v.extractLsb' 16 8, ecb := v.extractLsb' 24 5 }

/-- 10_state.md R42: PEN[m][k+1]. -/
def Penalty.rule (p : Penalty) (k : Fin 4) : Word :=
  match k with
  | 0 => p.p1
  | 1 => p.p2
  | 2 => p.p3
  | 3 => p.p4

/-- 10_state.md R40: DIVRAM[j], j in 0..31. -/
def State.divByte (s : State) (j : Nat) : Byte := s.divram.toList.getD j 0

/-- 10_state.md R40: DIVRAM word i. -/
def State.divWord (s : State) (i : Fin 8) : Word :=
  wordOfBytes (s.divByte (4 * i.val)) (s.divByte (4 * i.val + 1)) (s.divByte (4 * i.val + 2)) (s.divByte (4 * i.val + 3))

/-- The value a register read returns (10_state.md R21 to R43). -/
def State.readReg (s : State) : Reg → Word
  | .id => 0x51524543
  | .ctrl => s.ctrl.word
  | .status => s.statusWord
  | .cmd => s.cmd
  | .arg0 => s.arg0
  | .result => s.result
  | .qcfg => s.qcfg.word
  | .bcfg => s.bcfg.word
  | .dataCw => natWord s.bcfg.dataCw
  | .ecCw => natWord s.bcfg.ecCw
  | .totalCw => natWord s.bcfg.totalCw
  | .cfgCheck => bitWord s.bcfg.valid ||| (bitWord s.qcfg.valid <<< 1)
  | .pkBitlen => s.pkBitlen.zeroExtend 32
  | .rsSrc => s.rsSrc.zeroExtend 32
  | .rsLen => s.rsLen.zeroExtend 32
  | .rsDst => s.rsDst.zeroExtend 32
  | .divDeg => s.divDeg.zeroExtend 32
  | .msel => s.msel.word
  | .pen m k => s.pen[m].rule k
  | .pent m => s.pen[m].total
  | .divram i => s.divWord i

/-- The registers at offsets 0x00, 0x04, ..., 0x44 (10_state.md section 2). -/
def lowRegs : List Reg :=
  [.id, .ctrl, .status, .cmd, .arg0, .result, .qcfg, .bcfg, .dataCw, .ecCw, .totalCw, .cfgCheck, .pkBitlen,
   .rsSrc, .rsLen, .rsDst, .divDeg, .msel]

/-- The address map on a word address w = PADDR // 4 (20_memory.md R62, R65, R69). -/
def targetOfWord (w : Nat) : Target :=
  if w < 0x48 / 4 then (match lowRegs[w]? with | some r => .reg r | none => .unmapped)
  else if w < 0x80 / 4 then .unmapped
  else if w < 0x100 / 4 then .reg (.pen (Fin.ofNat 8 ((w - 0x80 / 4) / 4)) (Fin.ofNat 4 (w - 0x80 / 4)))
  else if w < 0x120 / 4 then .reg (.pent (Fin.ofNat 8 (w - 0x100 / 4)))
  else if w < 0x140 / 4 then .unmapped
  else if w < 0x160 / 4 then .reg (.divram (Fin.ofNat 8 (w - 0x140 / 4)))
  else if w < 0x1000 / 4 then .unmapped
  else if w < 0xA000 / 4 then (if storedAddr (4 * w) then .mem (4 * w) else .notStored)
  else .unmapped

/-- The address map: PADDR[1:0] are ignored (20_memory.md R65). -/
def target (a : BitVec 16) : Target := targetOfWord (a.toNat / 4)

/-- Store `v` masked to the implemented bits of a writable configuration register (40_control.md R115); no other register
is one. -/
def State.writeConfig (s : State) (v : Word) : Reg → State
  | .arg0 => { s with arg0 := v }
  | .qcfg => { s with qcfg := Qcfg.ofWord v }
  | .bcfg => { s with bcfg := Bcfg.ofWord v }
  | .rsSrc => { s with rsSrc := v.extractLsb' 0 12 }
  | .rsLen => { s with rsLen := v.extractLsb' 0 13 }
  | .rsDst => { s with rsDst := v.extractLsb' 0 12 }
  | _ => s

/-- 20_memory.md R67: the configuration registers, whose writes are refused while BUSY. -/
def Reg.isConfig : Reg → Bool
  | .arg0 | .qcfg | .bcfg | .rsSrc | .rsLen | .rsDst => true
  | _ => false

end Sys2Proof.Machine
end

