-- ==== Sys2Proof/Machine/GfRs.lean ====
section
/-! DEFINITION. Galois-field arithmetic and the Reed–Solomon commands (41_gf_rs.md R120 to R128). -/

namespace Sys2Proof.Machine

/-- Multiply by x and reduce: (z << 1) ⊕ (z[7] ? 0x11D : 0), a 9-bit value below 256 (R121). -/
def gfDouble (z : Byte) : Byte :=
  ((z.zeroExtend 9 <<< 1) ^^^ (if z.getLsbD 7 then 0x11D#9 else 0#9)).truncate 8

/-- One round of gf_mul, for bit `i` of b (R121). -/
def gfRound (a b z : Byte) (i : Nat) : Byte :=
  if b.getLsbD i then gfDouble z ^^^ a else gfDouble z

/-- a ⊗ b, shift and add from bit 7 of b down to bit 0 (R121). -/
def gfMul (a b : Byte) : Byte := [7, 6, 5, 4, 3, 2, 1, 0].foldl (gfRound a b) 0

/-- α^k: α = 0x02 multiplied by itself k times (R122). -/
def gfAlphaPow (k : Nat) : Byte := Nat.repeat (gfMul · 0x02) k 0x01

/-- Multiply d(x), its leading 1 implicit, by (x + root): one pass of R123's inner loop. -/
def mulRoot (root : Byte) : List Byte → List Byte
  | [] => []
  | [x] => [gfMul x root]
  | x :: y :: t => (gfMul x root ^^^ y) :: mulRoot root (y :: t)

/-- R123's outer loop, `k` passes from the root `root`. -/
def divisorLoop : Nat → Byte → List Byte → List Byte
  | 0, _, d => d
  | k + 1, root, d => divisorLoop k (gfMul root 0x02) (mulRoot root d)

/-- rs_divisor(n): the generator polynomial of degree n without its leading 1, highest power first (R123). -/
def rsDivisor (n : Nat) : List Byte :=
  match n with
  | 0 => []
  | k + 1 => divisorLoop (k + 1) 0x01 (List.replicate k 0 ++ [1])

/-- One data byte of rs_remainder (R124): f = b ⊕ r[0], shift, add f times the divisor. -/
def remainderStep (d r : List Byte) (b : Byte) : List Byte :=
  List.zipWith (fun ri di => ri ^^^ gfMul di (b ^^^ r.headD 0)) (r.tail ++ [0]) d

/-- rs_remainder(data, d) (R124). -/
def rsRemainder (data d : List Byte) : List Byte :=
  data.foldl (remainderStep d) (List.replicate d.length 0)

/-- DIVRAM holding the divisor `d` and zeros after it (R126, R128). -/
def divramOf (d : List Byte) : Vector Byte 32 := Vector.ofFn fun j => d.getD j.val 0

/-- DIVRAM and DIV_DEG after a divisor of degree `n` is built (R126). -/
def State.loadDivisor (s : State) (n : Nat) : State :=
  { s with divram := divramOf (rsDivisor n), divDeg := BitVec.ofNat 5 n }

/-- GF.MUL (R125): RESULT <- zext_32(gf_mul(ARG0[7:0], ARG0[15:8])). -/
def execGfMul (s : State) : Result :=
  conclude none { s with result := (gfMul s.gfA s.gfB).zeroExtend 32 } s

/-- R126: BAD_DEGREE if deg < 1 or deg > 30. -/
def checkRsDiv (deg : Nat) : Option ErrCode :=
  if deg < 1 ∨ 30 < deg then some .badDegree else none

/-- RS.DIV (R126). -/
def execRsDiv (deg : Nat) (s : State) : Result := conclude (checkRsDiv deg) (s.loadDivisor deg) s

/-- R127: BAD_DEGREE if no divisor is held, then BAD_RANGE. -/
def checkRsRem (s : State) : Option ErrCode :=
  if s.divDeg.toNat < 1 ∨ 30 < s.divDeg.toNat then some .badDegree
  else if 4096 < s.rsSrc.toNat + s.rsLen.toNat ∨ 4096 < s.rsDst.toNat + s.divDeg.toNat then some .badRange
  else none

/-- The EC codewords RS.REM computes (R127). -/
def State.remainderBytes (s : State) : List Byte :=
  rsRemainder (s.mem.readBlock (dmemBase + s.rsSrc.toNat) s.rsLen.toNat) s.divisor

/-- RS.REM (R127): EMEM[dst + j] <- r[j]. -/
def execRsRem (s : State) : Result :=
  conclude (checkRsRem s)
    { s with mem := s.mem.writeBlock (ememBase + s.rsDst.toNat) s.remainderBytes } s

/-- R34, R191: BAD_BLOCK_CFG if BCFG is not valid. -/
def checkBlockCfg (s : State) : Option ErrCode := if s.bcfg.valid then none else some .badBlockCfg

/-- The EC codewords of every block, in block order: block b's are at offset eoff(b), since each block has ECB of them
(10_state.md R35; R128). -/
def State.encodeBytes (s : State) : List Byte :=
  s.dataBlocks.flatMap (rsRemainder · (rsDivisor s.bcfg.ecb.toNat))

/-- RS.ENC (R128). -/
def execRsEnc (s : State) : Result :=
  conclude (checkBlockCfg s)
    { s.loadDivisor s.bcfg.ecb.toNat with mem := s.mem.writeBlock ememBase s.encodeBytes } s

end Sys2Proof.Machine
end

