-- ==== Sys2Proof/Machine/Interleaver.lean ====
section
/-! DEFINITION. The codeword interleaver (43_interleaver.md R150 to R152). -/

namespace Sys2Proof.Machine

/-- Codeword `i` of each block in block order, of those that have one, for i = 0 .. rounds-1 (R150). -/
def interleave (rounds : Nat) (blocks : List (List Byte)) : List Byte :=
  (List.range rounds).flatMap fun i => blocks.filterMap (·[i]?)

/-- The final codeword sequence (R150): D1+1 rounds over the data blocks, then ECB rounds over their EC codewords. -/
def State.interleaved (s : State) : List Byte :=
  interleave (s.bcfg.d1.toNat + 1) s.dataBlocks ++ interleave s.bcfg.ecb.toNat s.ecBlocks

/-- IL.RUN (R150). -/
def execIlRun (s : State) : Result :=
  conclude (checkBlockCfg s)
    { s with mem := s.mem.writeBlock omemBase s.interleaved, result := natWord s.interleaved.length } s

end Sys2Proof.Machine
end

