-- ==== Sys2Proof/Machine/Mask.lean ====
section
/-! DEFINITION. The mask evaluator and penalty scorer (44_mask.md R160 to R175). -/

namespace Sys2Proof.Machine

/-- The eight mask functions (R160). -/
def maskBit (m : Fin 8) (r c : Nat) : Bool :=
  match m with
  | 0 => (r + c) % 2 == 0
  | 1 => r % 2 == 0
  | 2 => c % 3 == 0
  | 3 => (r + c) % 3 == 0
  | 4 => (r / 2 + c / 3) % 2 == 0
  | 5 => (r * c) % 2 + (r * c) % 3 == 0
  | 6 => ((r * c) % 2 + (r * c) % 3) % 2 == 0
  | 7 => ((r + c) % 2 + (r * c) % 3) % 2 == 0

/-- The ECL code (R161): L = 01, M = 00, Q = 11, H = 10. -/
def eclCode (ecl : BitVec 2) : Nat :=
  match ecl.toNat with
  | 0 => 1
  | 1 => 0
  | 2 => 3
  | _ => 2

/-- One step of the BCH(15,5) remainder (R161). -/
def bchStep (rem : Nat) : Nat := (rem <<< 1) ^^^ (if rem.testBit 9 then 0x537 else 0)

/-- fmt_word(e, m) (R161). -/
def fmtWord (e m : Nat) : Nat :=
  let data := (e <<< 3) ||| m
  ((data <<< 10) ||| Nat.repeat bchStep 10 data) ^^^ 0x5412

/-- The format word of QCFG.ECL and mask `m`. -/
def State.formatWord (s : State) (m : Fin 8) : Nat := fmtWord (eclCode s.qcfg.ecl) m.val

/-- The module matrix a candidate works on, by rows. -/
abbrev Matrix := List (List Bool)

/-- A matrix of `n` rows of `n` cells, as every candidate is (R163). -/
def IsSquare (n : Nat) (M : Matrix) : Prop := M.length = n ∧ ∀ row ∈ M, row.length = n

/-- The matrix with cell `p` = (r, c) set to `v`. -/
def setCell (M : Matrix) (p : Nat × Nat) (v : Bool) : Matrix := M.modify p.1 fun row => row.set p.2 v

/-- Where bit `i` of the format word goes, first copy (R162). -/
def formatCell1 (i : Nat) : Nat × Nat :=
  if i ≤ 5 then (i, 8) else if i = 6 then (7, 8) else if i = 7 then (8, 8) else if i = 8 then (8, 7) else (8, 14 - i)

/-- Where bit `i` of the format word goes, second copy (R162). -/
def formatCell2 (side i : Nat) : Nat × Nat :=
  if i ≤ 5 then (8, side - 1 - i) else if i = 6 then (8, side - 7) else if i = 7 then (8, side - 8)
  else if i = 8 then (side - 7, 8) else (side - 15 + i, 8)

/-- The dark module (R162). -/
def darkCell (side : Nat) : Nat × Nat := (side - 8, 8)

/-- The writes of bit `i` of the format word `w` (R163). -/
def writeFormatBit (side w : Nat) (M : Matrix) (i : Nat) : Matrix :=
  setCell (setCell M (formatCell1 i) (w.testBit i)) (formatCell2 side i) (w.testBit i)

/-- Row `r` from column `c` on, masked: MOD ⊕ mask where FUNC = 0, MOD where FUNC = 1 (R163). -/
def maskRow (m : Fin 8) (r : Nat) : Nat → List Bool → List Bool → List Bool
  | c, v :: vs, f :: fs => (v ^^ (!f && maskBit m r c)) :: maskRow m r (c + 1) vs fs
  | _, _, _ => []

/-- The side × side matrix of MOD masked with `m`, before the format information is written (R163). -/
def State.masked (s : State) (m : Fin 8) : Matrix :=
  let n := s.qcfg.side
  (List.range n).map fun r => maskRow m r 0 (s.mem.row modBase r n) (s.mem.row funcBase r n)

/-- scratch(m) (R163): the masked matrix with the format information and the dark module written. -/
def State.scratch (s : State) (m : Fin 8) : Matrix :=
  let n := s.qcfg.side
  setCell ((List.range 15).foldl (writeFormatBit n (s.formatWord m)) (s.masked m)) (darkCell n) true

/-- Cell (r, c) of a matrix; light outside it. -/
def Matrix.at (M : Matrix) (r c : Nat) : Bool := (M.getD r []).getD c false

/-- The lines the penalty rules scan: the rows, then the columns 0 .. n-1 (R164). -/
def columns (n : Nat) (M : Matrix) : Matrix := (List.range n).map fun c => M.map fun row => row.getD c false
def scanLines (n : Nat) (M : Matrix) : Matrix := M ++ columns n M

/-- R165: a maximal run of length L >= 5 scores 3 + (L - 5). -/
def runScore (run : Nat) : Nat := if 5 ≤ run then 3 + (run - 5) else 0

/-- R165 on the rest of a line, `prev` the value and `run` the length of the run so far. -/
def runsFrom (prev : Bool) (run : Nat) : List Bool → Nat
  | [] => runScore run
  | v :: t => if v = prev then runsFrom prev (run + 1) t else runScore run + runsFrom v 1 t

/-- Rule 1's contribution of one line (R165). -/
def lineRuns : List Bool → Nat
  | [] => 0
  | v :: t => runsFrom v 1 t

/-- rule1 (R165). -/
def rule1 (n : Nat) (M : Matrix) : Nat := ((scanLines n M).map lineRuns).sum

/-- The 2 × 2 windows of equal values between two adjacent rows (R166). -/
def rowPairBlocks : List Bool → List Bool → Nat
  | a :: b :: t, c :: d :: u =>
    (if a = b ∧ b = c ∧ c = d then 1 else 0) + rowPairBlocks (b :: t) (d :: u)
  | _, _ => 0

/-- The 2 × 2 windows of equal values of a matrix (R166). -/
def blockCount : Matrix → Nat
  | r1 :: r2 :: t => rowPairBlocks r1 r2 + blockCount (r2 :: t)
  | _ => 0

/-- rule2 (R166). -/
def rule2 (M : Matrix) : Nat := 3 * blockCount M

/-- Rule 3's occurrences with the core at the fifth element of `u`: four cells, the core 1011101, four cells. Both sides
are counted (R167). -/
def finderAt : List Bool → Nat
  | a0 :: a1 :: a2 :: a3 :: c0 :: c1 :: c2 :: c3 :: c4 :: c5 :: c6 :: b0 :: b1 :: b2 :: b3 :: _ =>
    if [c0, c1, c2, c3, c4, c5, c6] = [true, false, true, true, true, false, true] then
      (if a0 || a1 || a2 || a3 then 0 else 1) + (if b0 || b1 || b2 || b3 then 0 else 1)
    else 0
  | _ => 0

/-- Rule 3's occurrences at every position of a padded line (R167). -/
def finderCount : List Bool → Nat
  | [] => 0
  | v :: t => finderAt (v :: t) + finderCount t

/-- A line with four light cells on each side: what u(k) reads within four cells of the line (R167). -/
def padLine (v : List Bool) : List Bool := List.replicate 4 false ++ v ++ List.replicate 4 false

/-- rule3 (R167). -/
def rule3 (n : Nat) (M : Matrix) : Nat := 40 * ((scanLines n M).map fun v => finderCount (padLine v)).sum

/-- The cells of a matrix equal to 1. -/
def darkCount (M : Matrix) : Nat := (M.map fun row => row.count true).sum

/-- R168: 10 * floor(10 * |2*dark - total| / total). -/
def balance (dark total : Nat) : Nat := 10 * (10 * ((2 * dark - total) + (total - 2 * dark)) / total)

/-- rule4 (R168). -/
def rule4 (n : Nat) (M : Matrix) : Nat := balance (darkCount M) (n * n)

/-- The four scores of a matrix. -/
structure Scores where
  p1 : Nat
  p2 : Nat
  p3 : Nat
  p4 : Nat
deriving DecidableEq, Repr

/-- R165 to R168 on the side × side matrix `M`. -/
def scoresOf (n : Nat) (M : Matrix) : Scores :=
  { p1 := rule1 n M, p2 := rule2 M, p3 := rule3 n M, p4 := rule4 n M }

/-- R169. -/
def Scores.total (x : Scores) : Nat := x.p1 + x.p2 + x.p3 + x.p4

/-- The scores of candidate `m` (R163, R165 to R168). -/
def State.scores (s : State) (m : Fin 8) : Scores := scoresOf s.qcfg.side (s.scratch m)

/-- penalty(m) (R169). -/
def State.penalty (s : State) (m : Fin 8) : Nat := (s.scores m).total

/-- PEN[m][1..4] and PENT[m] holding the scores `x` (R171). -/
def Scores.regs (x : Scores) : Penalty :=
  { p1 := natWord x.p1, p2 := natWord x.p2, p3 := natWord x.p3, p4 := natWord x.p4, total := natWord x.total }

/-- The masks 1 .. 7, in rising order. -/
def laterMasks : List (Fin 8) := [1, 2, 3, 4, 5, 6, 7]

/-- The better of two candidates, the earlier at a tie. -/
def betterMask (totals : Vector Nat 8) (best m : Fin 8) : Fin 8 := if totals[m] < totals[best] then m else best

/-- The least m with the least total (R173: ties to the lowest index). -/
def leastMask (totals : Vector Nat 8) : Fin 8 := laterMasks.foldl (betterMask totals) 0

/-- The bytes of the FINAL plane that `commit` writes: the matrix, and 0 in every other cell of rows 0..176 (R175). -/
def finalBytes (M : Matrix) : List Byte := (List.range matRows).flatMap fun r => bytesOfCells rowPitch (M.getD r [])

/-- commit(m) (R175). -/
def State.commit (s : State) (m : Fin 8) : State :=
  { s with mem := s.mem.writeBlock finalBase (finalBytes (s.scratch m)) }

/-- R191: BAD_QCFG if QCFG is not valid. -/
def checkQcfg (s : State) : Option ErrCode := if s.qcfg.valid then none else some .badQcfg

/-- MK.FMT (R170). -/
def execMkFmt (m : Fin 8) (s : State) : Result := conclude none { s with result := natWord (s.formatWord m) } s

/-- MK.SCORE (R171). -/
def execMkScore (m : Fin 8) (s : State) : Result :=
  conclude (checkQcfg s)
    { s with pen := s.pen.set m (s.scores m).regs, result := natWord (s.penalty m) } s

/-- MK.APPLY (R172): MSEL <- m | 1 << 8. -/
def execMkApply (m : Fin 8) (s : State) : Result :=
  conclude (checkQcfg s)
    { s.commit m with msel := { mask := m, valid := true, auto := false }, result := natWord m.val } s

/-- The scores of all eight candidates, in mask order (R173, R174). -/
def State.allScores (s : State) : Vector Scores 8 := Vector.ofFn s.scores

/-- The mask MK.SEL commits (R173). -/
def State.bestMask (s : State) : Fin 8 := leastMask (s.allScores.map Scores.total)

/-- MK.SEL's effect with the scores `all` and the committed mask `best` (R173): MSEL <- best | 1 << 8 | 1 << 16. -/
def State.select (s : State) (all : Vector Scores 8) (best : Fin 8) : State :=
  { s.commit best with
    pen := all.map Scores.regs
    msel := { mask := best, valid := true, auto := true }
    result := natWord best.val }

/-- MK.SEL (R173). -/
def execMkSel (s : State) : Result :=
  let all := s.allScores
  conclude (checkQcfg s) (s.select all (leastMask (all.map Scores.total))) s

end Sys2Proof.Machine
end

