-- ==== Sys2Proof/Machine/Packer.lean ====
section
/-! DEFINITION. The bit-stream packer (42_packer.md R140 to R145). -/

namespace Sys2Proof.Machine

/-- The stream the packer works on: the memory it lies in and its length in bits, PK_BITLEN. -/
structure Stream where
  mem : Memory
  len : Nat
deriving DecidableEq, Repr

/-- The byte that push stores: the top `j` bits of the old byte, the new bit below them, and 0 below that (R141). -/
def pushByte (old : Byte) (j : Nat) (bit : Bool) : Byte :=
  (old &&& (0xFF#8 <<< (8 - j))) ||| ((BitVec.ofBool bit).zeroExtend 8 <<< (7 - j))

/-- push(bit) (R141). -/
def Stream.push (p : Stream) (bit : Bool) : Stream :=
  let old : Byte := if p.len % 8 = 0 then 0 else p.mem.dmem (p.len / 8)
  { mem := p.mem.write (dmemBase + p.len / 8) (pushByte old (p.len % 8) bit), len := p.len + 1 }

/-- Push the bits of a list, the first first. -/
def Stream.pushAll (p : Stream) (bits : List Bool) : Stream := bits.foldl Stream.push p

/-- The stream of a state (10_state.md R37). -/
def State.stream (s : State) : Stream := { mem := s.mem, len := s.pkBitlen.toNat }

/-- The state with the stream `p`. -/
def State.withStream (s : State) (p : Stream) : State := { s with mem := p.mem, pkBitlen := BitVec.ofNat 16 p.len }

/-- PK.CLR (R142): PK_BITLEN <- 0, and DMEM stays. -/
def execPkClr (s : State) : Result := conclude none { s with pkBitlen := 0 } s

/-- R143: BAD_NBITS if n > 32, then PACK_OVERFLOW if PK_BITLEN + n > 32768. -/
def checkPkApp (n : Nat) (s : State) : Option ErrCode :=
  if 32 < n then some .badNbits
  else if 32768 < s.pkBitlen.toNat + n then some .packOverflow
  else none

/-- PK.APP (R143): push ARG0[n-1], ..., ARG0[0]. -/
def execPkApp (n : Nat) (s : State) : Result :=
  conclude (checkPkApp n s) (s.withStream (s.stream.pushAll (s.fieldBits n))) s

/-- R144: BAD_BLOCK_CFG, then DATA_TOO_LONG if PK_BITLEN > 8*DATA_CW. -/
def checkPkFin (s : State) : Option ErrCode :=
  if s.bcfg.valid then (if 8 * s.bcfg.dataCw < s.pkBitlen.toNat then some .dataTooLong else none)
  else some .badBlockCfg

/-- R144: pad codeword `p`. -/
def padByte (p : Nat) : Byte := if p % 2 = 0 then 0xEC else 0x11

/-- The bits of a codeword in stream order, bit 7 first (20_memory.md R66 item 3). -/
def codewordBits (c : Byte) : List Bool := (List.range 8).map fun i => c.getLsbD (7 - i)

/-- R144: the terminator and the padding to the byte boundary, all 0 bits: min(4, cap - len) of them and then as many as
bring the length to a multiple of 8. -/
def zeroBits (cap len : Nat) : Nat :=
  let t := min 4 (cap - len)
  t + (8 - (len + t) % 8) % 8

/-- R144: how many pad codewords follow, one for each byte left up to the capacity. -/
def padCount (cap len : Nat) : Nat := (cap - (len + zeroBits cap len)) / 8

/-- All the bits PK.FIN pushes (R144). -/
def finBits (cap len : Nat) : List Bool :=
  List.replicate (zeroBits cap len) false ++ (List.range (padCount cap len)).flatMap fun p => codewordBits (padByte p)

/-- PK.FIN (R144). -/
def execPkFin (s : State) : Result :=
  let cap := 8 * s.bcfg.dataCw
  let eff := s.withStream (s.stream.pushAll (finBits cap s.pkBitlen.toNat))
  conclude (checkPkFin s) { eff with result := natWord (padCount cap s.pkBitlen.toNat) } s

end Sys2Proof.Machine
end

