-- ==== Sys2Proof/Machine/Reset.lean ====
section
/-! DEFINITION. The two resets and what they do to a running command (70_reset_and_hazards.md R210 to R213), with the
write footprint of each command (20_memory.md R78). -/

namespace Sys2Proof.Machine

/-- The checks of a command after decoding (60_exceptions.md R192): the first that fails. -/
def State.check (s : State) : Instr → Option ErrCode
  | .nop => none
  | .gfMul => none
  | .rsDiv deg => checkRsDiv deg
  | .rsRem => checkRsRem s
  | .rsEnc => checkBlockCfg s
  | .pkClr => none
  | .pkApp n => checkPkApp n s
  | .pkFin => checkPkFin s
  | .ilRun => checkBlockCfg s
  | .mkFmt _ => none
  | .mkScore _ => checkQcfg s
  | .mkApply _ => checkQcfg s
  | .mkSel => checkQcfg s

/-- The DMEM bytes that hold the stream bits `from` .. `to`-1, as (first bus address, count). -/
def bitSpan (lo hi : Nat) : Nat × Nat :=
  if lo < hi then (dmemBase + lo / 8, (hi + 7) / 8 - lo / 8) else (dmemBase, 0)

/-- The memory a command writes when its checks pass (20_memory.md R78), as (first bus address, count of bytes): each
command writes one run of consecutive bytes, or none. -/
def State.writeSpan (s : State) : Instr → Nat × Nat
  | .rsRem => (ememBase + s.rsDst.toNat, s.divDeg.toNat)
  | .rsEnc => (ememBase, s.bcfg.ecCw)
  | .pkApp n => bitSpan s.pkBitlen.toNat (s.pkBitlen.toNat + n)
  | .pkFin => bitSpan s.pkBitlen.toNat (8 * s.bcfg.dataCw)
  | .ilRun => (omemBase, s.bcfg.totalCw)
  | .mkApply _ => (finalBase, matRows * rowPitch)
  | .mkSel => (finalBase, matRows * rowPitch)
  | .nop => (dmemBase, 0)
  | .gfMul => (dmemBase, 0)
  | .rsDiv _ => (dmemBase, 0)
  | .pkClr => (dmemBase, 0)
  | .mkFmt _ => (dmemBase, 0)
  | .mkScore _ => (dmemBase, 0)

/-- The memory locations the running command would have written (R213): none for an illegal word or a command whose
check fails, since such a command writes nothing (60_exceptions.md R193; log entry 3). -/
def State.footprint (s : State) : Nat × Nat :=
  match decode s.cmd with
  | .error _ => (dmemBase, 0)
  | .ok i =>
    match s.check i with
    | some _ => (dmemBase, 0)
    | none => s.writeSpan i

/-- The memory after the running command is aborted (R213): unspecified values in its footprint, every other byte kept. -/
def State.abortedMem (s : State) : Memory :=
  s.mem.writeBlock s.footprint.1
    ((List.range s.footprint.2).map fun k => Config.abortByte s.fresh (s.footprint.1 + k))

/-- Either reset (R210, R211): every register at its reset value and the engine idle; the memories stay (R212), but for
the footprint of a command that was running (R213). -/
def State.resetRegs (s : State) : State :=
  { State.reset with
    mem := if s.busy then s.abortedMem else s.mem
    host := s.host
    resp := s.resp
    fresh := if s.busy then s.fresh + 1 else s.fresh }

end Sys2Proof.Machine
end

