-- ==== Sys2Proof/Machine/Bus.lean ====
section
/-! DEFINITION. The host's bus transfers (40_control.md R115, R116; 20_memory.md R64 to R70) and the output ports. -/

namespace Sys2Proof.Machine

/-- bus_read (40_control.md R116): PRDATA and PSLVERR. -/
def busRead (a : BitVec 16) (s : State) : Word × Bool :=
  match target a with
  | .reg r => (s.readReg r, false)
  | .mem base => if s.busy then (0, true) else (s.mem.readWord base, false)
  | .notStored => if s.busy then (0, true) else (0, false)
  | .unmapped => (0, true)

/-- A write to CTRL (40_control.md R115; 70_reset_and_hazards.md R211): soft reset, or the enable bits. -/
def writeCtrl (v : Word) (s : State) : State :=
  if v.getLsbD 0 then s.resetRegs else { s with ctrl := Ctrl.ofWord v }

/-- A write to CMD (40_control.md R110; 60_exceptions.md R194). -/
def writeCmd (v : Word) (s : State) : State × Bool :=
  if s.busy then (s.overrun, true) else (s.accept v, false)

/-- A write to a register of the map (40_control.md R115; 20_memory.md R67, R68). -/
def writeReg (r : Reg) (v : Word) (s : State) : State × Bool :=
  match r with
  | .ctrl => (writeCtrl v s, false)
  | .status => (s.clearFlags v, false)
  | .cmd => writeCmd v s
  | r => if r.isConfig then (if s.busy then (s, true) else (s.writeConfig v r, false)) else (s, false)

/-- bus_write (40_control.md R115): the state after it, and PSLVERR. -/
def busWrite (a : BitVec 16) (v : Word) (s : State) : State × Bool :=
  match target a with
  | .reg r => writeReg r v s
  | .mem base => if s.busy then (s, true) else ({ s with mem := s.mem.writeWord base v }, false)
  | .notStored => if s.busy then (s, true) else (s, false)
  | .unmapped => (s, true)

/-- What one edge's host event does to the state, its answer with it (R115, R116, R210). -/
def transfer (e : HostEdge) (s : State) : State :=
  match e with
  | .quiet => s
  | .read a => { s with resp := .read (busRead a s).1 (busRead a s).2 }
  | .write a v => { (busWrite a v s).1 with resp := .write (busWrite a v s).2 }
  | .resetLow => { s.resetRegs with resp := .inReset }

/-- The event of an edge from the port levels (20_memory.md R64): a transfer takes effect at the edge that ends its access
cycle, PSEL = 1 and PENABLE = 1, PREADY being 1; PRESETn = 0 ignores every transfer (R210). -/
def HostEdge.ofPins (p : Pins) : HostEdge :=
  if p.presetn then
    (if p.psel && p.penable then (if p.pwrite then .write p.paddr p.pwdata else .read p.paddr) else .quiet)
  else .resetLow

/-- The PREADY output (20_memory.md R64): held at 1. -/
def State.pready (_ : State) : Bool := true

/-- The PRDATA output, where the edge's transfer gives one (20_memory.md R64; 70_reset_and_hazards.md R210). -/
def State.prdata (s : State) : Option Word :=
  match s.resp with
  | .read d _ => some d
  | .inReset => some 0
  | .write _ => none
  | .noTransfer => none

/-- The PSLVERR output, where there was a transfer (20_memory.md R64; 70_reset_and_hazards.md R210). -/
def State.pslverr (s : State) : Option Bool :=
  match s.resp with
  | .read _ e => some e
  | .write e => some e
  | .inReset => some false
  | .noTransfer => none

end Sys2Proof.Machine
end

