-- ==== Sys2Proof/Machine/Control.lean ====
section
/-! DEFINITION. The control command (40_control.md R114). -/

namespace Sys2Proof.Machine

/-- NOP (40_control.md R114): no check after decoding, no effect, the common completion. -/
def execNop (s : State) : Result := conclude none s s

end Sys2Proof.Machine
end

