-- ==== Sys2Proof/Machine/Dispatch.lean ====
section
/-! DEFINITION. What each decoded command does at its completion edge: one arm per constructor of Instr, each one call of
the command's meaning. -/

namespace Sys2Proof.Machine

def exec (i : Instr) (s : State) : Host.Outcome State Fault Refusal :=
  match i with
  | .nop => Sys2Proof.Machine.execNop s
  | .gfMul => Sys2Proof.Machine.execGfMul s
  | .rsDiv deg => Sys2Proof.Machine.execRsDiv deg s
  | .rsRem => Sys2Proof.Machine.execRsRem s
  | .rsEnc => Sys2Proof.Machine.execRsEnc s
  | .pkClr => Sys2Proof.Machine.execPkClr s
  | .pkApp n => Sys2Proof.Machine.execPkApp n s
  | .pkFin => Sys2Proof.Machine.execPkFin s
  | .ilRun => Sys2Proof.Machine.execIlRun s
  | .mkFmt m => Sys2Proof.Machine.execMkFmt m s
  | .mkScore m => Sys2Proof.Machine.execMkScore m s
  | .mkApply m => Sys2Proof.Machine.execMkApply m s
  | .mkSel => Sys2Proof.Machine.execMkSel s

end Sys2Proof.Machine
end

