-- ==== Sys2Proof/Machine/Clock.lean ====
section
/-! DEFINITION. One rising edge of PCLK (40_control.md R111, R112, R117): the running command may complete, and one host
event may take effect. -/

namespace Sys2Proof.Machine

/-- The evaluation of the accepted command at its completion edge (40_control.md R111): decoding first, an illegal word
failing with ILLEGAL_CMD (30_encoding.md R93), then the command's own rule. -/
def runAccepted (s : State) : Result :=
  match decode s.cmd with
  | .ok i => exec i s
  | .error _ => .next (s.fail .illegalCmd)

/-- Go on with `f` from a next state. -/
def onNext (r : Result) (f : State → State) : Result :=
  match r with
  | .next s => .next (f s)
  | .fault e => .fault e
  | .refused e => .refused e

/-- The completion edge with the host event `e` (40_control.md R117): completion first and the transfer second, except
that a STATUS write cannot clear what the completion sets (10_state.md R25), a CMD write sees BUSY = 1
(60_exceptions.md R194), and PRESETn = 0 aborts the command (70_reset_and_hazards.md R213). Log entries 5, 6, 7. -/
def completionEdge (e : HostEdge) (s : State) : Result :=
  match e with
  | .quiet => runAccepted s
  | .read a => onNext (runAccepted s) (transfer (.read a))
  | .write a v =>
    if target a = .reg .status then runAccepted (transfer (.write a v) s)
    else if target a = .reg .cmd then onNext (runAccepted s) fun t => { t.overrun with resp := .write true }
    else onNext (runAccepted s) (transfer (.write a v))
  | .resetLow => .next (transfer .resetLow s)

/-- An edge on which no command completes: the cycle counts, and the host event takes effect. -/
def plainEdge (e : HostEdge) (s : State) : State :=
  match s.phase with
  | .idle => transfer e s
  | .busy left => transfer e { s with phase := .busy (left - 1) }

/-- The running command's LAT cycles elapse at this edge (40_control.md R111, R113). -/
def State.due (s : State) : Bool :=
  match s.phase with
  | .idle => false
  | .busy left => decide (left ≤ 1)

/-- This edge follows one with PRESETn = 0 (70_reset_and_hazards.md R210), which left the block idle. -/
def State.leavingReset (s : State) : Bool := decide (s.resp = .inReset) && !s.busy

/-- What the block takes at this edge: what the host presents, nothing past the end of the list; but the first edge with
PRESETn = 1 leaves the block in the reset state, so no transfer is taken at it (70_reset_and_hazards.md R210). -/
def State.edge (s : State) : HostEdge :=
  match s.host.headD .quiet with
  | .resetLow => .resetLow
  | e => if s.leavingReset then .quiet else e

/-- The state as this edge finds it: the event taken off the list, and no answer to it yet. -/
def State.begin (s : State) : State := { s with host := s.host.tail, resp := .noTransfer }

/-- One rising edge of PCLK. -/
def clockEdge (s : State) : Result :=
  if s.due then completionEdge s.edge s.begin else .next (plainEdge s.edge s.begin)

/-- `s` just after the acceptance of the word `w` (40_control.md R110), one cycle before completion and with no transfer
at the completion edge (log entry 17). -/
def State.acceptedNow (s : State) (w : Word) : State :=
  { s with cmd := w, status := s.status.accepted w, phase := .busy 1, host := .quiet :: s.host }

end Sys2Proof.Machine
end

