-- ==== Sys2Proof/Machine/Step.lean ====
section
/-! DEFINITION. The step: one rising edge of PCLK. -/

namespace Sys2Proof.Machine

/-- One step of the block (40_control.md R115 to R117). -/
def step (s : State) : Host.Outcome State Fault Refusal := clockEdge s

/-- `s` with the command word `w` accepted and due, so that the very next step runs exactly it (log entry 17). -/
def State.withFetchWord (s : State) (nbits w : Nat) : State := s.acceptedNow (BitVec.ofNat 32 (w % 2 ^ nbits))

end Sys2Proof.Machine
end

