-- ==== Sys2Proof/Safety.lean ====
section
/-! DEFINITION. What a safe run of the block means: the step answers a next state (60_exceptions.md R190: an error never
stops the block), and the relations between the registers that the rules keep. -/

namespace Sys2Proof.Machine

/-- The step goes on (60_exceptions.md R190). -/
def Runs (s : State) : Prop := ∃ t, step s = .next t

/-- What the rules promise of the registers in every state that a run reaches. -/
structure Inv (s : State) : Prop where
  /-- LASTOP is CMD bits 7:0 of the accepted word, which a read of CMD returns (10_state.md R24, R26). -/
  lastopIsCmd : s.status.lastop = s.cmd.extractLsb' 0 8
  /-- ERR is 1 exactly when ERRCODE names an error (10_state.md R24; 60_exceptions.md R191, R197). -/
  errHasCode : s.status.err = true ↔ s.status.errcode ≠ .none
  /-- DONE is 0 while a command runs: acceptance clears it and completion sets it (40_control.md R110, R111). -/
  busyNotDone : s.busy = true → s.status.done = false
  /-- A running command has an edge left to complete at: LAT is at least 1 (40_control.md R113). -/
  busyHasEdge : ∀ left, s.phase = .busy left → 1 ≤ left
  /-- An edge with PRESETn = 0 leaves the block idle (70_reset_and_hazards.md R210). -/
  resetIsIdle : s.resp = .inReset → s.phase = .idle
  /-- PK_BITLEN lies in 0..32768 (10_state.md R37). -/
  streamFits : s.pkBitlen.toNat ≤ 32768
  /-- DIV_DEG is at most 30, and DIVRAM holds the divisor of degree DIV_DEG with zeros after it, or only zeros when none
  is held (10_state.md R39, R40; 41_gf_rs.md R126, R128). -/
  degreeLegal : s.divDeg.toNat ≤ 30
  divisorHeld : s.divram = divramOf (rsDivisor s.divDeg.toNat)
  /-- PENT[m] is the sum of PEN[m][1..4] (10_state.md R43). -/
  penaltySum : ∀ m : Fin 8, s.pen[m].total = s.pen[m].p1 + s.pen[m].p2 + s.pen[m].p3 + s.pen[m].p4
  /-- MSEL is 0 until a mask has been committed since reset (10_state.md R41). -/
  mselBlank : s.msel.valid = false → s.msel = { mask := 0, valid := false, auto := false }

/-- The bounds that 10_state.md R28 and R42 give: no result and no penalty register overflows. -/
structure Bounded (s : State) : Prop where
  result : s.result.toNat < 2 ^ 23
  rule1 : ∀ m : Fin 8, s.pen[m].p1.toNat ≤ 61950
  rule2 : ∀ m : Fin 8, s.pen[m].p2.toNat ≤ 92928
  rule3 : ∀ m : Fin 8, s.pen[m].p3.toNat ≤ 40 * 2 * 354 * 171
  rule4 : ∀ m : Fin 8, s.pen[m].p4.toNat ≤ 100

end Sys2Proof.Machine
end

