-- ==== Sys2Proof/Certificates/Slice0/Obligations.lean ====
section
/-! DEFINITION. The statements about the model, one `def Obligations.<Name> : Prop` each, and the words they are written
in. -/

open Sys2Proof Sys2Proof.Machine

namespace Sys2Proof.Claims

/-! The two ends of a command (40_control.md R111, R112). -/

/-- A successful end, after the writes that made `u`: BUSY 0, DONE 1, ERR, ERRCODE and LASTOP as they were. -/
def afterSuccess (u : State) : State :=
  { u with
    phase := .idle
    status := { done := true, err := u.status.err, errcode := u.status.errcode, lastop := u.status.lastop } }

/-- A failed end with code `e`: BUSY 0, DONE 1, ERR 1, ERRCODE e, and nothing else. -/
def afterFailure (s : State) (e : ErrCode) : State :=
  { s with phase := .idle, status := { done := true, err := true, errcode := e, lastop := s.status.lastop } }

/-! Command words (30_encoding.md R92, R93). -/

/-- The reserved OP values. -/
def ReservedOp (op : Nat) : Prop :=
  (0x05 ≤ op ∧ op ≤ 0x0F) ∨ (0x13 ≤ op ∧ op ≤ 0x1F) ∨ (0x21 ≤ op ∧ op ≤ 0x2F) ∨ (0x34 ≤ op ∧ op ≤ 0xFF)

/-- The OP values of class Z and of class M. -/
def ClassZOp (op : Nat) : Prop := op ∈ [0x00, 0x01, 0x03, 0x04, 0x10, 0x12, 0x20, 0x33]
def ClassMOp (op : Nat) : Prop := op ∈ [0x30, 0x31, 0x32]

/-- The four ways a word is illegal. -/
def IllegalWord (w : Word) : Prop :=
  w.extractLsb' 16 16 ≠ 0 ∨
  ReservedOp (w.extractLsb' 0 8).toNat ∨
  (ClassZOp (w.extractLsb' 0 8).toNat ∧ w.extractLsb' 8 8 ≠ 0) ∨
  (ClassMOp (w.extractLsb' 0 8).toNat ∧ w.extractLsb' 11 5 ≠ 0)

/-! Bus addresses (20_memory.md R62, R65). -/

/-- The word address an address reaches: bits 1:0 cleared. -/
def wordAddr (a : BitVec 16) : Nat := a.toNat / 4 * 4

/-- A register's address. -/
def RegisterAddr (a : BitVec 16) : Prop :=
  wordAddr a < 0x48 ∨ (0x80 ≤ wordAddr a ∧ wordAddr a < 0x120) ∨ (0x140 ≤ wordAddr a ∧ wordAddr a < 0x160)

/-- An address in a memory or plane window. -/
def WindowAddr (a : BitVec 16) : Prop := 0x1000 ≤ wordAddr a ∧ wordAddr a < 0xA000

/-- ARG0, QCFG, BCFG, RS_SRC, RS_LEN, RS_DST. -/
def ConfigAddr (a : BitVec 16) : Prop := wordAddr a ∈ [0x010, 0x018, 0x01C, 0x034, 0x038, 0x03C]

/-- The read-only registers of 20_memory.md R68. -/
def ReadOnlyAddr (a : BitVec 16) : Prop :=
  wordAddr a ∈ [0x000, 0x014, 0x020, 0x024, 0x028, 0x02C, 0x030, 0x040, 0x044] ∨
  (0x80 ≤ wordAddr a ∧ wordAddr a < 0x120) ∨ (0x140 ≤ wordAddr a ∧ wordAddr a < 0x160)

/-- The host event is no reset: neither PRESETn = 0 nor a CTRL write with bit 0 = 1. -/
def NoReset (e : HostEdge) : Prop :=
  e ≠ .resetLow ∧ ∀ a v, e = .write a v → wordAddr a = 0x004 → v.getLsbD 0 = false

/-! The stream (42_packer.md R140). -/

/-- Stream bit k: DMEM[k // 8] at bit position 7 - (k mod 8). -/
def streamBit (m : Memory) (k : Nat) : Bool := (m.dmem (k / 8)).getLsbD (7 - k % 8)

/-! Polynomials (41_gf_rs.md R120, R123). -/

/-- The product of two polynomials over GF(2), the second of degree at most 8, not reduced. -/
def polyMul (a b : Nat) : Nat :=
  (List.range 9).foldl (fun acc i => if b.testBit i then acc ^^^ (a <<< i) else acc) 0

/-- The value at x of a polynomial over the field, highest power first. -/
def evalPoly (p : List Byte) (x : Byte) : Byte := p.foldl (fun acc c => gfMul acc x ^^^ c) 0

/-- (x - α^0)(x - α^1) ... (x - α^(n-1)) at x. -/
def rootProduct (n : Nat) (x : Byte) : Byte :=
  (List.range n).foldl (fun acc i => gfMul acc (x ^^^ gfAlphaPow i)) 1

/-- The bytes DMEM[lo .. lo+n-1]. -/
def dmemBytes (m : Memory) (lo n : Nat) : List Byte := (List.range n).map fun i => m.dmem (lo + i)

/-- The output order of 43_interleaver.md R150, loop for loop. -/
def interleaveLoops (s : State) : List Byte :=
  ((List.range (s.bcfg.d1.toNat + 1)).flatMap fun i =>
    (List.range s.bcfg.nb).flatMap fun b =>
      if i < s.bcfg.len b then [s.mem.dmem (s.bcfg.doff b + i)] else []) ++
  ((List.range s.bcfg.ecb.toNat).flatMap fun i =>
    (List.range s.bcfg.nb).flatMap fun b => [s.mem.emem (s.bcfg.eoff b + i)])

/-! The matrix (44_mask.md R162 to R168). -/

/-- mask(m, r, c) = 1 (R160). -/
def Inverted (m r c : Nat) : Prop :=
  (m = 0 ∧ (r + c) % 2 = 0) ∨ (m = 1 ∧ r % 2 = 0) ∨ (m = 2 ∧ c % 3 = 0) ∨ (m = 3 ∧ (r + c) % 3 = 0) ∨
  (m = 4 ∧ (r / 2 + c / 3) % 2 = 0) ∨ (m = 5 ∧ (r * c) % 2 + (r * c) % 3 = 0) ∨
  (m = 6 ∧ ((r * c) % 2 + (r * c) % 3) % 2 = 0) ∨ (m = 7 ∧ ((r + c) % 2 + (r * c) % 3) % 2 = 0)

/-- The cells R162 writes: the two copies of the format word and the dark module. -/
def FormatCell (side r c : Nat) : Prop :=
  (c = 8 ∧ ((r ≤ 8 ∧ r ≠ 6) ∨ side - 8 ≤ r)) ∨ (r = 8 ∧ ((c ≤ 8 ∧ c ≠ 6) ∨ side - 8 ≤ c))

/-- The lines of R164: the rows, then the columns, cell by cell. -/
def linesOf (n : Nat) (M : Matrix) : List (List Bool) :=
  ((List.range n).map fun r => (List.range n).map fun c => M.at r c) ++
  ((List.range n).map fun c => (List.range n).map fun r => M.at r c)

/-- The loop of R165 over one line: (run, P1) after k = 1 .. side. -/
def runLoop (v : List Bool) : Nat :=
  ((List.range' 1 v.length).foldl
    (fun (p : Nat × Nat) k =>
      if k < v.length ∧ v.getD k false = v.getD (k - 1) false then (p.1 + 1, p.2)
      else (1, if 5 ≤ p.1 then p.2 + 3 + (p.1 - 5) else p.2))
    (1, 0)).2

/-- u(k - 4) of R167: the line's cell, light outside it. -/
def cellAround (v : List Bool) (k : Nat) : Bool := if 4 ≤ k then v.getD (k - 4) false else false

/-- The occurrences of R167 at position i of a line. -/
def finderOccurrences (v : List Bool) (i : Nat) : Nat :=
  if (List.range 7).map (fun j => cellAround v (i + 4 + j)) = [true, false, true, true, true, false, true] then
    (if (List.range 4).map (fun j => cellAround v (i + j)) = [false, false, false, false] then 1 else 0) +
    (if (List.range 4).map (fun j => cellAround v (i + 11 + j)) = [false, false, false, false] then 1 else 0)
  else 0

end Sys2Proof.Claims

open Sys2Proof.Claims

/-! ## Encoding and decoding -/

/-- 30_encoding.md R90 to R97: decoding an encoded well-formed command gives it back, operand included. -/
def Obligations.EncodeThenDecodeGivesTheCommand : Prop :=
  ∀ i : Instr, i.wellFormed = true → decode (encode i) = .ok i

/-- 30_encoding.md R90 to R97: a word that decodes is the encoding of what it decodes to, which is well formed. -/
def Obligations.DecodedWordIsItsEncoding : Prop :=
  ∀ (w : Word) (i : Instr), decode w = .ok i → encode i = w ∧ i.wellFormed = true

/-- 30_encoding.md R93: exactly the four kinds of word are illegal; such a word is accepted as any word is, and at its
completion it fails ILLEGAL_CMD with no other effect. -/
def Obligations.IllegalWordsFailIllegalCmd : Prop :=
  (∀ w : Word, (∃ e, decode w = .error e) ↔ IllegalWord w) ∧
  (∀ (s : State) (w : Word), IllegalWord w → s.phase = .idle →
    ∃ t, busWrite 0x00C w s = (t, false) ∧ t.cmd = w ∧ t.busy = true ∧ t.status.done = false ∧
      t.status.lastop = w.extractLsb' 0 8) ∧
  (∀ s : State, IllegalWord s.cmd → runAccepted s = .next (afterFailure s .illegalCmd))

/-- 30_encoding.md section 5 and opcode_table.json: a few words decode to the commands they stand for. -/
def Obligations.EncodingExamplesDecode : Prop :=
  decode 0x00000000 = .ok .nop ∧ decode 0x00000001 = .ok .gfMul ∧ decode 0x00000A02 = .ok (.rsDiv 10) ∧
  decode 0x00000002 = .ok (.rsDiv 0) ∧ decode 0x00000B11 = .ok (.pkApp 11) ∧ decode 0x00002111 = .ok (.pkApp 33) ∧
  decode 0x00000020 = .ok .ilRun ∧ decode 0x00000731 = .ok (.mkScore 7) ∧ decode 0x00000033 = .ok .mkSel ∧
  decode 0x00000831 = .error .classMOperand ∧ decode 0x00000100 = .error .classZOperand ∧
  decode 0x00010000 = .error .reservedField ∧ decode 0x00000005 = .error .reservedOp

/-! ## The step -/

/-- 40_control.md section 2: at the completion edge with no transfer, the step is exec of the command that CMD decodes to,
at the state with that edge taken off the host's list and no answer to a transfer; a read, or a write to neither STATUS nor
CMD, at that edge acts on the state the completion leaves. The model's own choices: a soft reset at that edge comes after the
completion (log entry 7), and a busy state with 0 edges left, which no run reaches, completes here (log entry 16). -/
def Obligations.StepRunsTheDecodedCommand : Prop :=
  ∀ (s : State) (i : Instr) (left : Nat) (rest : List HostEdge),
    s.phase = .busy left → left ≤ 1 → decode s.cmd = .ok i →
    (s.host = .quiet :: rest ∨ (s.host = [] ∧ rest = []) →
      step s = exec i { s with host := rest, resp := .noTransfer }) ∧
    (∀ e, s.host = e :: rest → e ≠ .resetLow →
      (∀ a v, e = .write a v → wordAddr a ≠ 0x008 ∧ wordAddr a ≠ 0x00C) →
      ∃ u, exec i { s with host := rest, resp := .noTransfer } = .next u ∧ step s = .next (transfer e u))

/-- 40_control.md section 2 with 60_exceptions.md section 2: a CMD write at the completion edge is refused: the command
completes, the word is dropped, ERR is 1 with BUSY_OVERRUN, PSLVERR is 1. That ERRCODE is 2 when the command fails too is
the model's inference (log entry 5); left = 0, which no run reaches, is its choice (log entry 16). -/
def Obligations.CmdWriteAtCompletionIsRefused : Prop :=
  ∀ (s : State) (left : Nat) (a : BitVec 16) (w : Word) (rest : List HostEdge),
    s.phase = .busy left → left ≤ 1 → s.host = .write a w :: rest → wordAddr a = 0x00C →
    ∃ u, runAccepted { s with host := rest, resp := .noTransfer } = .next u ∧ u.cmd = s.cmd ∧ u.phase = .idle ∧
      step s = .next
        { u with
          status := { done := true, err := true, errcode := .busyOverrun, lastop := s.status.lastop }
          resp := .write true }

/-- 60_exceptions.md section 1, 70_reset_and_hazards.md section 3: no step stops the block. -/
def Obligations.EveryStepGoesOn : Prop := ∀ s : State, Runs s

/-- 40_control.md section 1, 70_reset_and_hazards.md section 3: from idle, a CMD write and then no transfer: the block is
busy with DONE = 0 for LAT edges, and the edge after them completes the command on the accepted state. (The edge right after
one with PRESETn = 0 takes no CMD write: Obligations.HardResetLeavesTheResetState.) -/
def Obligations.CommandCompletesAfterItsLatency : Prop :=
  ∀ (s : State) (w : Word), s.phase = .idle → s.resp ≠ .inReset → s.host = [.write 0x00C w] →
    (∀ k, 1 ≤ k → k ≤ s.latency w →
      ∃ u, Host.Core.run Sys2Proof.core k s = .next u ∧ u.phase = .busy (s.latency w + 1 - k) ∧ u.status.done = false) ∧
    ∃ t, Host.Core.run Sys2Proof.core (1 + s.latency w) s = .next t ∧ t.phase = .idle ∧ t.status.done = true ∧
      runAccepted { s.accept w with phase := .busy 1, host := [], resp := .noTransfer } = .next t

/-- 70_reset_and_hazards.md section 2: while a command runs and does not complete at the edge, no host event but a reset
changes anything a command reads; only CTRL and the STATUS flags can change. -/
def Obligations.OperandsAreStableWhileRunning : Prop :=
  ∀ (s : State) (left : Nat) (e : HostEdge) (rest : List HostEdge),
    s.phase = .busy left → 1 < left → s.host = e :: rest → NoReset e →
    ∃ t, step s = .next t ∧ t.status.lastop = s.status.lastop ∧
      t = { s with ctrl := t.ctrl, status := t.status, phase := .busy (left - 1), host := rest, resp := t.resp }

/-- 40_control.md sections 1 and 2: whatever the number of cycles a command takes and whatever the host does meanwhile short
of a reset, it leaves the same registers and memories; only CTRL, the flags and the last transfer's answer may differ. -/
def Obligations.ResultDoesNotDependOnLatency : Prop :=
  ∀ (s : State) (n : Nat), s.phase = .busy (n + 1) → s.host.length = n → (∀ e ∈ s.host, NoReset e) →
    ∃ u v, Host.Core.run Sys2Proof.core (n + 1) s = .next u ∧
      runAccepted { s with phase := .busy 1, host := [], resp := .noTransfer } = .next v ∧
      u = { v with ctrl := u.ctrl, status := u.status } ∧ u.status.done = true ∧ u.status.lastop = v.status.lastop

/-! ## The bus -/

/-- 40_control.md section 2: with no command due, the host's event takes effect at the edge, and the running command's
cycle count falls by one; but the first edge with PRESETn = 1 takes no transfer (70_reset_and_hazards.md section 1). That no answer is
shown there is the model's choice (log entry 10), and so is a busy state right after PRESETn = 0, which no run reaches (16). -/
def Obligations.StepTakesTheHostTransfer : Prop :=
  ∀ (s : State) (e : HostEdge) (rest : List HostEdge), s.host = e :: rest →
    (s.phase = .idle → s.resp ≠ .inReset ∨ e = .resetLow →
      step s = .next (transfer e { s with host := rest, resp := .noTransfer })) ∧
    (s.phase = .idle → s.resp = .inReset → e ≠ .resetLow → step s = .next { s with host := rest, resp := .noTransfer }) ∧
    (∀ left, s.phase = .busy left → 1 < left →
      step s = .next (transfer e { s with host := rest, resp := .noTransfer, phase := .busy (left - 1) })) ∧
    (∀ (u : State) (a : BitVec 16), transfer (.read a) u = { u with resp := .read (busRead a u).1 (busRead a u).2 }) ∧
    (∀ (u : State) (a : BitVec 16) (v : Word),
      transfer (.write a v) u = { (busWrite a v u).1 with resp := .write (busWrite a v u).2 })

/-- 10_state.md section 2: what a read of each register returns, in any phase, with PADDR[1:0] ignored. -/
def Obligations.RegisterReadsGiveTheFields : Prop :=
  ∀ (s : State) (a : BitVec 16), RegisterAddr a →
    (busRead a s).2 = false ∧
    (wordAddr a = 0x000 → (busRead a s).1 = 0x51524543) ∧
    (wordAddr a = 0x004 → (busRead a s).1.toNat = 2 * s.ctrl.ieDone.toNat + 4 * s.ctrl.ieErr.toNat) ∧
    (wordAddr a = 0x008 → (busRead a s).1.toNat =
      s.busy.toNat + 2 * s.status.done.toNat + 4 * s.status.err.toNat + 2 ^ 8 * s.status.errcode.code.toNat +
        2 ^ 16 * s.status.lastop.toNat) ∧
    (wordAddr a = 0x00C → (busRead a s).1 = s.cmd) ∧
    (wordAddr a = 0x010 → (busRead a s).1 = s.arg0) ∧
    (wordAddr a = 0x014 → (busRead a s).1 = s.result) ∧
    (wordAddr a = 0x018 → (busRead a s).1.toNat = s.qcfg.ver.toNat + 2 ^ 8 * s.qcfg.ecl.toNat) ∧
    (wordAddr a = 0x01C → (busRead a s).1.toNat =
      s.bcfg.nb1.toNat + 2 ^ 8 * s.bcfg.nb2.toNat + 2 ^ 16 * s.bcfg.d1.toNat + 2 ^ 24 * s.bcfg.ecb.toNat) ∧
    (wordAddr a = 0x020 → (busRead a s).1.toNat =
      s.bcfg.nb1.toNat * s.bcfg.d1.toNat + s.bcfg.nb2.toNat * (s.bcfg.d1.toNat + 1)) ∧
    (wordAddr a = 0x024 → (busRead a s).1.toNat = (s.bcfg.nb1.toNat + s.bcfg.nb2.toNat) * s.bcfg.ecb.toNat) ∧
    (wordAddr a = 0x028 → (busRead a s).1.toNat =
      s.bcfg.nb1.toNat * s.bcfg.d1.toNat + s.bcfg.nb2.toNat * (s.bcfg.d1.toNat + 1) +
        (s.bcfg.nb1.toNat + s.bcfg.nb2.toNat) * s.bcfg.ecb.toNat) ∧
    (wordAddr a = 0x02C → (busRead a s).1.toNat = s.bcfg.valid.toNat + 2 * s.qcfg.valid.toNat) ∧
    (wordAddr a = 0x030 → (busRead a s).1.toNat = s.pkBitlen.toNat) ∧
    (wordAddr a = 0x034 → (busRead a s).1.toNat = s.rsSrc.toNat) ∧
    (wordAddr a = 0x038 → (busRead a s).1.toNat = s.rsLen.toNat) ∧
    (wordAddr a = 0x03C → (busRead a s).1.toNat = s.rsDst.toNat) ∧
    (wordAddr a = 0x040 → (busRead a s).1.toNat = s.divDeg.toNat) ∧
    (wordAddr a = 0x044 → (busRead a s).1.toNat =
      s.msel.mask.val + 2 ^ 8 * s.msel.valid.toNat + 2 ^ 16 * s.msel.auto.toNat) ∧
    (∀ m : Fin 8, wordAddr a = 0x080 + 16 * m.val → (busRead a s).1 = s.pen[m].p1) ∧
    (∀ m : Fin 8, wordAddr a = 0x084 + 16 * m.val → (busRead a s).1 = s.pen[m].p2) ∧
    (∀ m : Fin 8, wordAddr a = 0x088 + 16 * m.val → (busRead a s).1 = s.pen[m].p3) ∧
    (∀ m : Fin 8, wordAddr a = 0x08C + 16 * m.val → (busRead a s).1 = s.pen[m].p4) ∧
    (∀ m : Fin 8, wordAddr a = 0x100 + 4 * m.val → (busRead a s).1 = s.pen[m].total) ∧
    (∀ i : Fin 8, wordAddr a = 0x140 + 4 * i.val → ∀ k < 4,
      (busRead a s).1.extractLsb' (8 * k) 8 = s.divram.toList.getD (4 * i.val + k) 0)

/-- 10_state.md R30, R31, R34: the matrix side, and exactly when QCFG and BCFG are valid, and what reads BCFG when it is
not. -/
def Obligations.ConfigurationValidity : Prop :=
  (∀ q : Qcfg, q.side = 17 + 4 * q.ver.toNat ∧ (q.ver = 1 → q.side = 21) ∧ (q.ver = 40 → q.side = 177) ∧
    (q.valid = true ↔ 1 ≤ q.ver.toNat ∧ q.ver.toNat ≤ 40)) ∧
  (∀ s : State, (busRead 0x02C s).1.getLsbD 1 = s.qcfg.valid) ∧
  (∀ b : Bcfg, b.valid = true ↔
    1 ≤ b.nb1.toNat ∧ 1 ≤ b.d1.toNat ∧ 1 ≤ b.ecb.toNat ∧ b.ecb.toNat ≤ 30 ∧
    b.nb1.toNat * b.d1.toNat + b.nb2.toNat * (b.d1.toNat + 1) ≤ 4096 ∧
    (b.nb1.toNat + b.nb2.toNat) * b.ecb.toNat ≤ 4096 ∧
    b.nb1.toNat * b.d1.toNat + b.nb2.toNat * (b.d1.toNat + 1) + (b.nb1.toNat + b.nb2.toNat) * b.ecb.toNat ≤ 4096) ∧
  ∀ (s : State) (i : Instr), i = .rsEnc ∨ i = .pkFin ∨ i = .ilRun → s.bcfg.valid = false →
    exec i s = .next (afterFailure s .badBlockCfg)

/-- 20_memory.md R67: accesses while a command runs, and when none does. -/
def Obligations.AccessesWhileBusy : Prop :=
  ∀ (s : State) (a : BitVec 16) (v : Word),
    (s.busy = true →
      (WindowAddr a → busRead a s = (0, true) ∧ busWrite a v s = (s, true)) ∧
      (ConfigAddr a → busWrite a v s = (s, true)) ∧
      (wordAddr a = 0x00C →
        busWrite a v s = ({ s with status := { s.status with err := true, errcode := .busyOverrun } }, true)) ∧
      (RegisterAddr a → (busRead a s).2 = false ∧ (busRead a s).1 =
        if wordAddr a = 0x008 then (busRead a { s with phase := .idle }).1 ||| 1#32
        else (busRead a { s with phase := .idle }).1) ∧
      (wordAddr a = 0x004 ∨ wordAddr a = 0x008 → (busWrite a v s).2 = false ∧
        (busWrite a v s).1.ctrl = (busWrite a v { s with phase := .idle }).1.ctrl ∧
        (busWrite a v s).1.status = (busWrite a v { s with phase := .idle }).1.status)) ∧
    (s.busy = false → (RegisterAddr a ∨ WindowAddr a) → (busRead a s).2 = false ∧ (busWrite a v s).2 = false)

/-- 20_memory.md R68: unmapped addresses and read-only registers, in any phase. -/
def Obligations.UnmappedAndReadOnlyAccesses : Prop :=
  ∀ (s : State) (a : BitVec 16) (v : Word),
    (¬ RegisterAddr a → ¬ WindowAddr a → busRead a s = (0, true) ∧ busWrite a v s = (s, true)) ∧
    (ReadOnlyAddr a → busWrite a v s = (s, false))

/-- 20_memory.md R69: plane rows 177..255 are not stored. -/
def Obligations.PlaneRowsPastTheMatrixAreNotStored : Prop :=
  ∀ (s : State) (a : BitVec 16) (v : Word) (base : Nat), base ∈ [0x4000, 0x6000, 0x8000] →
    base + 0x1620 ≤ wordAddr a → wordAddr a < base + 0x2000 →
    (s.busy = false → busRead a s = (0, false) ∧ busWrite a v s = (s, false)) ∧
    (s.busy = true → busRead a s = (0, true) ∧ busWrite a v s = (s, true))

/-- 20_memory.md section 2: byte i of a word of a codeword-memory window is its bits 8i+7:8i. A read while idle returns the
four bytes that memory holds; a write stores them, reads back whole, and changes no other byte of memory. -/
def Obligations.CodewordWindowWrite : Prop :=
  ∀ (s : State) (v : Word) (a : BitVec 16), s.phase = .idle → 0x1000 ≤ a.toNat → a.toNat < 0x4000 →
    (busRead a s).2 = false ∧
    (∀ i < 4, (busRead a s).1.extractLsb' (8 * i) 8 = s.mem.read (wordAddr a + i)) ∧
    ∃ m : Memory, busWrite a v s = ({ s with mem := m }, false) ∧ busRead a { s with mem := m } = (v, false) ∧
      (∀ i < 4, m.read (wordAddr a + i) = v.extractLsb' (8 * i) 8) ∧
      (∀ x, x < wordAddr a ∨ wordAddr a + 4 ≤ x → m.read x = s.mem.read x)

/-- 20_memory.md section 2: bit j of word w of row r of a plane window is cell (r, 32w + j), at every address of the word. A
read while idle returns the 32 cells that memory holds; a write stores them, reads back whole, and changes no other cell and no
byte outside that word. -/
def Obligations.PlaneWindowWrite : Prop :=
  ∀ (s : State) (v : Word) (a : BitVec 16) (base r w : Nat), s.phase = .idle → base ∈ [0x4000, 0x6000, 0x8000] →
    r < 177 → w < 8 → wordAddr a = base + 32 * r + 4 * w →
    (busRead a s).2 = false ∧
    (∀ j < 32, (busRead a s).1.getLsbD j = s.mem.cell base r (32 * w + j)) ∧
    ∃ m : Memory, busWrite a v s = ({ s with mem := m }, false) ∧ busRead a { s with mem := m } = (v, false) ∧
      (∀ j < 32, m.cell base r (32 * w + j) = v.getLsbD j) ∧
      (∀ r' c', c' < 256 → (r' ≠ r ∨ c' / 32 ≠ w) → m.cell base r' c' = s.mem.cell base r' c') ∧
      (∀ x, x < base + 32 * r + 4 * w ∨ base + 32 * r + 4 * w + 4 ≤ x → m.read x = s.mem.read x)

/-- 40_control.md section 2: a configuration write while idle stores the implemented bits and drops the others; no other
register and no memory changes. -/
def Obligations.ConfigWritesKeepImplementedBits : Prop :=
  ∀ (s : State) (v : Word), s.phase = .idle →
    busWrite 0x010 v s = ({ s with arg0 := v }, false) ∧
    (∃ q, busWrite 0x018 v s = ({ s with qcfg := q }, false) ∧
      (busRead 0x018 { s with qcfg := q }).1 = v &&& 0x0000033F) ∧
    (∃ b, busWrite 0x01C v s = ({ s with bcfg := b }, false) ∧
      (busRead 0x01C { s with bcfg := b }).1 = v &&& 0x1FFFFFFF) ∧
    (∃ x, busWrite 0x034 v s = ({ s with rsSrc := x }, false) ∧ x.toNat = v.toNat % 2 ^ 12) ∧
    (∃ x, busWrite 0x038 v s = ({ s with rsLen := x }, false) ∧ x.toNat = v.toNat % 2 ^ 13) ∧
    (∃ x, busWrite 0x03C v s = ({ s with rsDst := x }, false) ∧ x.toNat = v.toNat % 2 ^ 12)

/-- 40_control.md section 1: acceptance writes CMD, LASTOP, DONE and BUSY and nothing else, for every word; the command then
has LAT >= 1 edges to run. (`fresh` is the model's own counter, log entry 4.) -/
def Obligations.AcceptanceWrites : Prop :=
  ∀ (s : State) (w : Word), s.phase = .idle →
    1 ≤ s.latency w ∧
    busWrite 0x00C w s =
      ({ s with
          cmd := w
          status := { done := false, err := s.status.err, errcode := s.status.errcode, lastop := w.extractLsb' 0 8 }
          phase := .busy (s.latency w)
          fresh := s.fresh + 1 }, false)

/-- 60_exceptions.md R194: a CMD write while BUSY = 1. -/
def Obligations.BusyOverrunDropsTheWord : Prop :=
  ∀ (s : State) (w : Word), s.busy = true →
    busWrite 0x00C w s = ({ s with status := { s.status with err := true, errcode := .busyOverrun } }, true) ∧
    ∃ t u, runAccepted s = .next t ∧ runAccepted (busWrite 0x00C w s).1 = .next u ∧
      u = { t with status := { t.status with err := true, errcode := u.status.errcode } } ∧
      (∀ i, decode s.cmd = .ok i → s.check i = none → u.status.errcode = .busyOverrun) ∧
      (∀ i e, decode s.cmd = .ok i → s.check i = some e → u.status.errcode = e) ∧
      (∀ x, decode s.cmd = .error x → u.status.errcode = .illegalCmd)

/-- 10_state.md section 4: a host write to STATUS, whether or not a command runs; and at a completion edge, where what the
completion sets stays set. That ERRCODE then stays with ERR is the model's inference (log entry 6); left = 0 is its choice (log entry 16). -/
def Obligations.StatusWriteClearsFlags : Prop :=
  (∀ (s : State) (v : Word),
    busWrite 0x008 v s =
      ({ s with
          status :=
            { done := if v.getLsbD 1 then false else s.status.done
              err := if v.getLsbD 2 then false else s.status.err
              errcode := if v.getLsbD 2 then .none else s.status.errcode
              lastop := s.status.lastop } }, false)) ∧
  (∀ (s : State) (left : Nat) (v : Word) (rest : List HostEdge),
    s.phase = .busy left → left ≤ 1 → s.host = .write 0x008 v :: rest →
    ∃ t, step s = .next t ∧ t.status.done = true ∧
      (∀ x, decode s.cmd = .error x → t.status.err = true ∧ t.status.errcode = .illegalCmd) ∧
      (∀ i e, decode s.cmd = .ok i → s.check i = some e → t.status.err = true ∧ t.status.errcode = e) ∧
      (∀ i, decode s.cmd = .ok i → s.check i = none →
        t.status.err = (if v.getLsbD 2 then false else s.status.err) ∧
        t.status.errcode = (if v.getLsbD 2 then .none else s.status.errcode)))

/-- 60_exceptions.md R196: the IRQ level, through the bits that STATUS and CTRL read as; 0 after either reset. -/
def Obligations.IrqIsFlagAndEnable : Prop :=
  (∀ s : State, s.irq =
    (((busRead 0x008 s).1.getLsbD 1 && (busRead 0x004 s).1.getLsbD 1) ||
     ((busRead 0x008 s).1.getLsbD 2 && (busRead 0x004 s).1.getLsbD 2))) ∧
  (∀ (s : State) (v : Word), v.getLsbD 0 = true → (busWrite 0x004 v s).1.irq = false) ∧
  (∀ s : State, (transfer .resetLow s).irq = false) ∧ State.reset.irq = false

/-! ## Reset -/

/-- 70_reset_and_hazards.md R211: the soft reset, whether or not a command runs, and a CTRL write that is none. The memories
are Obligations.ResetKeepsMemory's; `host`, `resp` and `fresh` are the model's own fields. -/
def Obligations.SoftResetRestoresRegisters : Prop :=
  ∀ (s : State) (v : Word),
    (v.getLsbD 0 = true → ∃ t, busWrite 0x004 v s = (t, false) ∧
      t = { State.reset with mem := t.mem, host := s.host, resp := s.resp, fresh := t.fresh }) ∧
    (v.getLsbD 0 = false →
      busWrite 0x004 v s = ({ s with ctrl := { ieDone := v.getLsbD 1, ieErr := v.getLsbD 2 } }, false))

/-- 70_reset_and_hazards.md section 1: an edge with PRESETn = 0 leaves the reset state and answers a transfer with PRDATA = 0
and PSLVERR = 0; the first edge with PRESETn = 1 leaves the block in the reset state, idle, whatever the host presents; and in
the reset state every register but ID reads 0, and IRQ is 0. That no PRDATA and no PSLVERR is shown at that first edge is the
model's choice (log entry 10). -/
def Obligations.HardResetLeavesTheResetState : Prop :=
  (∀ (s : State) (rest : List HostEdge), s.host = .resetLow :: rest →
    ∃ t, step s = .next t ∧ t = { State.reset with mem := t.mem, host := rest, resp := .inReset, fresh := t.fresh } ∧
      t.irq = false ∧ t.prdata = some 0 ∧ t.pslverr = some false) ∧
  (∀ (s : State) (e : HostEdge) (rest : List HostEdge), s.host = .resetLow :: e :: rest → e ≠ .resetLow →
    ∃ t, Host.Core.run Sys2Proof.core 2 s = .next t ∧
      t = { State.reset with mem := t.mem, host := rest, resp := .noTransfer, fresh := t.fresh }) ∧
  (∀ a : BitVec 16, RegisterAddr a → (busRead a State.reset).1 = if wordAddr a = 0 then 0x51524543 else 0)

/-- 70_reset_and_hazards.md section 1: either reset keeps every memory byte when no command runs, and otherwise every byte
outside the running command's write footprint. That a command which would fail has no footprint is the model's inference
(log entry 3). -/
def Obligations.ResetKeepsMemory : Prop :=
  ∀ (s : State) (v : Word), v.getLsbD 0 = true → ∀ t, (t = (busWrite 0x004 v s).1 ∨ t = transfer .resetLow s) →
    (s.phase = .idle → t.mem = s.mem) ∧
    (∀ a, a < s.footprint.1 ∨ s.footprint.1 + s.footprint.2 ≤ a → t.mem.read a = s.mem.read a)

/-- 20_memory.md section 4: a command writes no byte of memory outside its write footprint. -/
def Obligations.FootprintCoversTheWrites : Prop :=
  ∀ (s : State) (i : Instr), decode s.cmd = .ok i →
    ∃ t, exec i s = .next t ∧
      ∀ a, a < s.footprint.1 ∨ s.footprint.1 + s.footprint.2 ≤ a → t.mem.read a = s.mem.read a

/-! ## Invariants -/

/-- The invariants below hold at reset. -/
def Obligations.ResetMeetsTheInvariants : Prop :=
  Inv State.reset ∧ Bounded State.reset ∧ Memory.wf State.reset.mem = true

/-- 10_state.md sections 4 to 7: LASTOP follows CMD, ERR follows ERRCODE, DONE is 0 while busy, a reset edge leaves idle, PK_BITLEN and DIV_DEG stay in
range, DIVRAM holds the divisor of degree DIV_DEG, PENT is the sum, and MSEL is 0 until a commit: every step keeps it. -/
def Obligations.StepKeepsTheInvariant : Prop :=
  ∀ s t : State, Inv s → step s = .next t → Inv t

/-- Every step keeps the memory's canonical form: written addresses rising and all of them stored (20_memory.md sections 1
and 2; the form is the model's, log entry 1). -/
def Obligations.StepKeepsTheMemoryForm : Prop :=
  ∀ s t : State, s.mem.wf = true → step s = .next t → t.mem.wf = true

/-- 10_state.md sections 4 and 6: every step keeps RESULT and the penalty registers in the ranges given there. -/
def Obligations.StepKeepsTheBounds : Prop :=
  ∀ s t : State, Bounded s → step s = .next t → Bounded t

/-! ## All commands -/

/-- 60_exceptions.md R193, 40_control.md R112: a failed command, one that decodes and one that does not, writes nothing but
the error report. -/
def Obligations.FailedCommandWritesOnlyStatus : Prop :=
  (∀ (s : State) (i : Instr) (e : ErrCode), s.check i = some e → exec i s = .next (afterFailure s e)) ∧
  (∀ (s : State) (x : Reject), decode s.cmd = .error x → runAccepted s = .next (afterFailure s .illegalCmd))

/-- 10_state.md sections 4 to 6, 20_memory.md section 4: which commands may write which register or memory. -/
def Obligations.OnlyNamedCommandsWriteARegister : Prop :=
  ∀ (s : State) (i : Instr), ∃ t, exec i s = .next t ∧
    t = { t with
          ctrl := s.ctrl, cmd := s.cmd, arg0 := s.arg0, qcfg := s.qcfg, bcfg := s.bcfg, rsSrc := s.rsSrc,
          rsLen := s.rsLen, rsDst := s.rsDst, phase := .idle, host := s.host, resp := s.resp, fresh := s.fresh } ∧
    t.status.lastop = s.status.lastop ∧
    (t.divram ≠ s.divram ∨ t.divDeg ≠ s.divDeg → (∃ deg, i = .rsDiv deg) ∨ i = .rsEnc) ∧
    (t.pkBitlen ≠ s.pkBitlen → i = .pkClr ∨ (∃ n, i = .pkApp n) ∨ i = .pkFin) ∧
    (t.msel ≠ s.msel → (∃ m, i = .mkApply m) ∨ i = .mkSel) ∧
    (t.pen ≠ s.pen → (∃ m, i = .mkScore m) ∨ i = .mkSel) ∧
    (t.result ≠ s.result →
      i = .gfMul ∨ i = .pkFin ∨ i = .ilRun ∨ (∃ m, i = .mkFmt m) ∨ (∃ m, i = .mkScore m) ∨ (∃ m, i = .mkApply m) ∨
        i = .mkSel) ∧
    ((∃ a, a < 0x2000 ∧ t.mem.read a ≠ s.mem.read a) → (∃ n, i = .pkApp n) ∨ i = .pkFin) ∧
    ((∃ a, 0x2000 ≤ a ∧ a < 0x3000 ∧ t.mem.read a ≠ s.mem.read a) → i = .rsRem ∨ i = .rsEnc) ∧
    ((∃ a, 0x3000 ≤ a ∧ a < 0x4000 ∧ t.mem.read a ≠ s.mem.read a) → i = .ilRun) ∧
    (∀ a, 0x4000 ≤ a → a < 0x8000 → t.mem.read a = s.mem.read a) ∧
    ((∃ a, 0x8000 ≤ a ∧ t.mem.read a ≠ s.mem.read a) → (∃ m, i = .mkApply m) ∨ i = .mkSel)

/-- 20_memory.md section 4: "No command reads OMEM or FINAL": two states that differ only there end with the same registers,
and each byte of memory, in OMEM and FINAL too, ends the same in both or is one that neither run changed. -/
def Obligations.NoCommandReadsOmemOrFinal : Prop :=
  ∀ (s : State) (m : Memory) (i : Instr),
    (∀ a, ¬ (0x3000 ≤ a ∧ a < 0x4000) → ¬ (0x8000 ≤ a ∧ a < 0xA000) → m.read a = s.mem.read a) →
    ∃ t u, exec i s = .next t ∧ exec i { s with mem := m } = .next u ∧ u = { t with mem := u.mem } ∧
      (∀ a, ¬ (0x3000 ≤ a ∧ a < 0x4000) → ¬ (0x8000 ≤ a ∧ a < 0xA000) → u.mem.read a = t.mem.read a) ∧
      ∀ a, u.mem.read a = t.mem.read a ∨ (u.mem.read a = m.read a ∧ t.mem.read a = s.mem.read a)

/-! ## NOP, Galois field and Reed–Solomon -/

/-- 40_control.md R114: NOP only completes; a word with OP 0 and any other bit set fails ILLEGAL_CMD. -/
def Obligations.NopOnlyCompletes : Prop :=
  (∀ w : Word, decode w = .ok .nop ↔ w = 0x00000000) ∧
  (∀ s : State, s.cmd.extractLsb' 0 8 = 0 → s.cmd ≠ 0 → runAccepted s = .next (afterFailure s .illegalCmd)) ∧
  ∀ s : State, exec .nop s = .next (afterSuccess s)

/-- 41_gf_rs.md R120: ⊗ is polynomial multiplication over GF(2) reduced modulo 0x11D: the unreduced product differs from it
by a multiple of 0x11D. -/
def Obligations.GfMulIsThePolynomialProduct : Prop :=
  ∀ a b : Byte, ∃ q, q < 2 ^ 8 ∧ polyMul a.toNat b.toNat = polyMul q 0x11D ^^^ (gfMul a b).toNat

/-- 41_gf_rs.md section 4: (bytes, ⊕, ⊗) is a field, and α = 0x02 has order 255. -/
def Obligations.GfIsAField : Prop :=
  (∀ a b : Byte, gfMul a b = gfMul b a) ∧
  (∀ a b c : Byte, gfMul (gfMul a b) c = gfMul a (gfMul b c)) ∧
  (∀ a b c : Byte, gfMul a (b ^^^ c) = gfMul a b ^^^ gfMul a c) ∧
  (∀ a : Byte, gfMul a 1 = a) ∧
  (∀ a : Byte, a ≠ 0 → ∃ b, gfMul a b = 1) ∧
  gfAlphaPow 255 = 1 ∧ ∀ k, 0 < k → k < 255 → gfAlphaPow k ≠ 1

/-- 41_gf_rs.md R125: GF.MUL, with its corner cases. -/
def Obligations.GfMulWritesTheProduct : Prop :=
  decode 0x00000001 = .ok .gfMul ∧
  (∀ s : State, exec .gfMul s =
    .next (afterSuccess
      { s with result := (gfMul (s.arg0.extractLsb' 0 8) (s.arg0.extractLsb' 8 8)).zeroExtend 32 })) ∧
  (∀ a : Byte, gfMul a 0 = 0 ∧ gfMul 0 a = 0 ∧ gfMul a 1 = a ∧ gfMul 1 a = a) ∧
  (∀ a b : Byte, gfMul a b = gfMul b a) ∧
  gfMul 0x02 0x80 = 0x1D ∧ gfMul 0x80 0x02 = 0x1D ∧ gfMul 0xFF 0xFF = 0xE2 ∧ gfMul 0x01 0x53 = 0x53

/-- 41_gf_rs.md R123: for 1 <= n <= 30 the divisor has n bytes, and with its leading 1 it is the product of (x - α^i), at
every x of the field. -/
def Obligations.DivisorIsTheGeneratorPolynomial : Prop :=
  ∀ n, 1 ≤ n → n ≤ 30 → (rsDivisor n).length = n ∧ ∀ x : Byte, evalPoly (1 :: rsDivisor n) x = rootProduct n x

/-- 41_gf_rs.md section 4, items 4 and 5: the remainder is linear in the data, and leading zero bytes do not change it. -/
def Obligations.RemainderIsLinear : Prop :=
  (∀ u v d : List Byte, u.length = v.length →
    rsRemainder (List.zipWith (· ^^^ ·) u v) d = List.zipWith (· ^^^ ·) (rsRemainder u d) (rsRemainder v d)) ∧
  (∀ u d : List Byte, rsRemainder (0 :: u) d = rsRemainder u d)

/-- 41_gf_rs.md section 4, item 6: data followed by its EC codewords is a codeword: it vanishes at α^0 .. α^(n-1), and its own
remainder is 0. -/
def Obligations.CodewordVanishesAtTheRoots : Prop :=
  ∀ (data : List Byte) (n : Nat), 1 ≤ n → n ≤ 30 →
    (∀ i < n, evalPoly (data ++ rsRemainder data (rsDivisor n)) (gfAlphaPow i) = 0) ∧
    rsRemainder (data ++ rsRemainder data (rsDivisor n)) (rsDivisor n) = List.replicate n 0

/-- 41_gf_rs.md R126: RS.DIV for a legal degree, and BAD_DEGREE for every other that a word carries. -/
def Obligations.RsDivLoadsTheDivisor : Prop :=
  (∀ deg < 256, decode (0x02 ||| BitVec.ofNat 32 deg <<< 8) = .ok (.rsDiv deg)) ∧
  ∀ (s : State) (deg : Nat),
    (1 ≤ deg → deg ≤ 30 → ∃ t, exec (.rsDiv deg) s = .next t ∧
      t = afterSuccess { s with divram := t.divram, divDeg := t.divDeg } ∧ t.divDeg.toNat = deg ∧
      ∀ j : Fin 32, t.divram[j] = if j.val < deg then (rsDivisor deg).getD j.val 0 else 0) ∧
    (deg < 1 ∨ (30 < deg ∧ deg < 256) → exec (.rsDiv deg) s = .next (afterFailure s .badDegree))

/-- 41_gf_rs.md R127: RS.REM, its effect, its two checks in order, and every byte it leaves alone. -/
def Obligations.RsRemWritesTheRemainder : Prop :=
  decode 0x00000003 = .ok .rsRem ∧
  ∀ s : State,
    (s.divDeg.toNat < 1 ∨ 30 < s.divDeg.toNat → exec .rsRem s = .next (afterFailure s .badDegree)) ∧
    (1 ≤ s.divDeg.toNat → s.divDeg.toNat ≤ 30 →
      4096 < s.rsSrc.toNat + s.rsLen.toNat ∨ 4096 < s.rsDst.toNat + s.divDeg.toNat →
      exec .rsRem s = .next (afterFailure s .badRange)) ∧
    (1 ≤ s.divDeg.toNat → s.divDeg.toNat ≤ 30 → s.rsSrc.toNat + s.rsLen.toNat ≤ 4096 →
      s.rsDst.toNat + s.divDeg.toNat ≤ 4096 →
      ∃ t, exec .rsRem s = .next t ∧ t = afterSuccess { s with mem := t.mem } ∧
        (∀ j < s.divDeg.toNat, t.mem.emem (s.rsDst.toNat + j) =
          (rsRemainder (dmemBytes s.mem s.rsSrc.toNat s.rsLen.toNat)
            (s.divram.toList.take s.divDeg.toNat)).getD j 0) ∧
        (∀ a, a < 0x2000 + s.rsDst.toNat ∨ 0x2000 + s.rsDst.toNat + s.divDeg.toNat ≤ a →
          t.mem.read a = s.mem.read a))

/-- 41_gf_rs.md R128: RS.ENC writes the EC codewords of every block and leaves the divisor of degree ECB; BAD_BLOCK_CFG when
BCFG is not valid. -/
def Obligations.RsEncWritesEveryBlock : Prop :=
  decode 0x00000004 = .ok .rsEnc ∧
  ∀ s : State,
    (s.bcfg.valid = false → exec .rsEnc s = .next (afterFailure s .badBlockCfg)) ∧
    (s.bcfg.valid = true → ∃ t, exec .rsEnc s = .next t ∧
      t = afterSuccess { s with mem := t.mem, divram := t.divram, divDeg := s.bcfg.ecb } ∧
      (∀ j : Fin 32, t.divram[j] =
        if j.val < s.bcfg.ecb.toNat then (rsDivisor s.bcfg.ecb.toNat).getD j.val 0 else 0) ∧
      (∀ b < s.bcfg.nb, ∀ j < s.bcfg.ecb.toNat, t.mem.emem (s.bcfg.eoff b + j) =
        (rsRemainder (dmemBytes s.mem (s.bcfg.doff b) (s.bcfg.len b)) (rsDivisor s.bcfg.ecb.toNat)).getD j 0) ∧
      (∀ a, a < 0x2000 ∨ 0x2000 + s.bcfg.ecCw ≤ a → t.mem.read a = s.mem.read a))

/-! ## Packer and interleaver -/

/-- 42_packer.md R142: PK.CLR. -/
def Obligations.PkClrEmptiesTheStream : Prop :=
  decode 0x00000010 = .ok .pkClr ∧ ∀ s : State, exec .pkClr s = .next (afterSuccess { s with pkBitlen := 0 })

/-- 42_packer.md R143: PK.APP n appends ARG0[n-1], ..., ARG0[0] to the stream, its checks in order; the bits before stay, the
bits of the last byte below the stream's end are 0, and no byte without an appended bit changes. -/
def Obligations.PkAppAppendsTheField : Prop :=
  (∀ n < 256, decode (0x11 ||| BitVec.ofNat 32 n <<< 8) = .ok (.pkApp n)) ∧
  ∀ (s : State) (n : Nat),
    (32 < n → n < 256 → exec (.pkApp n) s = .next (afterFailure s .badNbits)) ∧
    (n ≤ 32 → 32768 < s.pkBitlen.toNat + n → exec (.pkApp n) s = .next (afterFailure s .packOverflow)) ∧
    (n ≤ 32 → s.pkBitlen.toNat + n ≤ 32768 → ∃ t, exec (.pkApp n) s = .next t ∧
      t = afterSuccess { s with mem := t.mem, pkBitlen := t.pkBitlen } ∧ t.pkBitlen.toNat = s.pkBitlen.toNat + n ∧
      (∀ k < n, streamBit t.mem (s.pkBitlen.toNat + k) = s.arg0.getLsbD (n - 1 - k)) ∧
      (∀ k < s.pkBitlen.toNat, streamBit t.mem k = streamBit s.mem k) ∧
      (0 < n → ∀ k, s.pkBitlen.toNat + n ≤ k → k / 8 = (s.pkBitlen.toNat + n - 1) / 8 → streamBit t.mem k = false) ∧
      (n = 0 → t.mem = s.mem) ∧
      (∀ a, a < 0x1000 + s.pkBitlen.toNat / 8 ∨ 0x1000 + (s.pkBitlen.toNat + n + 7) / 8 ≤ a →
        t.mem.read a = s.mem.read a))

/-- 42_packer.md R144: PK.FIN: up to four terminator bits and the rest of that byte 0, then pad codewords 0xEC, 0x11 up to
DATA_CW; RESULT their number; its checks in order. `z` is the first byte after the terminator and byte padding. -/
def Obligations.PkFinPadsToCapacity : Prop :=
  decode 0x00000012 = .ok .pkFin ∧
  ∀ s : State,
    (s.bcfg.valid = false → exec .pkFin s = .next (afterFailure s .badBlockCfg)) ∧
    (s.bcfg.valid = true → 8 * s.bcfg.dataCw < s.pkBitlen.toNat →
      exec .pkFin s = .next (afterFailure s .dataTooLong)) ∧
    (s.bcfg.valid = true → s.pkBitlen.toNat ≤ 8 * s.bcfg.dataCw →
      ∀ z, z = (s.pkBitlen.toNat + min 4 (8 * s.bcfg.dataCw - s.pkBitlen.toNat) + 7) / 8 →
      ∃ t, exec .pkFin s = .next t ∧
        t = afterSuccess { s with mem := t.mem, pkBitlen := t.pkBitlen, result := t.result } ∧
        t.pkBitlen.toNat = 8 * s.bcfg.dataCw ∧ t.result.toNat = s.bcfg.dataCw - z ∧
        (∀ k < s.pkBitlen.toNat, streamBit t.mem k = streamBit s.mem k) ∧
        (∀ k, s.pkBitlen.toNat ≤ k → k < 8 * z → streamBit t.mem k = false) ∧
        (∀ p, z + p < s.bcfg.dataCw → t.mem.dmem (z + p) = if p % 2 = 0 then 0xEC else 0x11) ∧
        (∀ a, a < 0x1000 + s.pkBitlen.toNat / 8 ∨ 0x1000 + s.bcfg.dataCw ≤ a → t.mem.read a = s.mem.read a))

/-- 43_interleaver.md R150: IL.RUN writes the codewords in the order of its loops and RESULT their number. -/
def Obligations.IlRunWritesTheSequence : Prop :=
  decode 0x00000020 = .ok .ilRun ∧
  ∀ s : State,
    (s.bcfg.valid = false → exec .ilRun s = .next (afterFailure s .badBlockCfg)) ∧
    (s.bcfg.valid = true → ∃ t, exec .ilRun s = .next t ∧
      t = afterSuccess { s with mem := t.mem, result := t.result } ∧ t.result.toNat = s.bcfg.totalCw ∧
      (interleaveLoops s).length = s.bcfg.totalCw ∧
      (∀ o < s.bcfg.totalCw, t.mem.omem o = (interleaveLoops s).getD o 0) ∧
      (∀ a, a < 0x3000 ∨ 0x3000 + s.bcfg.totalCw ≤ a → t.mem.read a = s.mem.read a))

/-- 43_interleaver.md R151 items 3 and 4 (derived there): where each codeword lands. -/
def Obligations.IlRunPlacesEachCodeword : Prop :=
  ∀ s : State, s.bcfg.valid = true → ∃ t, exec .ilRun s = .next t ∧
    (∀ b < s.bcfg.nb, ∀ i < s.bcfg.d1.toNat,
      t.mem.omem (i * s.bcfg.nb + b) = s.mem.dmem (s.bcfg.doff b + i)) ∧
    (∀ b, s.bcfg.nb1.toNat ≤ b → b < s.bcfg.nb →
      t.mem.omem (s.bcfg.d1.toNat * s.bcfg.nb + (b - s.bcfg.nb1.toNat)) =
        s.mem.dmem (s.bcfg.doff b + s.bcfg.d1.toNat)) ∧
    (∀ b < s.bcfg.nb, ∀ i < s.bcfg.ecb.toNat,
      t.mem.omem (s.bcfg.dataCw + i * s.bcfg.nb + b) = s.mem.emem (s.bcfg.eoff b + i))

/-! ## Mask evaluator -/

/-- 44_mask.md R170: MK.FMT, with any VER. R161's word: unmasked, the ECL code and the mask above ten check bits, a multiple of
the generator polynomial. -/
def Obligations.MkFmtWritesTheFormatWord : Prop :=
  (∀ m : Fin 8, decode (0x30 ||| BitVec.ofNat 32 m.val <<< 8) = .ok (.mkFmt m)) ∧
  ∀ (s : State) (m : Fin 8), ∃ t, exec (.mkFmt m) s = .next t ∧ t = afterSuccess { s with result := t.result } ∧
    t.result.toNat = fmtWord (eclCode s.qcfg.ecl) m.val ∧ t.result.toNat < 2 ^ 15 ∧
    (t.result.toNat ^^^ 0x5412) / 2 ^ 10 = 8 * [1, 0, 3, 2].getD s.qcfg.ecl.toNat 0 + m.val ∧
    ∃ q, q < 2 ^ 5 ∧ t.result.toNat ^^^ 0x5412 = polyMul 0x537 q

/-- 44_mask.md R160, R162 and R163: every cell of the scratch matrix of a valid version. -/
def Obligations.ScratchMatrixCells : Prop :=
  ∀ (s : State) (m : Fin 8) (n w : Nat), s.qcfg.valid = true → n = s.qcfg.side →
    w = fmtWord (eclCode s.qcfg.ecl) m.val →
    (∀ i ≤ 5, (s.scratch m).at i 8 = w.testBit i ∧ (s.scratch m).at 8 (n - 1 - i) = w.testBit i) ∧
    ((s.scratch m).at 7 8 = w.testBit 6 ∧ (s.scratch m).at 8 (n - 7) = w.testBit 6) ∧
    ((s.scratch m).at 8 8 = w.testBit 7 ∧ (s.scratch m).at 8 (n - 8) = w.testBit 7) ∧
    ((s.scratch m).at 8 7 = w.testBit 8 ∧ (s.scratch m).at (n - 7) 8 = w.testBit 8) ∧
    (∀ i, 9 ≤ i → i ≤ 14 → (s.scratch m).at 8 (14 - i) = w.testBit i ∧ (s.scratch m).at (n - 15 + i) 8 = w.testBit i) ∧
    (s.scratch m).at (n - 8) 8 = true ∧
    (∀ r < n, ∀ c < n, ¬ FormatCell n r c → ∃ b : Bool, (b = true ↔ Inverted m.val r c) ∧
      (s.scratch m).at r c = (s.mem.modCell r c ^^ (!s.mem.funcCell r c && b))) ∧
    IsSquare n (s.scratch m)

/-- 44_mask.md R165: rule 1 is the loop over the rows and the columns. -/
def Obligations.RuleOneCountsRuns : Prop :=
  ∀ (n : Nat) (M : Matrix), IsSquare n M → rule1 n M = ((linesOf n M).map runLoop).sum

/-- 44_mask.md R166: rule 2 is 3 for every 2 × 2 window of four equal cells. -/
def Obligations.RuleTwoCountsWindows : Prop :=
  ∀ (n : Nat) (M : Matrix), IsSquare n M →
    rule2 M = ((List.range (n - 1)).flatMap fun r => (List.range (n - 1)).map fun c =>
      if M.at r c = M.at r (c + 1) ∧ M.at r (c + 1) = M.at (r + 1) c ∧ M.at (r + 1) c = M.at (r + 1) (c + 1)
      then 3 else 0).sum

/-- 44_mask.md R167: rule 3 is 40 for every occurrence in every row and column. -/
def Obligations.RuleThreeCountsFinders : Prop :=
  ∀ (n : Nat) (M : Matrix), 7 ≤ n → IsSquare n M →
    rule3 n M = 40 * ((linesOf n M).map fun v => ((List.range (n - 6)).map (finderOccurrences v)).sum).sum

/-- 44_mask.md R168: rule 4 is 10 * floor(10 * |2*dark - total| / total), a multiple of 10 in 0..100. -/
def Obligations.RuleFourMeasuresBalance : Prop :=
  ∀ (n : Nat) (M : Matrix), 1 ≤ n → IsSquare n M → ∀ dark,
    dark = ((List.range n).map fun r => ((List.range n).filter fun c => M.at r c).length).sum →
    (rule4 n M : Int) = 10 * (10 * |2 * (dark : Int) - (n * n : Int)| / (n * n : Int)) ∧
    rule4 n M % 10 = 0 ∧ rule4 n M ≤ 100

/-- 44_mask.md R171: MK.SCORE m writes PEN[m], PENT[m] and RESULT and nothing else; BAD_QCFG when QCFG is not valid. -/
def Obligations.MkScoreWritesThePenalties : Prop :=
  (∀ m : Fin 8, decode (0x31 ||| BitVec.ofNat 32 m.val <<< 8) = .ok (.mkScore m)) ∧
  ∀ (s : State) (m : Fin 8),
    (s.qcfg.valid = false → exec (.mkScore m) s = .next (afterFailure s .badQcfg)) ∧
    (s.qcfg.valid = true → ∀ S n, S = s.scratch m → n = s.qcfg.side →
      ∃ t, exec (.mkScore m) s = .next t ∧ t = afterSuccess { s with pen := t.pen, result := t.result } ∧
        t.pen[m].p1.toNat = rule1 n S ∧ t.pen[m].p2.toNat = rule2 S ∧ t.pen[m].p3.toNat = rule3 n S ∧
        t.pen[m].p4.toNat = rule4 n S ∧
        t.pen[m].total.toNat = rule1 n S + rule2 S + rule3 n S + rule4 n S ∧
        t.result = t.pen[m].total ∧ ∀ k : Fin 8, k ≠ m → t.pen[k] = s.pen[k])

/-- 44_mask.md R172 and R175: MK.APPLY m commits the scratch matrix to FINAL, 0 outside it, and records the forced mask. -/
def Obligations.MkApplyCommitsTheMask : Prop :=
  (∀ m : Fin 8, decode (0x32 ||| BitVec.ofNat 32 m.val <<< 8) = .ok (.mkApply m)) ∧
  ∀ (s : State) (m : Fin 8),
    (s.qcfg.valid = false → exec (.mkApply m) s = .next (afterFailure s .badQcfg)) ∧
    (s.qcfg.valid = true → ∃ t, exec (.mkApply m) s = .next t ∧
      t = afterSuccess
        { s with mem := t.mem, msel := { mask := m, valid := true, auto := false }, result := t.result } ∧
      t.result.toNat = m.val ∧
      (∀ r < 177, ∀ c < 256, t.mem.finalCell r c =
        if r < s.qcfg.side ∧ c < s.qcfg.side then (s.scratch m).at r c else false) ∧
      (∀ a, a < 0x8000 ∨ 0x8000 + 177 * 32 ≤ a → t.mem.read a = s.mem.read a))

/-- 44_mask.md R173: MK.SEL scores all eight masks and commits the least total, ties to the lowest index. -/
def Obligations.MkSelCommitsTheLeastMask : Prop :=
  decode 0x00000033 = .ok .mkSel ∧
  ∀ s : State,
    (s.qcfg.valid = false → exec .mkSel s = .next (afterFailure s .badQcfg)) ∧
    (s.qcfg.valid = true → ∃ t, ∃ best : Fin 8, exec .mkSel s = .next t ∧
      t = afterSuccess
        { s with
          mem := t.mem, pen := t.pen, msel := { mask := best, valid := true, auto := true }, result := t.result } ∧
      t.result.toNat = best.val ∧
      (∀ m : Fin 8,
        t.pen[m].p1.toNat = rule1 s.qcfg.side (s.scratch m) ∧ t.pen[m].p2.toNat = rule2 (s.scratch m) ∧
        t.pen[m].p3.toNat = rule3 s.qcfg.side (s.scratch m) ∧ t.pen[m].p4.toNat = rule4 s.qcfg.side (s.scratch m) ∧
        t.pen[m].total.toNat = t.pen[m].p1.toNat + t.pen[m].p2.toNat + t.pen[m].p3.toNat + t.pen[m].p4.toNat) ∧
      (∀ m : Fin 8, t.pen[best].total.toNat ≤ t.pen[m].total.toNat) ∧
      (∀ m : Fin 8, m < best → t.pen[best].total.toNat < t.pen[m].total.toNat) ∧
      (∀ r < 177, ∀ c < 256, t.mem.finalCell r c =
        if r < s.qcfg.side ∧ c < s.qcfg.side then (s.scratch best).at r c else false) ∧
      (∀ a, a < 0x8000 ∨ 0x8000 + 177 * 32 ≤ a → t.mem.read a = s.mem.read a))

/-- 44_mask.md section 4: a candidate's scores depend only on MOD and FUNC cells with r, c < side, QCFG and m. -/
def Obligations.ScoresDependOnlyOnTheSymbol : Prop :=
  ∀ (s u : State) (m : Fin 8), s.qcfg = u.qcfg →
    (∀ r < s.qcfg.side, ∀ c < s.qcfg.side,
      s.mem.modCell r c = u.mem.modCell r c ∧ s.mem.funcCell r c = u.mem.funcCell r c) →
    s.scratch m = u.scratch m ∧ s.scores m = u.scores m

/-- 10_state.md section 6: the scores of a valid version stay within the bounds given for the penalty registers. -/
def Obligations.ScoresAreBounded : Prop :=
  ∀ (s : State) (m : Fin 8), s.qcfg.valid = true →
    (s.scores m).p1 ≤ 354 * 175 ∧ (s.scores m).p2 ≤ 176 * 176 * 3 ∧ (s.scores m).p3 ≤ 40 * 2 * 354 * 171 ∧
    (s.scores m).p4 ≤ 100 ∧ s.penalty m < 2 ^ 23
end

