-- ==== Sys2Proof/Laws/State.lean ====
section
/-! SUPPORT. One lemma per field per update of State: what each shared update leaves in each field. -/

namespace Sys2Proof.Machine

section Updates
variable (s : State)

@[simp] theorem State.complete_ctrl : s.complete.ctrl = s.ctrl := rfl
@[simp] theorem State.complete_status : s.complete.status = s.status.completed := rfl
@[simp] theorem State.complete_cmd : s.complete.cmd = s.cmd := rfl
@[simp] theorem State.complete_arg0 : s.complete.arg0 = s.arg0 := rfl
@[simp] theorem State.complete_result : s.complete.result = s.result := rfl
@[simp] theorem State.complete_qcfg : s.complete.qcfg = s.qcfg := rfl
@[simp] theorem State.complete_bcfg : s.complete.bcfg = s.bcfg := rfl
@[simp] theorem State.complete_pkBitlen : s.complete.pkBitlen = s.pkBitlen := rfl
@[simp] theorem State.complete_rsSrc : s.complete.rsSrc = s.rsSrc := rfl
@[simp] theorem State.complete_rsLen : s.complete.rsLen = s.rsLen := rfl
@[simp] theorem State.complete_rsDst : s.complete.rsDst = s.rsDst := rfl
@[simp] theorem State.complete_divDeg : s.complete.divDeg = s.divDeg := rfl
@[simp] theorem State.complete_divram : s.complete.divram = s.divram := rfl
@[simp] theorem State.complete_msel : s.complete.msel = s.msel := rfl
@[simp] theorem State.complete_pen : s.complete.pen = s.pen := rfl
@[simp] theorem State.complete_phase : s.complete.phase = .idle := rfl
@[simp] theorem State.complete_mem : s.complete.mem = s.mem := rfl
@[simp] theorem State.complete_host : s.complete.host = s.host := rfl
@[simp] theorem State.complete_resp : s.complete.resp = s.resp := rfl
@[simp] theorem State.complete_fresh : s.complete.fresh = s.fresh := rfl

@[simp] theorem State.fail_ctrl (e : ErrCode) : (s.fail e).ctrl = s.ctrl := rfl
@[simp] theorem State.fail_status (e : ErrCode) : (s.fail e).status = s.status.failed e := rfl
@[simp] theorem State.fail_cmd (e : ErrCode) : (s.fail e).cmd = s.cmd := rfl
@[simp] theorem State.fail_arg0 (e : ErrCode) : (s.fail e).arg0 = s.arg0 := rfl
@[simp] theorem State.fail_result (e : ErrCode) : (s.fail e).result = s.result := rfl
@[simp] theorem State.fail_qcfg (e : ErrCode) : (s.fail e).qcfg = s.qcfg := rfl
@[simp] theorem State.fail_bcfg (e : ErrCode) : (s.fail e).bcfg = s.bcfg := rfl
@[simp] theorem State.fail_pkBitlen (e : ErrCode) : (s.fail e).pkBitlen = s.pkBitlen := rfl
@[simp] theorem State.fail_rsSrc (e : ErrCode) : (s.fail e).rsSrc = s.rsSrc := rfl
@[simp] theorem State.fail_rsLen (e : ErrCode) : (s.fail e).rsLen = s.rsLen := rfl
@[simp] theorem State.fail_rsDst (e : ErrCode) : (s.fail e).rsDst = s.rsDst := rfl
@[simp] theorem State.fail_divDeg (e : ErrCode) : (s.fail e).divDeg = s.divDeg := rfl
@[simp] theorem State.fail_divram (e : ErrCode) : (s.fail e).divram = s.divram := rfl
@[simp] theorem State.fail_msel (e : ErrCode) : (s.fail e).msel = s.msel := rfl
@[simp] theorem State.fail_pen (e : ErrCode) : (s.fail e).pen = s.pen := rfl
@[simp] theorem State.fail_phase (e : ErrCode) : (s.fail e).phase = .idle := rfl
@[simp] theorem State.fail_mem (e : ErrCode) : (s.fail e).mem = s.mem := rfl
@[simp] theorem State.fail_host (e : ErrCode) : (s.fail e).host = s.host := rfl
@[simp] theorem State.fail_resp (e : ErrCode) : (s.fail e).resp = s.resp := rfl
@[simp] theorem State.fail_fresh (e : ErrCode) : (s.fail e).fresh = s.fresh := rfl

@[simp] theorem State.overrun_ctrl : s.overrun.ctrl = s.ctrl := rfl
@[simp] theorem State.overrun_status : s.overrun.status = s.status.overrun := rfl
@[simp] theorem State.overrun_cmd : s.overrun.cmd = s.cmd := rfl
@[simp] theorem State.overrun_arg0 : s.overrun.arg0 = s.arg0 := rfl
@[simp] theorem State.overrun_result : s.overrun.result = s.result := rfl
@[simp] theorem State.overrun_qcfg : s.overrun.qcfg = s.qcfg := rfl
@[simp] theorem State.overrun_bcfg : s.overrun.bcfg = s.bcfg := rfl
@[simp] theorem State.overrun_pkBitlen : s.overrun.pkBitlen = s.pkBitlen := rfl
@[simp] theorem State.overrun_rsSrc : s.overrun.rsSrc = s.rsSrc := rfl
@[simp] theorem State.overrun_rsLen : s.overrun.rsLen = s.rsLen := rfl
@[simp] theorem State.overrun_rsDst : s.overrun.rsDst = s.rsDst := rfl
@[simp] theorem State.overrun_divDeg : s.overrun.divDeg = s.divDeg := rfl
@[simp] theorem State.overrun_divram : s.overrun.divram = s.divram := rfl
@[simp] theorem State.overrun_msel : s.overrun.msel = s.msel := rfl
@[simp] theorem State.overrun_pen : s.overrun.pen = s.pen := rfl
@[simp] theorem State.overrun_phase : s.overrun.phase = s.phase := rfl
@[simp] theorem State.overrun_mem : s.overrun.mem = s.mem := rfl
@[simp] theorem State.overrun_host : s.overrun.host = s.host := rfl
@[simp] theorem State.overrun_resp : s.overrun.resp = s.resp := rfl
@[simp] theorem State.overrun_fresh : s.overrun.fresh = s.fresh := rfl

@[simp] theorem State.clearFlags_ctrl (v : Word) : (s.clearFlags v).ctrl = s.ctrl := rfl
@[simp] theorem State.clearFlags_status (v : Word) : (s.clearFlags v).status = s.status.hostWrite v := rfl
@[simp] theorem State.clearFlags_cmd (v : Word) : (s.clearFlags v).cmd = s.cmd := rfl
@[simp] theorem State.clearFlags_arg0 (v : Word) : (s.clearFlags v).arg0 = s.arg0 := rfl
@[simp] theorem State.clearFlags_result (v : Word) : (s.clearFlags v).result = s.result := rfl
@[simp] theorem State.clearFlags_qcfg (v : Word) : (s.clearFlags v).qcfg = s.qcfg := rfl
@[simp] theorem State.clearFlags_bcfg (v : Word) : (s.clearFlags v).bcfg = s.bcfg := rfl
@[simp] theorem State.clearFlags_pkBitlen (v : Word) : (s.clearFlags v).pkBitlen = s.pkBitlen := rfl
@[simp] theorem State.clearFlags_rsSrc (v : Word) : (s.clearFlags v).rsSrc = s.rsSrc := rfl
@[simp] theorem State.clearFlags_rsLen (v : Word) : (s.clearFlags v).rsLen = s.rsLen := rfl
@[simp] theorem State.clearFlags_rsDst (v : Word) : (s.clearFlags v).rsDst = s.rsDst := rfl
@[simp] theorem State.clearFlags_divDeg (v : Word) : (s.clearFlags v).divDeg = s.divDeg := rfl
@[simp] theorem State.clearFlags_divram (v : Word) : (s.clearFlags v).divram = s.divram := rfl
@[simp] theorem State.clearFlags_msel (v : Word) : (s.clearFlags v).msel = s.msel := rfl
@[simp] theorem State.clearFlags_pen (v : Word) : (s.clearFlags v).pen = s.pen := rfl
@[simp] theorem State.clearFlags_phase (v : Word) : (s.clearFlags v).phase = s.phase := rfl
@[simp] theorem State.clearFlags_mem (v : Word) : (s.clearFlags v).mem = s.mem := rfl
@[simp] theorem State.clearFlags_host (v : Word) : (s.clearFlags v).host = s.host := rfl
@[simp] theorem State.clearFlags_resp (v : Word) : (s.clearFlags v).resp = s.resp := rfl
@[simp] theorem State.clearFlags_fresh (v : Word) : (s.clearFlags v).fresh = s.fresh := rfl

@[simp] theorem State.accept_ctrl (w : Word) : (s.accept w).ctrl = s.ctrl := rfl
@[simp] theorem State.accept_status (w : Word) : (s.accept w).status = s.status.accepted w := rfl
@[simp] theorem State.accept_cmd (w : Word) : (s.accept w).cmd = w := rfl
@[simp] theorem State.accept_arg0 (w : Word) : (s.accept w).arg0 = s.arg0 := rfl
@[simp] theorem State.accept_result (w : Word) : (s.accept w).result = s.result := rfl
@[simp] theorem State.accept_qcfg (w : Word) : (s.accept w).qcfg = s.qcfg := rfl
@[simp] theorem State.accept_bcfg (w : Word) : (s.accept w).bcfg = s.bcfg := rfl
@[simp] theorem State.accept_pkBitlen (w : Word) : (s.accept w).pkBitlen = s.pkBitlen := rfl
@[simp] theorem State.accept_rsSrc (w : Word) : (s.accept w).rsSrc = s.rsSrc := rfl
@[simp] theorem State.accept_rsLen (w : Word) : (s.accept w).rsLen = s.rsLen := rfl
@[simp] theorem State.accept_rsDst (w : Word) : (s.accept w).rsDst = s.rsDst := rfl
@[simp] theorem State.accept_divDeg (w : Word) : (s.accept w).divDeg = s.divDeg := rfl
@[simp] theorem State.accept_divram (w : Word) : (s.accept w).divram = s.divram := rfl
@[simp] theorem State.accept_msel (w : Word) : (s.accept w).msel = s.msel := rfl
@[simp] theorem State.accept_pen (w : Word) : (s.accept w).pen = s.pen := rfl
@[simp] theorem State.accept_phase (w : Word) : (s.accept w).phase = .busy (s.latency w) := rfl
@[simp] theorem State.accept_mem (w : Word) : (s.accept w).mem = s.mem := rfl
@[simp] theorem State.accept_host (w : Word) : (s.accept w).host = s.host := rfl
@[simp] theorem State.accept_resp (w : Word) : (s.accept w).resp = s.resp := rfl
@[simp] theorem State.accept_fresh (w : Word) : (s.accept w).fresh = s.fresh + 1 := rfl

@[simp] theorem State.withStream_ctrl (p : Stream) : (s.withStream p).ctrl = s.ctrl := rfl
@[simp] theorem State.withStream_status (p : Stream) : (s.withStream p).status = s.status := rfl
@[simp] theorem State.withStream_cmd (p : Stream) : (s.withStream p).cmd = s.cmd := rfl
@[simp] theorem State.withStream_arg0 (p : Stream) : (s.withStream p).arg0 = s.arg0 := rfl
@[simp] theorem State.withStream_result (p : Stream) : (s.withStream p).result = s.result := rfl
@[simp] theorem State.withStream_qcfg (p : Stream) : (s.withStream p).qcfg = s.qcfg := rfl
@[simp] theorem State.withStream_bcfg (p : Stream) : (s.withStream p).bcfg = s.bcfg := rfl
@[simp] theorem State.withStream_pkBitlen (p : Stream) : (s.withStream p).pkBitlen = BitVec.ofNat 16 p.len := rfl
@[simp] theorem State.withStream_rsSrc (p : Stream) : (s.withStream p).rsSrc = s.rsSrc := rfl
@[simp] theorem State.withStream_rsLen (p : Stream) : (s.withStream p).rsLen = s.rsLen := rfl
@[simp] theorem State.withStream_rsDst (p : Stream) : (s.withStream p).rsDst = s.rsDst := rfl
@[simp] theorem State.withStream_divDeg (p : Stream) : (s.withStream p).divDeg = s.divDeg := rfl
@[simp] theorem State.withStream_divram (p : Stream) : (s.withStream p).divram = s.divram := rfl
@[simp] theorem State.withStream_msel (p : Stream) : (s.withStream p).msel = s.msel := rfl
@[simp] theorem State.withStream_pen (p : Stream) : (s.withStream p).pen = s.pen := rfl
@[simp] theorem State.withStream_phase (p : Stream) : (s.withStream p).phase = s.phase := rfl
@[simp] theorem State.withStream_mem (p : Stream) : (s.withStream p).mem = p.mem := rfl
@[simp] theorem State.withStream_host (p : Stream) : (s.withStream p).host = s.host := rfl
@[simp] theorem State.withStream_resp (p : Stream) : (s.withStream p).resp = s.resp := rfl
@[simp] theorem State.withStream_fresh (p : Stream) : (s.withStream p).fresh = s.fresh := rfl

@[simp] theorem State.loadDivisor_ctrl (n : Nat) : (s.loadDivisor n).ctrl = s.ctrl := rfl
@[simp] theorem State.loadDivisor_status (n : Nat) : (s.loadDivisor n).status = s.status := rfl
@[simp] theorem State.loadDivisor_cmd (n : Nat) : (s.loadDivisor n).cmd = s.cmd := rfl
@[simp] theorem State.loadDivisor_arg0 (n : Nat) : (s.loadDivisor n).arg0 = s.arg0 := rfl
@[simp] theorem State.loadDivisor_result (n : Nat) : (s.loadDivisor n).result = s.result := rfl
@[simp] theorem State.loadDivisor_qcfg (n : Nat) : (s.loadDivisor n).qcfg = s.qcfg := rfl
@[simp] theorem State.loadDivisor_bcfg (n : Nat) : (s.loadDivisor n).bcfg = s.bcfg := rfl
@[simp] theorem State.loadDivisor_pkBitlen (n : Nat) : (s.loadDivisor n).pkBitlen = s.pkBitlen := rfl
@[simp] theorem State.loadDivisor_rsSrc (n : Nat) : (s.loadDivisor n).rsSrc = s.rsSrc := rfl
@[simp] theorem State.loadDivisor_rsLen (n : Nat) : (s.loadDivisor n).rsLen = s.rsLen := rfl
@[simp] theorem State.loadDivisor_rsDst (n : Nat) : (s.loadDivisor n).rsDst = s.rsDst := rfl
@[simp] theorem State.loadDivisor_divDeg (n : Nat) : (s.loadDivisor n).divDeg = BitVec.ofNat 5 n := rfl
@[simp] theorem State.loadDivisor_divram (n : Nat) : (s.loadDivisor n).divram = divramOf (rsDivisor n) := rfl
@[simp] theorem State.loadDivisor_msel (n : Nat) : (s.loadDivisor n).msel = s.msel := rfl
@[simp] theorem State.loadDivisor_pen (n : Nat) : (s.loadDivisor n).pen = s.pen := rfl
@[simp] theorem State.loadDivisor_phase (n : Nat) : (s.loadDivisor n).phase = s.phase := rfl
@[simp] theorem State.loadDivisor_mem (n : Nat) : (s.loadDivisor n).mem = s.mem := rfl
@[simp] theorem State.loadDivisor_host (n : Nat) : (s.loadDivisor n).host = s.host := rfl
@[simp] theorem State.loadDivisor_resp (n : Nat) : (s.loadDivisor n).resp = s.resp := rfl
@[simp] theorem State.loadDivisor_fresh (n : Nat) : (s.loadDivisor n).fresh = s.fresh := rfl

@[simp] theorem State.commit_ctrl (m : Fin 8) : (s.commit m).ctrl = s.ctrl := rfl
@[simp] theorem State.commit_status (m : Fin 8) : (s.commit m).status = s.status := rfl
@[simp] theorem State.commit_cmd (m : Fin 8) : (s.commit m).cmd = s.cmd := rfl
@[simp] theorem State.commit_arg0 (m : Fin 8) : (s.commit m).arg0 = s.arg0 := rfl
@[simp] theorem State.commit_result (m : Fin 8) : (s.commit m).result = s.result := rfl
@[simp] theorem State.commit_qcfg (m : Fin 8) : (s.commit m).qcfg = s.qcfg := rfl
@[simp] theorem State.commit_bcfg (m : Fin 8) : (s.commit m).bcfg = s.bcfg := rfl
@[simp] theorem State.commit_pkBitlen (m : Fin 8) : (s.commit m).pkBitlen = s.pkBitlen := rfl
@[simp] theorem State.commit_rsSrc (m : Fin 8) : (s.commit m).rsSrc = s.rsSrc := rfl
@[simp] theorem State.commit_rsLen (m : Fin 8) : (s.commit m).rsLen = s.rsLen := rfl
@[simp] theorem State.commit_rsDst (m : Fin 8) : (s.commit m).rsDst = s.rsDst := rfl
@[simp] theorem State.commit_divDeg (m : Fin 8) : (s.commit m).divDeg = s.divDeg := rfl
@[simp] theorem State.commit_divram (m : Fin 8) : (s.commit m).divram = s.divram := rfl
@[simp] theorem State.commit_msel (m : Fin 8) : (s.commit m).msel = s.msel := rfl
@[simp] theorem State.commit_pen (m : Fin 8) : (s.commit m).pen = s.pen := rfl
@[simp] theorem State.commit_phase (m : Fin 8) : (s.commit m).phase = s.phase := rfl
@[simp] theorem State.commit_mem (m : Fin 8) : (s.commit m).mem = s.mem.writeBlock finalBase (finalBytes (s.scratch m)) := rfl
@[simp] theorem State.commit_host (m : Fin 8) : (s.commit m).host = s.host := rfl
@[simp] theorem State.commit_resp (m : Fin 8) : (s.commit m).resp = s.resp := rfl
@[simp] theorem State.commit_fresh (m : Fin 8) : (s.commit m).fresh = s.fresh := rfl

@[simp] theorem State.begin_ctrl : s.begin.ctrl = s.ctrl := rfl
@[simp] theorem State.begin_status : s.begin.status = s.status := rfl
@[simp] theorem State.begin_cmd : s.begin.cmd = s.cmd := rfl
@[simp] theorem State.begin_arg0 : s.begin.arg0 = s.arg0 := rfl
@[simp] theorem State.begin_result : s.begin.result = s.result := rfl
@[simp] theorem State.begin_qcfg : s.begin.qcfg = s.qcfg := rfl
@[simp] theorem State.begin_bcfg : s.begin.bcfg = s.bcfg := rfl
@[simp] theorem State.begin_pkBitlen : s.begin.pkBitlen = s.pkBitlen := rfl
@[simp] theorem State.begin_rsSrc : s.begin.rsSrc = s.rsSrc := rfl
@[simp] theorem State.begin_rsLen : s.begin.rsLen = s.rsLen := rfl
@[simp] theorem State.begin_rsDst : s.begin.rsDst = s.rsDst := rfl
@[simp] theorem State.begin_divDeg : s.begin.divDeg = s.divDeg := rfl
@[simp] theorem State.begin_divram : s.begin.divram = s.divram := rfl
@[simp] theorem State.begin_msel : s.begin.msel = s.msel := rfl
@[simp] theorem State.begin_pen : s.begin.pen = s.pen := rfl
@[simp] theorem State.begin_phase : s.begin.phase = s.phase := rfl
@[simp] theorem State.begin_mem : s.begin.mem = s.mem := rfl
@[simp] theorem State.begin_host : s.begin.host = s.host.tail := rfl
@[simp] theorem State.begin_resp : s.begin.resp = .noTransfer := rfl
@[simp] theorem State.begin_fresh : s.begin.fresh = s.fresh := rfl

@[simp] theorem State.busy_complete : s.complete.busy = false := rfl
@[simp] theorem State.busy_fail (e : ErrCode) : (s.fail e).busy = false := rfl
@[simp] theorem State.busy_accept (w : Word) : (s.accept w).busy = true := rfl
@[simp] theorem State.busy_overrun : s.overrun.busy = s.busy := rfl
@[simp] theorem State.busy_clearFlags (v : Word) : (s.clearFlags v).busy = s.busy := rfl
@[simp] theorem State.busy_begin : s.begin.busy = s.busy := rfl

end Updates

section Flags
variable (st : Status)

@[simp] theorem Status.completed_done : st.completed.done = true := rfl
@[simp] theorem Status.completed_err : st.completed.err = st.err := rfl
@[simp] theorem Status.completed_errcode : st.completed.errcode = st.errcode := rfl
@[simp] theorem Status.completed_lastop : st.completed.lastop = st.lastop := rfl
@[simp] theorem Status.failed_done (e : ErrCode) : (st.failed e).done = true := rfl
@[simp] theorem Status.failed_err (e : ErrCode) : (st.failed e).err = true := rfl
@[simp] theorem Status.failed_errcode (e : ErrCode) : (st.failed e).errcode = e := rfl
@[simp] theorem Status.failed_lastop (e : ErrCode) : (st.failed e).lastop = st.lastop := rfl
@[simp] theorem Status.overrun_done : st.overrun.done = st.done := rfl
@[simp] theorem Status.overrun_err : st.overrun.err = true := rfl
@[simp] theorem Status.overrun_errcode : st.overrun.errcode = .busyOverrun := rfl
@[simp] theorem Status.overrun_lastop : st.overrun.lastop = st.lastop := rfl
@[simp] theorem Status.accepted_done (w : Word) : (st.accepted w).done = false := rfl
@[simp] theorem Status.accepted_err (w : Word) : (st.accepted w).err = st.err := rfl
@[simp] theorem Status.accepted_errcode (w : Word) : (st.accepted w).errcode = st.errcode := rfl
@[simp] theorem Status.accepted_lastop (w : Word) : (st.accepted w).lastop = w.extractLsb' 0 8 := rfl

@[simp] theorem Status.hostWrite_done (v : Word) : (st.hostWrite v).done = (st.done && !v.getLsbD 1) := by
  unfold Status.hostWrite; cases v.getLsbD 1 <;> cases v.getLsbD 2 <;> simp

@[simp] theorem Status.hostWrite_err (v : Word) : (st.hostWrite v).err = (st.err && !v.getLsbD 2) := by
  unfold Status.hostWrite; cases v.getLsbD 1 <;> cases v.getLsbD 2 <;> simp

@[simp] theorem Status.hostWrite_errcode (v : Word) :
    (st.hostWrite v).errcode = if v.getLsbD 2 then .none else st.errcode := by
  unfold Status.hostWrite; cases v.getLsbD 1 <;> cases v.getLsbD 2 <;> simp

@[simp] theorem Status.hostWrite_lastop (v : Word) : (st.hostWrite v).lastop = st.lastop := by
  unfold Status.hostWrite; cases v.getLsbD 1 <;> cases v.getLsbD 2 <;> simp

end Flags

end Sys2Proof.Machine
end

