-- ==== Sys2Proof/Laws/Commands.lean ====
section
/-! SUPPORT. Everything a command can do at its completion edge: the failure its check names, or its effect and the common
completion. -/

namespace Sys2Proof.Machine

@[simp] theorem conclude_some (e : ErrCode) (eff s : State) : conclude (some e) eff s = .next (s.fail e) := rfl

@[simp] theorem conclude_none (eff s : State) : conclude none eff s = .next eff.complete := rfl

/-- A command's end is one of two. -/
theorem conclude_cases {chk : Option ErrCode} {eff s t : State} (h : conclude chk eff s = .next t) :
    (∃ e, chk = some e ∧ t = s.fail e) ∨ (chk = none ∧ t = eff.complete) := by
  cases chk with
  | some e => exact .inl ⟨e, rfl, by simpa using h.symm⟩
  | none => exact .inr ⟨rfl, by simpa using h.symm⟩

/-- The state with the writes of a command's effect made (the effect part of its rule). -/
def effectOf (i : Instr) (s : State) : State :=
  match i with
  | .nop => s
  | .gfMul => { s with result := (gfMul s.gfA s.gfB).zeroExtend 32 }
  | .rsDiv deg => s.loadDivisor deg
  | .rsRem => { s with mem := s.mem.writeBlock (ememBase + s.rsDst.toNat) s.remainderBytes }
  | .rsEnc => { s.loadDivisor s.bcfg.ecb.toNat with mem := s.mem.writeBlock ememBase s.encodeBytes }
  | .pkClr => { s with pkBitlen := 0 }
  | .pkApp n => s.withStream (s.stream.pushAll (s.fieldBits n))
  | .pkFin =>
    { s.withStream (s.stream.pushAll (finBits (8 * s.bcfg.dataCw) s.pkBitlen.toNat)) with
      result := natWord (padCount (8 * s.bcfg.dataCw) s.pkBitlen.toNat) }
  | .ilRun => { s with mem := s.mem.writeBlock omemBase s.interleaved, result := natWord s.interleaved.length }
  | .mkFmt m => { s with result := natWord (s.formatWord m) }
  | .mkScore m => { s with pen := s.pen.set m (s.scores m).regs, result := natWord (s.penalty m) }
  | .mkApply m =>
    { s.commit m with msel := { mask := m, valid := true, auto := false }, result := natWord m.val }
  | .mkSel => s.select s.allScores s.bestMask

/-- Every command evaluates its checks and then its effect (40_control.md R111, R112). -/
theorem exec_eq_conclude (i : Instr) (s : State) : exec i s = conclude (s.check i) (effectOf i s) s := by
  cases i <;> rfl

/-- What a command can do, once for all of them. -/
theorem exec_cases {i : Instr} {s t : State} (h : exec i s = .next t) :
    (∃ e, s.check i = some e ∧ t = s.fail e) ∨ (s.check i = none ∧ t = (effectOf i s).complete) := by
  rw [exec_eq_conclude] at h
  exact conclude_cases h

theorem exec_of_check_none {i : Instr} {s : State} (h : s.check i = none) :
    exec i s = .next (effectOf i s).complete := by
  rw [exec_eq_conclude, h, conclude_none]

theorem exec_of_check_some {i : Instr} {s : State} {e : ErrCode} (h : s.check i = some e) :
    exec i s = .next (s.fail e) := by
  rw [exec_eq_conclude, h, conclude_some]

/-- The fields no command's effect writes. -/
theorem effectOf_frame (i : Instr) (s : State) :
    effectOf i s =
      { effectOf i s with
        ctrl := s.ctrl, status := s.status, cmd := s.cmd, arg0 := s.arg0, qcfg := s.qcfg, bcfg := s.bcfg,
        rsSrc := s.rsSrc, rsLen := s.rsLen, rsDst := s.rsDst, phase := s.phase, host := s.host, resp := s.resp,
        fresh := s.fresh } := by
  cases i <;> rfl

end Sys2Proof.Machine
end

