-- ==== Sys2Proof/Laws/Clock.lean ====
section
/-! SUPPORT. What one clock edge can do (40_control.md R117): a plain edge, or the completion edge. -/

namespace Sys2Proof.Machine

@[simp] theorem onNext_next (s : State) (f : State → State) : onNext (.next s) f = .next (f s) := rfl

theorem runAccepted_of_decode {s : State} {i : Instr} (h : decode s.cmd = .ok i) : runAccepted s = exec i s := by
  simp [runAccepted, h]

theorem runAccepted_of_reject {s : State} {e : Reject} (h : decode s.cmd = .error e) :
    runAccepted s = .next (s.fail .illegalCmd) := by
  simp [runAccepted, h]

/-- A completion edge always completes the command, with an error or without (40_control.md R111, R112). -/
theorem runAccepted_next (s : State) : ∃ t, runAccepted s = .next t ∧ t.phase = .idle ∧ t.status.done = true := by
  cases hd : decode s.cmd with
  | error e => exact ⟨_, runAccepted_of_reject hd, rfl, rfl⟩
  | ok i =>
    rw [runAccepted_of_decode hd]
    cases hc : s.check i with
    | some e => exact ⟨_, exec_of_check_some hc, rfl, rfl⟩
    | none => exact ⟨_, exec_of_check_none hc, rfl, rfl⟩

theorem step_of_due {s : State} (h : s.due = true) : step s = completionEdge s.edge s.begin := by
  simp [step, clockEdge, h]

theorem step_of_not_due {s : State} (h : s.due = false) : step s = .next (plainEdge s.edge s.begin) := by
  simp [step, clockEdge, h]

theorem due_of_busy {s : State} {left : Nat} (h : s.phase = .busy left) : s.due = decide (left ≤ 1) := by
  simp [State.due, h]

theorem due_of_idle {s : State} (h : s.phase = .idle) : s.due = false := by
  simp [State.due, h]

theorem leavingReset_of_busy {s : State} {left : Nat} (h : s.phase = .busy left) : s.leavingReset = false := by
  simp [State.leavingReset, State.busy, h]

theorem leavingReset_of_resp {s : State} (h : s.resp ≠ .inReset) : s.leavingReset = false := by
  simp [State.leavingReset, h]

theorem leavingReset_of_inReset {s : State} (h : s.resp = .inReset) (hp : s.phase = .idle) : s.leavingReset = true := by
  simp [State.leavingReset, State.busy, h, hp]

theorem edge_of_nil {s : State} (h : s.host = []) : s.edge = .quiet := by
  simp [State.edge, h]

theorem edge_of_resetLow {s : State} {rest : List HostEdge} (h : s.host = .resetLow :: rest) : s.edge = .resetLow := by
  simp [State.edge, h]

/-- Away from a reset the block takes what the host presents. -/
theorem edge_of_cons {s : State} {e : HostEdge} {rest : List HostEdge} (h : s.host = e :: rest)
    (hl : s.leavingReset = false) : s.edge = e := by
  cases e <;> simp [State.edge, h, hl]

/-- The first edge with PRESETn = 1 takes no transfer. -/
theorem edge_of_leavingReset {s : State} {e : HostEdge} {rest : List HostEdge} (h : s.host = e :: rest)
    (hl : s.leavingReset = true) (he : e ≠ .resetLow) : s.edge = .quiet := by
  cases e <;> simp_all [State.edge]

theorem busy_of_busy {s : State} {left : Nat} (h : s.phase = .busy left) : s.busy = true := by
  simp [State.busy, h]

theorem busy_of_idle {s : State} (h : s.phase = .idle) : s.busy = false := by
  simp [State.busy, h]

@[simp] theorem transfer_quiet (s : State) : transfer .quiet s = s := rfl

theorem plainEdge_of_idle {s : State} (h : s.phase = .idle) (e : HostEdge) : plainEdge e s = transfer e s := by
  simp [plainEdge, h]

theorem plainEdge_of_busy {s : State} {left : Nat} (h : s.phase = .busy left) (e : HostEdge) :
    plainEdge e s = transfer e { s with phase := .busy (left - 1) } := by
  simp [plainEdge, h]

end Sys2Proof.Machine
end

