-- ==== Sys2Proof/Laws/Memory.lean ====
section
/-! SUPPORT. Reads after writes of the memory operations, for every memory, and the canonical form they keep. -/

namespace Sys2Proof.Machine

@[simp] theorem cellsAt_nil (a : Nat) : cellsAt a [] = [] := rfl

@[simp] theorem cellsAt_cons (a : Nat) (b : Byte) (bs : List Byte) :
    cellsAt a (b :: bs) = (a, b) :: cellsAt (a + 1) bs := rfl

/-- A block's cell at an address of the block. -/
theorem lookup_cellsAt_inside (bs : List Byte) : ∀ (a k : Nat) (h : k < bs.length),
    (cellsAt a bs).lookup (a + k) = some bs[k] := by
  induction bs with
  | nil => intro a k h; simp at h
  | cons b bs ih =>
    intro a k h
    cases k with
    | zero => simp
    | succ k =>
      have hne : (a + (k + 1) == a) = false := by simp
      have := ih (a + 1) k (by simpa using h)
      rw [show a + 1 + k = a + (k + 1) by omega] at this
      simp [List.lookup, hne, this]

/-- A block has no cell outside its addresses. -/
theorem lookup_cellsAt_outside (bs : List Byte) : ∀ (a x : Nat), x < a ∨ a + bs.length ≤ x →
    (cellsAt a bs).lookup x = none := by
  induction bs with
  | nil => intros; rfl
  | cons b bs ih =>
    intro a x h
    have hne : (x == a) = false := by simp only [List.length_cons] at h; simp; omega
    simp [List.lookup, hne, ih (a + 1) x (by simp only [List.length_cons] at h; omega)]

/-- Looking up a key that the filter keeps. -/
theorem lookup_filter_keep (q : Nat → Bool) (x : Nat) (hq : q x = true) (m : Memory) :
    (m.filter fun c => q c.1).lookup x = m.lookup x := by
  induction m with
  | nil => rfl
  | cons c m ih =>
    rcases c with ⟨a, v⟩
    by_cases hx : x = a
    · subst hx; simp [List.filter, hq, List.lookup]
    · have hne : (x == a) = false := by simp [hx]
      cases hqa : q a <;> simp [List.filter, hqa, List.lookup, hne, ih]

/-- Looking up a key that the filter drops. -/
theorem lookup_filter_drop (q : Nat → Bool) (x : Nat) (hq : q x = false) (m : Memory) :
    (m.filter fun c => q c.1).lookup x = none := by
  induction m with
  | nil => rfl
  | cons c m ih =>
    rcases c with ⟨a, v⟩
    by_cases hx : x = a
    · subst hx; simp [List.filter, hq, ih]
    · have hne : (x == a) = false := by simp [hx]
      cases hqa : q a <;> simp [List.filter, hqa, List.lookup, hne, ih]

theorem lookup_append (l₁ l₂ : Memory) (x : Nat) :
    (l₁ ++ l₂).lookup x = (l₁.lookup x).or (l₂.lookup x) := by
  induction l₁ with
  | nil => simp
  | cons c l₁ ih =>
    rcases c with ⟨a, v⟩
    by_cases hx : x = a
    · subst hx; simp [List.lookup]
    · have hne : (x == a) = false := by simp [hx]
      simp [List.lookup, hne, ih]

/-- A written address reads as the byte written. -/
theorem Memory.read_writeBlock_inside (m : Memory) (a k : Nat) (bs : List Byte) (h : k < bs.length) :
    (m.writeBlock a bs).read (a + k) = bs[k] := by
  have hlow := lookup_filter_drop (fun x => decide (x < a)) (a + k) (by simp) m
  simp only [Memory.read, Memory.writeBlock, lookup_append, hlow, lookup_cellsAt_inside bs a k h, Option.none_or,
    Option.some_or]

/-- Every other address reads as before. -/
theorem Memory.read_writeBlock_outside (m : Memory) (a x : Nat) (bs : List Byte) (h : x < a ∨ a + bs.length ≤ x) :
    (m.writeBlock a bs).read x = m.read x := by
  simp only [Memory.read, Memory.writeBlock, lookup_append, lookup_cellsAt_outside bs a x h]
  rcases h with h | h
  · have hlow := lookup_filter_keep (fun x => decide (x < a)) x (by simp [h]) m
    have hhigh := lookup_filter_drop (fun x => decide (a + bs.length ≤ x)) x (by simp; omega) m
    simp only [hlow, hhigh, Option.or_none]
  · have hlow := lookup_filter_drop (fun x => decide (x < a)) x (by simp; omega) m
    have hhigh := lookup_filter_keep (fun x => decide (a + bs.length ≤ x)) x (by simp [h]) m
    simp only [hlow, hhigh, Option.none_or]

/-- What a block write does to a read, in one equation. -/
theorem Memory.read_writeBlock (m : Memory) (a x : Nat) (bs : List Byte) :
    (m.writeBlock a bs).read x =
      if h : a ≤ x ∧ x - a < bs.length then bs[x - a]'h.2 else m.read x := by
  split
  next h =>
    have := Memory.read_writeBlock_inside m a (x - a) bs h.2
    rwa [show a + (x - a) = x by omega] at this
  next h => exact Memory.read_writeBlock_outside m a x bs (by omega)

@[simp] theorem Memory.length_readBlock (m : Memory) (a n : Nat) : (m.readBlock a n).length = n := by
  simp [Memory.readBlock]

/-- A block read is the reads of its bytes. -/
theorem Memory.readBlock_eq_map (m : Memory) (a n : Nat) :
    m.readBlock a n = (List.range n).map fun i => m.read (a + i) := by
  refine List.map_congr_left fun i hi => ?_
  have hi : i < n := by simpa using hi
  have := lookup_filter_keep (fun x => decide (a ≤ x) && decide (x < a + n)) (a + i) (by simp [hi]) m
  simp only [Memory.read, this]

@[simp] theorem Memory.getElem_readBlock (m : Memory) (a n i : Nat) (h : i < (m.readBlock a n).length) :
    (m.readBlock a n)[i] = m.read (a + i) := by
  simp [Memory.readBlock_eq_map]

/-- A single byte write. -/
theorem Memory.read_write (m : Memory) (a x : Nat) (v : Byte) :
    (m.write a v).read x = if x = a then v else m.read x := by
  split
  next h => subst h; exact Memory.read_writeBlock_inside m x 0 [v] (by simp)
  next h => exact Memory.read_writeBlock_outside m a x [v] (by simp; omega)

@[simp] theorem length_bytesOfWord (w : Word) : (bytesOfWord w).length = 4 := rfl

/-- The lanes of a word are its four bytes (20_memory.md R66 item 1). -/
theorem wordOfBytes_bytesOfWord (w : Word) :
    wordOfBytes (w.extractLsb' 0 8) (w.extractLsb' 8 8) (w.extractLsb' 16 8) (w.extractLsb' 24 8) = w := by
  apply BitVec.eq_of_getLsbD_eq
  intro i hi
  simp only [wordOfBytes, BitVec.getLsbD_append, BitVec.getLsbD_extractLsb']
  by_cases h0 : i < 8
  · simp [h0]
  by_cases h1 : i < 16
  · simp [h0, show i - 8 < 8 by omega, show 8 + (i - 8) = i by omega]
  by_cases h2 : i < 24
  · simp [h0, show ¬ i - 8 < 8 by omega, show i - 8 - 8 < 8 by omega, show 16 + (i - 8 - 8) = i by omega]
  · simp [h0, show ¬ i - 8 < 8 by omega, show ¬ i - 8 - 8 < 8 by omega, show i - 8 - 8 - 8 < 8 by omega,
      show 24 + (i - 8 - 8 - 8) = i by omega]

/-- A word written reads back (20_memory.md R72: a location keeps its value). -/
theorem Memory.readWord_writeWord (m : Memory) (a : Nat) (w : Word) : (m.writeWord a w).readWord a = w := by
  have h0 := Memory.read_writeBlock_inside m a 0 (bytesOfWord w) (by simp)
  have h1 := Memory.read_writeBlock_inside m a 1 (bytesOfWord w) (by simp)
  have h2 := Memory.read_writeBlock_inside m a 2 (bytesOfWord w) (by simp)
  have h3 := Memory.read_writeBlock_inside m a 3 (bytesOfWord w) (by simp)
  rw [Nat.add_zero] at h0
  rw [Memory.readWord, Memory.writeWord, h0, h1, h2, h3]
  exact wordOfBytes_bytesOfWord w

/-! The canonical form. -/

/-- Every entry of a canonical memory is at a stored address. -/
theorem Memory.wf_stored {m : Memory} (h : m.wf = true) : ∀ c ∈ m, storedAddr c.1 = true := by
  induction m with
  | nil => simp
  | cons c m ih =>
    simp only [Memory.wf, Bool.and_eq_true] at h
    intro d hd
    rcases List.mem_cons.1 hd with rfl | hd
    · exact h.1.1
    · exact ih h.2 d hd

/-- The addresses of a canonical memory rise. -/
theorem Memory.wf_sorted {m : Memory} (h : m.wf = true) : m.Pairwise fun c d => c.1 < d.1 := by
  induction m with
  | nil => exact .nil
  | cons c m ih =>
    simp only [Memory.wf, Bool.and_eq_true] at h
    have ht := ih h.2
    refine .cons (fun d hd => ?_) ht
    cases m with
    | nil => simp at hd
    | cons e m =>
      have hce : c.1 < e.1 := by simpa using h.1.2
      rcases List.mem_cons.1 hd with rfl | hd
      · exact hce
      · exact Nat.lt_trans hce (List.rel_of_pairwise_cons ht hd)

/-- Rising addresses, all stored, are the canonical form. -/
theorem Memory.wf_of_sorted {m : Memory} (hs : m.Pairwise fun c d => c.1 < d.1)
    (ha : ∀ c ∈ m, storedAddr c.1 = true) : m.wf = true := by
  induction m with
  | nil => rfl
  | cons c m ih =>
    simp only [Memory.wf, Bool.and_eq_true]
    refine ⟨⟨ha c (by simp), ?_⟩, ih hs.of_cons fun d hd => ha d (by simp [hd])⟩
    cases m with
    | nil => rfl
    | cons e m => simpa using List.rel_of_pairwise_cons hs (a' := e) (by simp)

theorem mem_cellsAt {bs : List Byte} : ∀ {a : Nat} {c : Host.Cell}, c ∈ cellsAt a bs → a ≤ c.1 ∧ c.1 < a + bs.length := by
  induction bs with
  | nil => intro a c h; simp at h
  | cons b bs ih =>
    intro a c h
    rcases List.mem_cons.1 h with rfl | h
    · simp
    · have := ih h
      simp only [List.length_cons]; omega

theorem cellsAt_sorted (bs : List Byte) : ∀ a, (cellsAt a bs).Pairwise fun c d => c.1 < d.1 := by
  induction bs with
  | nil => intro a; exact .nil
  | cons b bs ih => intro a; exact .cons (fun d hd => by have := mem_cellsAt hd; omega) (ih (a + 1))

/-- A block write to stored addresses keeps the canonical form. -/
theorem Memory.wf_writeBlock {m : Memory} (h : m.wf = true) (a : Nat) (bs : List Byte)
    (hst : ∀ k < bs.length, storedAddr (a + k) = true) : (m.writeBlock a bs).wf = true := by
  have hs := Memory.wf_sorted h
  refine Memory.wf_of_sorted ?_ ?_
  · rw [Memory.writeBlock, List.append_assoc, List.pairwise_append, List.pairwise_append]
    refine ⟨hs.filter _, ⟨cellsAt_sorted bs a, hs.filter _, ?_⟩, ?_⟩
    · intro c hc d hd
      have h1 := mem_cellsAt hc
      have h2 : a + bs.length ≤ d.1 := by simpa using (List.mem_filter.1 hd).2
      omega
    · intro c hc d hd
      have h1 : c.1 < a := by simpa using (List.mem_filter.1 hc).2
      rcases List.mem_append.1 hd with hd | hd
      · have := mem_cellsAt hd; omega
      · have h2 : a + bs.length ≤ d.1 := by simpa using (List.mem_filter.1 hd).2
        omega
  · intro c hc
    rw [Memory.writeBlock, List.append_assoc, List.mem_append, List.mem_append] at hc
    rcases hc with hc | hc | hc
    · exact Memory.wf_stored h c (List.mem_filter.1 hc).1
    · have := mem_cellsAt hc
      have := hst (c.1 - a) (by omega)
      rwa [show a + (c.1 - a) = c.1 by omega] at this
    · exact Memory.wf_stored h c (List.mem_filter.1 hc).1

/-- A byte write to a stored address keeps the canonical form. -/
theorem Memory.wf_write {m : Memory} (h : m.wf = true) {a : Nat} (ha : storedAddr a = true) (v : Byte) :
    (m.write a v).wf = true :=
  Memory.wf_writeBlock h a [v] fun k hk => by
    have : k = 0 := by simpa using hk
    subst this; simpa using ha

/-- A word write to four stored addresses keeps the canonical form. -/
theorem Memory.wf_writeWord {m : Memory} (h : m.wf = true) {a : Nat} (ha : ∀ k < 4, storedAddr (a + k) = true)
    (v : Word) : (m.writeWord a v).wf = true :=
  Memory.wf_writeBlock h a _ (by simpa using ha)

end Sys2Proof.Machine
end

