-- ==== Sys2Proof/Laws/Bus.lean ====
section
/-! SUPPORT. The address map and the register writes of the bus (20_memory.md R62; 40_control.md R115), one equation for
each place an address can reach. -/

namespace Sys2Proof.Machine

/-- PADDR[1:0] are ignored (20_memory.md R65): the map looks at the word address alone. -/
theorem target_of_word {a : BitVec 16} {w : Nat} (h : a.toNat / 4 = w) : target a = targetOfWord w := by
  rw [target, h]

theorem targetOfWord_low {w : Nat} (h : w < 18) : ∃ r, lowRegs[w]? = some r ∧ targetOfWord w = .reg r := by
  have hl : w < lowRegs.length := h
  refine ⟨lowRegs[w], List.getElem?_eq_getElem hl, ?_⟩
  simp only [targetOfWord, show w < 0x48 / 4 from h, if_true, List.getElem?_eq_getElem hl]

theorem targetOfWord_pen (m : Fin 8) (k : Fin 4) : targetOfWord (0x80 / 4 + 4 * m.val + k.val) = .reg (.pen m k) := by
  revert m k; decide

theorem targetOfWord_pent (m : Fin 8) : targetOfWord (0x100 / 4 + m.val) = .reg (.pent m) := by
  revert m; decide

theorem targetOfWord_divram (i : Fin 8) : targetOfWord (0x140 / 4 + i.val) = .reg (.divram i) := by
  revert i; decide

theorem targetOfWord_unmapped {w : Nat}
    (h : (18 ≤ w ∧ w < 32) ∨ (72 ≤ w ∧ w < 80) ∨ (88 ≤ w ∧ w < 1024) ∨ 10240 ≤ w) : targetOfWord w = .unmapped := by
  unfold targetOfWord
  repeat' split
  all_goals first | rfl | omega

/-- From the first window on, an address is four stored bytes, an unstored plane row, or past the map. -/
theorem targetOfWord_high {w : Nat} (h : 1024 ≤ w) :
    targetOfWord w = if w < 10240 then (if storedAddr (4 * w) then .mem (4 * w) else .notStored) else .unmapped := by
  unfold targetOfWord
  split_ifs <;> first | rfl | omega

theorem targetOfWord_window {w : Nat} (h : 1024 ≤ w) (h' : w < 10240) :
    targetOfWord w = if storedAddr (4 * w) then .mem (4 * w) else .notStored := by
  rw [targetOfWord_high h, if_pos h']

/-- Below the windows an address reaches a register or nothing. -/
theorem targetOfWord_below {w : Nat} (h : w < 1024) : (∃ r, targetOfWord w = .reg r) ∨ targetOfWord w = .unmapped := by
  by_cases hw : w < 18
  · obtain ⟨r, -, hr⟩ := targetOfWord_low hw
    exact .inl ⟨r, hr⟩
  · unfold targetOfWord
    rw [if_neg hw]
    split_ifs <;> first | exact .inl ⟨_, rfl⟩ | exact .inr rfl

theorem storedAddr_iff (a : Nat) : storedAddr a = true ↔
    (0x1000 ≤ a ∧ a < 0x4000) ∨ ((0x4000 ≤ a ∧ a < 0xA000) ∧ (a - 0x4000) % 0x2000 < 5664) := by
  rw [storedAddr, Bool.or_eq_true, Bool.and_eq_true, Bool.and_eq_true, Bool.and_eq_true, decide_eq_true_eq,
    decide_eq_true_eq, decide_eq_true_eq, decide_eq_true_eq, decide_eq_true_eq]
  exact Iff.rfl

/-- The four bytes of a stored word are stored: no word straddles the end of a window or of the stored rows. -/
theorem storedAddr_word {w : Nat} (h : storedAddr (4 * w) = true) : ∀ k < 4, storedAddr (4 * w + k) = true := by
  intro k hk
  rw [storedAddr_iff] at h ⊢
  omega

/-- A register of the low block lies at one word address. -/
theorem targetOfWord_eq_low {w : Nat} {r : Reg} (hr : ∀ m k, r ≠ .pen m k) (hp : ∀ m, r ≠ .pent m)
    (hd : ∀ i, r ≠ .divram i) (h : targetOfWord w = .reg r) : w < 18 ∧ lowRegs[w]? = some r := by
  by_cases hw : w < 18
  · obtain ⟨q, hq, ht⟩ := targetOfWord_low hw
    rw [ht] at h
    cases h
    exact ⟨hw, hq⟩
  · exfalso
    unfold targetOfWord at h
    rw [if_neg hw] at h
    split_ifs at h <;> injection h with h
    exacts [hr _ _ h.symm, hp _ h.symm, hd _ h.symm]

theorem target_eq_status {a : BitVec 16} : target a = .reg .status ↔ a.toNat / 4 = 2 := by
  constructor
  · intro h
    obtain ⟨hw, hl⟩ := targetOfWord_eq_low (by simp) (by simp) (by simp) h
    generalize a.toNat / 4 = w at hw hl
    revert w; decide
  · intro h; rw [target_of_word h]; rfl

theorem target_eq_cmd {a : BitVec 16} : target a = .reg .cmd ↔ a.toNat / 4 = 3 := by
  constructor
  · intro h
    obtain ⟨hw, hl⟩ := targetOfWord_eq_low (by simp) (by simp) (by simp) h
    generalize a.toNat / 4 = w at hw hl
    revert w; decide
  · intro h; rw [target_of_word h]; rfl

theorem busRead_reg {a : BitVec 16} {r : Reg} (h : target a = .reg r) (s : State) : busRead a s = (s.readReg r, false) := by
  simp only [busRead, h]

theorem busWrite_reg {a : BitVec 16} {r : Reg} (h : target a = .reg r) (v : Word) (s : State) :
    busWrite a v s = writeReg r v s := by
  simp only [busWrite, h]

theorem busWrite_ctrl (v : Word) (s : State) : busWrite 0x004 v s = (writeCtrl v s, false) :=
  busWrite_reg (r := .ctrl) (by decide) v s

theorem busWrite_status (v : Word) (s : State) : busWrite 0x008 v s = (s.clearFlags v, false) :=
  busWrite_reg (r := .status) (by decide) v s

theorem busWrite_cmd (v : Word) (s : State) : busWrite 0x00C v s = writeCmd v s :=
  busWrite_reg (r := .cmd) (by decide) v s

theorem writeCmd_idle {s : State} (h : s.phase = .idle) (v : Word) : writeCmd v s = (s.accept v, false) := by
  simp [writeCmd, busy_of_idle h]

theorem writeCmd_busy {s : State} (h : s.busy = true) (v : Word) : writeCmd v s = (s.overrun, true) := by
  simp [writeCmd, h]

/-- What a register write can do, once for all of them. -/
theorem writeReg_cases (r : Reg) (v : Word) (s : State) :
    (r = .ctrl ∧ writeReg r v s = (writeCtrl v s, false)) ∨
    (r = .status ∧ writeReg r v s = (s.clearFlags v, false)) ∨
    (r = .cmd ∧ writeReg r v s = writeCmd v s) ∨
    (r.isConfig = true ∧ s.busy = true ∧ writeReg r v s = (s, true)) ∨
    (r.isConfig = true ∧ s.busy = false ∧ writeReg r v s = (s.writeConfig v r, false)) ∨
    (r.isConfig = false ∧ r ≠ .ctrl ∧ r ≠ .status ∧ r ≠ .cmd ∧ writeReg r v s = (s, false)) := by
  cases r <;> cases hb : s.busy <;> simp [writeReg, Reg.isConfig, hb]

/-- What a bus write can do, once for every address. -/
theorem busWrite_cases (a : BitVec 16) (v : Word) (s : State) :
    (∃ r, target a = .reg r ∧ busWrite a v s = writeReg r v s) ∨
    (∃ b, target a = .mem b ∧ s.busy = false ∧ busWrite a v s = ({ s with mem := s.mem.writeWord b v }, false)) ∨
    (∃ e, busWrite a v s = (s, e)) := by
  cases ht : target a with
  | reg r => exact .inl ⟨r, rfl, busWrite_reg ht v s⟩
  | mem b =>
    cases hb : s.busy with
    | false => exact .inr (.inl ⟨b, rfl, rfl, by simp [busWrite, ht, hb]⟩)
    | true => exact .inr (.inr ⟨true, by simp [busWrite, ht, hb]⟩)
  | notStored =>
    cases hb : s.busy with
    | false => exact .inr (.inr ⟨false, by simp [busWrite, ht, hb]⟩)
    | true => exact .inr (.inr ⟨true, by simp [busWrite, ht, hb]⟩)
  | unmapped => exact .inr (.inr ⟨true, by simp [busWrite, ht]⟩)

/-- A memory target is four stored bytes. -/
theorem stored_of_target {a : BitVec 16} {b : Nat} (h : target a = .mem b) :
    b = a.toNat / 4 * 4 ∧ ∀ k < 4, storedAddr (b + k) = true := by
  rw [target] at h
  rcases Nat.lt_or_ge (a.toNat / 4) 1024 with hl | hl
  · rcases targetOfWord_below hl with ⟨r, hr⟩ | hr <;> rw [hr] at h <;> cases h
  · rw [targetOfWord_high hl] at h
    split_ifs at h with h1 h2
    cases h
    exact ⟨by omega, storedAddr_word h2⟩

end Sys2Proof.Machine
end

