-- ==== Sys2Proof/Laws/GfRs.lean ====
section
/-! SUPPORT. Lengths and small equations of the Reed–Solomon functions (41_gf_rs.md R121 to R124). -/

namespace Sys2Proof.Machine

@[simp] theorem mulRoot_nil (root : Byte) : mulRoot root [] = [] := rfl

@[simp] theorem mulRoot_single (root x : Byte) : mulRoot root [x] = [gfMul x root] := rfl

@[simp] theorem mulRoot_cons₂ (root x y : Byte) (t : List Byte) :
    mulRoot root (x :: y :: t) = (gfMul x root ^^^ y) :: mulRoot root (y :: t) := rfl

@[simp] theorem length_mulRoot (root : Byte) : ∀ d, (mulRoot root d).length = d.length
  | [] => rfl
  | [_] => rfl
  | x :: y :: t => by simp [length_mulRoot root (y :: t)]

@[simp] theorem length_divisorLoop : ∀ k root d, (divisorLoop k root d).length = d.length
  | 0, _, _ => rfl
  | k + 1, root, d => by simp [divisorLoop, length_divisorLoop k]

/-- "the divisor has exactly n bytes" (R123). -/
@[simp] theorem length_rsDivisor (n : Nat) : (rsDivisor n).length = n := by
  cases n with
  | zero => rfl
  | succ k => simp [rsDivisor]

@[simp] theorem length_remainderStep (d r : List Byte) (b : Byte) (h : r.length = d.length) :
    (remainderStep d r b).length = d.length := by
  unfold remainderStep
  simp only [List.length_zipWith, List.length_append, List.length_tail, List.length_singleton]
  omega

theorem length_foldl_remainderStep (d : List Byte) : ∀ (data r : List Byte), r.length = d.length →
    (data.foldl (remainderStep d) r).length = d.length
  | [], _, h => h
  | b :: data, r, h => length_foldl_remainderStep d data _ (length_remainderStep d r b h)

/-- "len(divisor) remainder bytes" (R124). -/
@[simp] theorem length_rsRemainder (data d : List Byte) : (rsRemainder data d).length = d.length :=
  length_foldl_remainderStep d data _ (by simp)

@[simp] theorem rsRemainder_nil (d : List Byte) : rsRemainder [] d = List.replicate d.length 0 := rfl

@[simp] theorem length_divisor (s : State) : s.divisor.length = s.divDeg.toNat := by
  have : s.divDeg.toNat < 32 := s.divDeg.isLt
  simp only [State.divisor, List.length_take, Vector.length_toList]
  omega

/-- RS.REM writes DIV_DEG bytes (R127). -/
@[simp] theorem length_remainderBytes (s : State) : s.remainderBytes.length = s.divDeg.toNat := by
  simp [State.remainderBytes]

@[simp] theorem length_dataBlock (s : State) (k : Nat) : (s.dataBlock k).length = s.bcfg.len k := by
  simp [State.dataBlock]

@[simp] theorem length_ecBlock (s : State) (k : Nat) : (s.ecBlock k).length = s.bcfg.ecb.toNat := by
  simp [State.ecBlock]

theorem length_flatMap_const {α β : Type} (f : α → List β) (k : Nat) (l : List α)
    (h : ∀ x ∈ l, (f x).length = k) : (l.flatMap f).length = l.length * k := by
  induction l with
  | nil => simp
  | cons x l ih =>
    have hx := h x (by simp)
    have := ih fun y hy => h y (by simp [hy])
    simp [List.flatMap_cons, hx, this, Nat.succ_mul, Nat.add_comm]

/-- RS.ENC writes EC_CW bytes (R128). -/
@[simp] theorem length_encodeBytes (s : State) : s.encodeBytes.length = s.bcfg.ecCw := by
  rw [State.encodeBytes, length_flatMap_const _ s.bcfg.ecb.toNat _ (by simp)]
  simp [State.dataBlocks, Bcfg.ecCw]

end Sys2Proof.Machine
end

