-- ==== Sys2Proof/Laws/Mask.lean ====
section
/-! SUPPORT. The shape of the matrices the mask commands work on (44_mask.md R163, R175). -/

namespace Sys2Proof.Machine

@[simp] theorem length_bytesOfCells : ∀ (n : Nat) (bs : List Bool), (bytesOfCells n bs).length = n
  | 0, _ => rfl
  | n + 1, bs => by simp [bytesOfCells, length_bytesOfCells n]

@[simp] theorem length_cellsOfByte (b : Byte) : (cellsOfByte b).length = 8 := by simp [cellsOfByte]

theorem length_flatMap_cells (l : List Byte) : (l.flatMap cellsOfByte).length = 8 * l.length := by
  induction l with
  | nil => rfl
  | cons b l ih => simp [List.flatMap_cons, ih]; omega

@[simp] theorem Memory.length_row (m : Memory) (base r n : Nat) : (m.row base r n).length = n := by
  simp only [Memory.row, List.length_take, length_flatMap_cells, Memory.length_readBlock]
  omega

theorem length_maskRow (m : Fin 8) (r : Nat) : ∀ (vs fs : List Bool) (c : Nat), vs.length = fs.length →
    (maskRow m r c vs fs).length = vs.length
  | [], _, _, _ => by simp [maskRow]
  | _ :: _, [], _, h => by simp at h
  | _ :: vs, _ :: fs, c, h => by simp [maskRow, length_maskRow m r vs fs (c + 1) (by simpa using h)]

@[simp] theorem length_setCell (M : Matrix) (p : Nat × Nat) (v : Bool) : (setCell M p v).length = M.length := by
  simp [setCell]

theorem isSquare_masked (s : State) (m : Fin 8) : IsSquare s.qcfg.side (s.masked m) := by
  refine ⟨by simp [State.masked], fun row h => ?_⟩
  simp only [State.masked, List.mem_map] at h
  obtain ⟨r, -, rfl⟩ := h
  rw [length_maskRow _ _ _ _ _ (by simp)]
  simp

theorem isSquare_setCell {n : Nat} {M : Matrix} (h : IsSquare n M) (p : Nat × Nat) (v : Bool) :
    IsSquare n (setCell M p v) := by
  refine ⟨by simpa using h.1, fun row hrow => ?_⟩
  rw [setCell] at hrow
  obtain ⟨i, hi, rfl⟩ := List.mem_iff_getElem.1 hrow
  rw [List.getElem_modify]
  split
  · simpa using h.2 _ (List.getElem_mem _)
  · exact h.2 _ (List.getElem_mem _)

/-- scratch(m) is side × side (R163). -/
theorem isSquare_scratch (s : State) (m : Fin 8) : IsSquare s.qcfg.side (s.scratch m) := by
  have hfold : ∀ (l : List Nat) (M : Matrix), IsSquare s.qcfg.side M →
      IsSquare s.qcfg.side (l.foldl (writeFormatBit s.qcfg.side (s.formatWord m)) M) := by
    intro l
    induction l with
    | nil => exact fun M h => h
    | cons i l ih => exact fun M h => ih _ (isSquare_setCell (isSquare_setCell h _ _) _ _)
  exact isSquare_setCell (hfold _ _ (isSquare_masked s m)) _ _

/-- A commit writes every byte of the FINAL plane (R175). -/
@[simp] theorem length_finalBytes (M : Matrix) : (finalBytes M).length = matRows * rowPitch := by
  have : ∀ (l : List Nat) (f : Nat → List Bool),
      (l.flatMap fun r => bytesOfCells rowPitch (f r)).length = l.length * rowPitch := by
    intro l f
    induction l with
    | nil => simp
    | cons x l ih => simp [List.flatMap_cons, ih, Nat.succ_mul, Nat.add_comm]
  rw [finalBytes, this (List.range matRows) fun r => M.getD r [], List.length_range]

end Sys2Proof.Machine
end

