-- ==== Sys2Proof/Laws/Packer.lean ====
section
/-! SUPPORT. What pushing bits does to the stream's length and to the bytes outside it (42_packer.md R141). -/

namespace Sys2Proof.Machine

@[simp] theorem Stream.len_push (p : Stream) (b : Bool) : (p.push b).len = p.len + 1 := rfl

/-- "Push writes only the byte that holds s[k]" (R141). -/
theorem Stream.read_push_other (p : Stream) (b : Bool) (a : Nat) (h : a ≠ dmemBase + p.len / 8) :
    (p.push b).mem.read a = p.mem.read a := by
  simp [Stream.push, Memory.read_write, h]

/-- The byte push writes (R141). -/
theorem Stream.read_push_same (p : Stream) (b : Bool) :
    (p.push b).mem.read (dmemBase + p.len / 8) =
      pushByte (if p.len % 8 = 0 then 0 else p.mem.dmem (p.len / 8)) (p.len % 8) b := by
  simp [Stream.push, Memory.read_write]

@[simp] theorem Stream.pushAll_nil (p : Stream) : p.pushAll [] = p := rfl

@[simp] theorem Stream.pushAll_cons (p : Stream) (b : Bool) (bs : List Bool) :
    p.pushAll (b :: bs) = (p.push b).pushAll bs := rfl

theorem Stream.pushAll_append (p : Stream) (bs cs : List Bool) :
    p.pushAll (bs ++ cs) = (p.pushAll bs).pushAll cs := by
  simp [Stream.pushAll, List.foldl_append]

@[simp] theorem Stream.len_pushAll (bs : List Bool) : ∀ p : Stream, (p.pushAll bs).len = p.len + bs.length := by
  induction bs with
  | nil => simp
  | cons b bs ih => intro p; simp [ih]; omega

/-- Bytes that hold none of the pushed bits stay. -/
theorem Stream.read_pushAll_outside (bs : List Bool) : ∀ (p : Stream) (a : Nat),
    a < dmemBase + p.len / 8 ∨ dmemBase + (p.len + bs.length + 7) / 8 ≤ a →
    (p.pushAll bs).mem.read a = p.mem.read a := by
  induction bs with
  | nil => intros; rfl
  | cons b bs ih =>
    intro p a h
    simp only [List.length_cons] at h
    rw [Stream.pushAll_cons, ih (p.push b) a (by simp only [Stream.len_push]; omega)]
    exact Stream.read_push_other p b a (by omega)

@[simp] theorem length_fieldBits (s : State) (n : Nat) : (s.fieldBits n).length = n := by simp [State.fieldBits]

@[simp] theorem length_codewordBits (c : Byte) : (codewordBits c).length = 8 := by simp [codewordBits]

/-- A byte's stream bit `k` mod 8 after push: bit 7 first (R140). -/
theorem getLsbD_pushByte (old : Byte) (j i : Nat) (bit : Bool) (hj : j < 8) (hi : i < 8) :
    (pushByte old j bit).getLsbD i = if i = 7 - j then bit else if 8 - j ≤ i then old.getLsbD i else false := by
  have h1 : (0xFF#8).getLsbD (i - (8 - j)) = true := by
    have : i - (8 - j) < 8 := by omega
    generalize i - (8 - j) = x at this
    revert x; decide
  simp only [pushByte, BitVec.getLsbD_or, BitVec.getLsbD_and, BitVec.getLsbD_shiftLeft, h1, BitVec.truncate_eq_setWidth,
    BitVec.getLsbD_setWidth, BitVec.getLsbD_ofBool, hi, decide_true, Bool.true_and,
    Bool.and_true]
  by_cases e1 : i = 7 - j
  · subst e1; simp; omega
  · by_cases e2 : 8 - j ≤ i
    · have : ¬ i < 8 - j := by omega
      have h3 : ¬ i - (7 - j) = 0 := by omega
      simp [e1, e2, this, h3]
    · have h4 : i < 7 - j := by omega
      simp [e1, e2, h4]; omega

end Sys2Proof.Machine
end

