-- ==== Sys2Proof/Laws/PerInstr.lean ====
section
/-! SUPPORT. Laws stated per instruction. TableRow: a well-formed command's word lies in its row of spec/opcode_table.json,
that is, its bits under the row's mask are the row's match. -/

namespace Sys2Proof.Laws

/-- The "mask" column of spec/opcode_table.json. -/
def tableMask : Instr → Word
  | .rsDiv _ => 0xFFFF00FF
  | .pkApp _ => 0xFFFF00FF
  | .mkFmt _ => 0xFFFFF8FF
  | .mkScore _ => 0xFFFFF8FF
  | .mkApply _ => 0xFFFFF8FF
  | .nop => 0xFFFFFFFF
  | .gfMul => 0xFFFFFFFF
  | .rsRem => 0xFFFFFFFF
  | .rsEnc => 0xFFFFFFFF
  | .pkClr => 0xFFFFFFFF
  | .pkFin => 0xFFFFFFFF
  | .ilRun => 0xFFFFFFFF
  | .mkSel => 0xFFFFFFFF

/-- The "match" column of spec/opcode_table.json. -/
def tableMatch : Instr → Word
  | .nop => 0x00000000
  | .gfMul => 0x00000001
  | .rsDiv _ => 0x00000002
  | .rsRem => 0x00000003
  | .rsEnc => 0x00000004
  | .pkClr => 0x00000010
  | .pkApp _ => 0x00000011
  | .pkFin => 0x00000012
  | .ilRun => 0x00000020
  | .mkFmt _ => 0x00000030
  | .mkScore _ => 0x00000031
  | .mkApply _ => 0x00000032
  | .mkSel => 0x00000033

namespace TableRow

def Statement (i : Instr) : Prop := i.wellFormed = true → encode i &&& tableMask i = tableMatch i

/-- A byte operand at bit 8 does not meet the mask of a class B row. -/
theorem byte_row (op : Word) (n : Nat) (h : n < 256) (hop : op &&& 0xFFFF00FF#32 = op) :
    (op ||| (BitVec.ofNat 32 n <<< 8)) &&& 0xFFFF00FF#32 = op := by
  have hmask : ∀ i : Fin 32, 8 ≤ i.val → i.val < 16 → (0xFFFF00FF#32).getLsbD i.val = false := by decide
  have key : (BitVec.ofNat 32 n <<< 8) &&& 0xFFFF00FF#32 = 0#32 := by
    apply BitVec.eq_of_getLsbD_eq
    intro i hi
    rw [BitVec.getLsbD_and, BitVec.getLsbD_shiftLeft, BitVec.getLsbD_ofNat, BitVec.getLsbD_zero]
    by_cases h8 : i < 8
    · simp [h8]
    by_cases h16 : i < 16
    · rw [hmask ⟨i, hi⟩ (by simpa using h8) h16, Bool.and_false]
    · have : n.testBit (i - 8) = false :=
        Nat.testBit_lt_two_pow (Nat.lt_of_lt_of_le h (Nat.pow_le_pow_right (n := 2) (i := 8) (by decide) (by omega)))
      simp [this]
  rw [BitVec.and_or_distrib_right, hop, key, BitVec.or_zero]

theorem nop : Statement .nop := fun _ => rfl
theorem gfMul : Statement .gfMul := fun _ => rfl
theorem rsDiv (deg : Nat) : Statement (.rsDiv deg) := fun h => byte_row 2#32 deg (by simpa [Instr.wellFormed] using h) rfl
theorem rsRem : Statement .rsRem := fun _ => rfl
theorem rsEnc : Statement .rsEnc := fun _ => rfl
theorem pkClr : Statement .pkClr := fun _ => rfl
theorem pkApp (n : Nat) : Statement (.pkApp n) := fun h => byte_row 17#32 n (by simpa [Instr.wellFormed] using h) rfl
theorem pkFin : Statement .pkFin := fun _ => rfl
theorem ilRun : Statement .ilRun := fun _ => rfl
theorem mkFmt (m : Fin 8) : Statement (.mkFmt m) := fun _ => by revert m; decide
theorem mkScore (m : Fin 8) : Statement (.mkScore m) := fun _ => by revert m; decide
theorem mkApply (m : Fin 8) : Statement (.mkApply m) := fun _ => by revert m; decide
theorem mkSel : Statement .mkSel := fun _ => rfl

end TableRow

end Sys2Proof.Laws
end

