-- ==== Sys2Proof/Machine/HostProgram.lean ====
section
/-! DEFINITION. The assembler's form of a command and of a host program (30_encoding.md R97 to R99): a host program as the
clock edges it makes. -/

namespace Sys2Proof.Machine

/-- The mnemonic of a command (30_encoding.md R92). -/
def mnemonic : Instr → String
  | .nop => "NOP"
  | .gfMul => "GF.MUL"
  | .rsDiv _ => "RS.DIV"
  | .rsRem => "RS.REM"
  | .rsEnc => "RS.ENC"
  | .pkClr => "PK.CLR"
  | .pkApp _ => "PK.APP"
  | .pkFin => "PK.FIN"
  | .ilRun => "IL.RUN"
  | .mkFmt _ => "MK.FMT"
  | .mkScore _ => "MK.SCORE"
  | .mkApply _ => "MK.APPLY"
  | .mkSel => "MK.SEL"

/-- R97: a class M immediate, 0..7. -/
def maskOperand (mk : Fin 8 → Instr) (m : Nat) : Option Instr := if h : m < 8 then some (mk ⟨m, h⟩) else none

/-- R97: a class B immediate, 0..255. -/
def byteOperand (mk : Nat → Instr) (n : Nat) : Option Instr := if n < 256 then some (mk n) else none

/-- R97: the command a mnemonic with or without an immediate stands for; a form with an immediate of the wrong class is
rejected. -/
def parseCommand (name : String) (imm : Option Nat) : Option Instr :=
  match imm with
  | none => [Instr.nop, .gfMul, .rsRem, .rsEnc, .pkClr, .pkFin, .ilRun, .mkSel].find? fun i => mnemonic i == name
  | some n =>
    if name == "RS.DIV" then byteOperand .rsDiv n
    else if name == "PK.APP" then byteOperand .pkApp n
    else if name == "MK.FMT" then maskOperand .mkFmt n
    else if name == "MK.SCORE" then maskOperand .mkScore n
    else if name == "MK.APPLY" then maskOperand .mkApply n
    else none

/-- One line of a host program (R98); `wait` is the WAIT of R99 with the number of STATUS reads it makes. -/
inductive HostOp where
  | w (addr : BitVec 16) (v : Word)
  | r (addr : BitVec 16)
  | c (i : Instr)
  | wait (polls : Nat)
deriving DecidableEq, Repr

/-- The bus address of CMD, STATUS and ARG0 (10_state.md section 2). -/
def cmdAddr : BitVec 16 := 0x00C
def statusAddr : BitVec 16 := 0x008
def arg0Addr : BitVec 16 := 0x010

/-- The edges of one transfer: a setup cycle, in which none takes effect, and the access cycle (20_memory.md R64). -/
def transferEdges (e : HostEdge) : List HostEdge := [.quiet, e]

/-- The edges a line of a host program makes (R98, R99). -/
def HostOp.edges : HostOp → List HostEdge
  | .w a v => transferEdges (.write a v)
  | .r a => transferEdges (.read a)
  | .c i => transferEdges (.write cmdAddr (encode i))
  | .wait polls => (List.replicate polls (transferEdges (.read statusAddr))).flatten

/-- DO <command> (R99). -/
def doCommand (i : Instr) (polls : Nat) : List HostOp := [.c i, .wait polls]

/-- APPEND <n>, <v> (R99). -/
def appendField (n : Nat) (v : Word) (polls : Nat) : List HostOp := .w arg0Addr v :: doCommand (.pkApp n) polls

/-- CLRST (R99): clear DONE and ERR. -/
def clearStatus : List HostOp := [.w statusAddr 0x00000006]

/-- LOADW <base>, <w0>, <w1>, ... (R99). -/
def loadWords : BitVec 16 → List Word → List HostOp
  | _, [] => []
  | base, v :: vs => .w base v :: loadWords (base + 4) vs

/-- A host program as the edges it makes. -/
def programEdges (p : List HostOp) : List HostEdge := p.flatMap HostOp.edges

end Sys2Proof.Machine
end

