-- ==== Sys2Proof/Tests/Slice0.lean ====
section
/-! SUPPORT. Tests on fixed values, the expected ones read from 95_test_vectors.md or written out from the rule named; and
for every statement with hypotheses a witness that meets them. -/

namespace Sys2Proof.Tests

open Sys2Proof Sys2Proof.Machine Sys2Proof.Claims

/-! ## Well-formedness: each check refuses an ill-formed term -/

theorem test_wellFormed_rsDiv : (Instr.rsDiv 256).wellFormed = false ∧ (Instr.rsDiv 255).wellFormed = true := by decide

theorem test_wellFormed_pkApp : (Instr.pkApp 256).wellFormed = false ∧ (Instr.pkApp 255).wellFormed = true := by decide

/-! ## Decoding: words written out from 30_encoding.md R90 to R92, RSV A8 OP -/

theorem test_decode_classZ :
    decode 0b0000000000000000_00000000_00000000 = .ok .nop ∧
    decode 0b0000000000000000_00000000_00000001 = .ok .gfMul ∧
    decode 0b0000000000000000_00000000_00000011 = .ok .rsRem ∧
    decode 0b0000000000000000_00000000_00000100 = .ok .rsEnc ∧
    decode 0b0000000000000000_00000000_00010000 = .ok .pkClr ∧
    decode 0b0000000000000000_00000000_00010010 = .ok .pkFin ∧
    decode 0b0000000000000000_00000000_00100000 = .ok .ilRun ∧
    decode 0b0000000000000000_00000000_00110011 = .ok .mkSel := by decide

theorem test_decode_classB :
    decode 0b0000000000000000_00001010_00000010 = .ok (.rsDiv 10) ∧
    decode 0b0000000000000000_11111111_00000010 = .ok (.rsDiv 255) ∧
    decode 0b0000000000000000_00001011_00010001 = .ok (.pkApp 11) ∧
    decode 0b0000000000000000_00000000_00010001 = .ok (.pkApp 0) := by decide

theorem test_decode_classM :
    decode 0b0000000000000000_00000111_00110000 = .ok (.mkFmt 7) ∧
    decode 0b0000000000000000_00000101_00110001 = .ok (.mkScore 5) ∧
    decode 0b0000000000000000_00000001_00110010 = .ok (.mkApply 1) := by decide

/-- The illegal words of 95_test_vectors.md section 2.1. -/
theorem test_decode_illegal :
    decode 0x00000100 = .error .classZOperand ∧ decode 0x00010000 = .error .reservedField ∧
    decode 0x00000005 = .error .reservedOp ∧ decode 0x00000040 = .error .reservedOp ∧
    decode 0x000000FF = .error .reservedOp ∧ decode 0x00000831 = .error .classMOperand := by decide

/-- The command words of 95_test_vectors.md section 3. -/
theorem test_encode :
    encode .gfMul = 0x00000001 ∧ encode (.rsDiv 10) = 0x00000A02 ∧ encode (.pkApp 33) = 0x00002111 ∧
    encode (.mkScore 7) = 0x00000731 ∧ encode .mkSel = 0x00000033 := by decide

theorem test_decodeTableWord :
    decodeTableWord 32 0x00000A02 = some (.rsDiv 10) ∧ decodeTableWord 32 0x00000005 = none := by decide

/-- 30_encoding.md R97: forms with an immediate of the wrong class are rejected. -/
theorem test_parseCommand :
    parseCommand "RS.DIV" (some 10) = some (.rsDiv 10) ∧ parseCommand "RS.DIV" none = none ∧
    parseCommand "NOP" (some 0) = none ∧ parseCommand "MK.FMT" (some 8) = none := by decide

/-- 30_encoding.md R99: APPEND 11, 0x30B with one poll. -/
theorem test_appendField :
    programEdges (appendField 11 0x30B 1) =
      [.quiet, .write 0x010 0x30B, .quiet, .write 0x00C 0x00000B11, .quiet, .read 0x008] := by decide

/-! ## Commands -/

/-- What `f` sees in the next state. -/
def after {α : Type} (r : Result) (f : State → α) : Option α :=
  match r with
  | .next t => some (f t)
  | .fault _ => none
  | .refused _ => none

/-- `s` with `bs` written from bus address `a`. -/
def withBytes (s : State) (a : Nat) (bs : List Byte) : State := { s with mem := s.mem.writeBlock a bs }

/-- A state with the configuration word `v` in BCFG. -/
def withBcfg (v : Word) : State := { State.reset with bcfg := Bcfg.ofWord v }

theorem test_nop : after (exec .nop State.reset) State.statusWord = some 0x00000002 := by decide

/-- 95_test_vectors.md section 2.2. -/
theorem test_gfMul_reduces : after (exec .gfMul { State.reset with arg0 := 0x00008002 }) State.result = some 0x1D := by decide
theorem test_gfMul_ignores_high :
    after (exec .gfMul { State.reset with arg0 := 0xFFFFCA53 }) State.result = some 0x8F := by decide

/-- 95_test_vectors.md section 2.3. -/
theorem test_rsDiv_10 :
    after (exec (.rsDiv 10) State.reset) (fun t => (t.divWord 0, t.divWord 1, t.divWord 2, t.divWord 3, t.divDeg)) =
      some (0x6F9FC2D8, 0x715F5EC7, 0x0000C19D, 0, 10) := by decide +kernel
theorem test_rsDiv_31 : after (exec (.rsDiv 31) State.reset) State.statusWord = some 0x00000306 := by decide

/-- 95_test_vectors.md section 2.4: FF with the divisor 03 02 gives 1C E3. -/
theorem test_rsRem :
    after (exec .rsRem (withBytes { State.reset.loadDivisor 2 with rsSrc := 7, rsLen := 1, rsDst := 4094 } 0x1007 [0xFF]))
      (fun t => [t.mem.emem 4094, t.mem.emem 4095]) = some [0x1C, 0xE3] := by decide
/-- RS_DST = 4095 with degree 2 is out of range. -/
theorem test_rsRem_range :
    after (exec .rsRem { State.reset.loadDivisor 2 with rsDst := 4095 }) State.statusWord = some 0x00000406 := by decide

/-- 95_test_vectors.md section 2.6: the three blocks of BCFG 0x02020102. -/
def threeBlocks : State := withBytes (withBcfg 0x02020102) 0x1000 [0xA0, 0xA1, 0xB0, 0xB1, 0xC0, 0xC1, 0xC2]
theorem test_rsEnc :
    after (exec .rsEnc threeBlocks) (fun t => (t.mem.readBlock 0x2000 6, t.divDeg)) =
      some ([0xB9, 0xB8, 0xF9, 0xF8, 0x12, 0xD1], 2) := by decide
theorem test_ilRun :
    after (exec .ilRun (withBytes threeBlocks 0x2000 [0xB9, 0xB8, 0xF9, 0xF8, 0x12, 0xD1]))
      (fun t => (t.mem.readBlock 0x3000 13, t.result)) =
      some ([0xA0, 0xB0, 0xC0, 0xA1, 0xB1, 0xC1, 0xC2, 0xB9, 0xF9, 0x12, 0xB8, 0xF8, 0xD1], 13) := by decide
theorem test_ilRun_invalid : after (exec .ilRun State.reset) State.statusWord = some 0x00000706 := by decide

theorem test_pkClr : after (exec .pkClr { State.reset with pkBitlen := 74 }) State.pkBitlen = some 0 := by decide

/-- 95_test_vectors.md section 2.5: APPEND 9, 0xB after four bits 0010 leaves 20 58, 13 bits. -/
theorem test_pkApp :
    after (exec (.pkApp 9) (withBytes { State.reset with arg0 := 0xB, pkBitlen := 4 } 0x1000 [0x20]))
      (fun t => (t.mem.readBlock 0x1000 2, t.pkBitlen)) = some ([0x20, 0x58], 13) := by decide
theorem test_pkApp_33 : after (exec (.pkApp 33) State.reset) State.statusWord = some 0x00000906 := by decide

/-- 95_test_vectors.md section 2.5: DATA_CW = 6, the field 0101. -/
theorem test_pkFin :
    after (exec .pkFin (withBytes { withBcfg 0x01060001 with pkBitlen := 4 } 0x1000 [0x50]))
      (fun t => (t.mem.readBlock 0x1000 6, t.result, t.pkBitlen)) =
      some ([0x50, 0xEC, 0x11, 0xEC, 0x11, 0xEC], 5, 48) := by decide +kernel
theorem test_pkFin_tooLong :
    after (exec .pkFin { withBcfg 0x01010001 with pkBitlen := 9 }) (fun t => (t.statusWord, t.pkBitlen)) =
      some (0x00000606, 9) := by decide

/-- 95_test_vectors.md section 2.7. -/
theorem test_mkFmt : after (exec (.mkFmt 7) State.reset) State.result = some 0x6976 := by decide
theorem test_formatWord_H : fmtWord (eclCode 3) 4 = 0x0762 := by decide

theorem test_maskBit_7 :
    (List.range 6).map (fun c => maskBit 7 1 c) = [false, false, false, true, true, true] ∧
    (List.range 6).map (fun c => maskBit 5 2 c) = [true, false, false, true, false, false] := by decide

theorem test_formatCells :
    formatCell1 8 = (8, 7) ∧ formatCell2 21 8 = (14, 8) ∧ formatCell1 14 = (8, 0) ∧ formatCell2 21 14 = (20, 8) ∧
    formatCell2 21 0 = (8, 20) ∧ darkCell 21 = (13, 8) := by decide

/-- 95_test_vectors.md section 2.8. -/
def lineOf (n k : Nat) : List Bool := (List.range n).map fun i => k.testBit (n - 1 - i)
theorem test_lineRuns :
    lineRuns (lineOf 4 0xF) = 0 ∧ lineRuns (lineOf 5 0x1F) = 3 ∧ lineRuns (lineOf 6 0x3F) = 4 ∧
    lineRuns (lineOf 10 0) = 8 := by decide
theorem test_finderCount :
    finderCount (padLine (lineOf 21 0b101110100000000000000)) = 2 ∧
    finderCount (padLine (lineOf 21 0b000010111011000000000)) = 1 ∧
    finderCount (padLine (lineOf 21 0b110111010000000000000)) = 1 ∧
    finderCount (padLine (lineOf 21 0b000010111010111010000)) = 2 := by decide
theorem test_balance :
    balance 198 441 = 10 ∧ balance 199 441 = 0 ∧ balance 0 441 = 100 ∧ balance 375 625 = 20 ∧ balance 374 625 = 10 := by
  decide

/-- 60_exceptions.md R191: BAD_QCFG with QCFG = 0 (95_test_vectors.md section 2.1). -/
theorem test_mkScore_invalid : after (exec (.mkScore 7) State.reset) State.statusWord = some 0x00000806 := by decide
theorem test_mkApply_invalid : after (exec (.mkApply 7) State.reset) State.statusWord = some 0x00000806 := by decide
theorem test_mkSel_invalid : after (exec .mkSel State.reset) State.statusWord = some 0x00000806 := by decide

/-- 44_mask.md R173: ties go to the lowest index. -/
theorem test_leastMask :
    leastMask #v[9, 375, 739, 60, 393, 386, 406, 123] = 0 ∧ leastMask #v[5, 4, 4, 9, 4, 9, 9, 9] = 1 := by decide

/-- 44_mask.md R172: MK.APPLY 3 gives MSEL = 0x100 | 3 and RESULT = 3, from version 1. -/
theorem test_mkApply_msel :
    after (exec (.mkApply 3) { State.reset with qcfg := { ver := 1, ecl := 0 } }) (fun t => (t.msel.word, t.result)) =
      some (0x00000103, 3) := by rfl

/-- 95_test_vectors.md section 2.9: the all-light version 1 at level L, rows 0 .. 20 of MOD and FUNC 0. -/
def allLight : State :=
  withBytes (withBytes { State.reset with qcfg := { ver := 1, ecl := 0 } } 0x4000 (List.replicate 672 0)) 0x6000
    (List.replicate 672 0)
theorem test_mkScore :
    after (exec (.mkScore 2) allLight) (fun t => (t.pen[2].p1, t.pen[2].p2, t.pen[2].p3, t.pen[2].p4, t.pen[2].total)) =
      some (362, 357, 0, 20, 739) := by decide +kernel
theorem test_mkApply_final :
    after (exec (.mkApply 0) allLight) (fun t => (t.mem.readWord 0x8000, t.mem.readWord 0x80E0)) =
      some (0x00155455, 0x000AABAA) := by decide +kernel

/-! ## The bus and the step -/

/-- 95_test_vectors.md program P1's first command: the step right after its acceptance runs it. -/
theorem test_step_runs_first :
    after (step (State.reset.withFetchWord 32 0x00000A02)) (fun t => (t.statusWord, t.divDeg)) =
      some (0x00020002, 10) := by decide

/-- 95_test_vectors.md section 2.1: an illegal word. -/
theorem test_step_illegal :
    after (step (State.reset.withFetchWord 32 0x00000831)) State.statusWord = some 0x00310106 := by decide

/-- 10_state.md R32 and R33, read back over the bus: BCFG 0x120F0202. -/
theorem test_bus_bcfg :
    (busRead 0x020 (busWrite 0x01C 0x120F0202 State.reset).1).1 = 62 ∧
    (busRead 0x024 (busWrite 0x01C 0x120F0202 State.reset).1).1 = 72 ∧
    (busRead 0x028 (busWrite 0x01C 0x120F0202 State.reset).1).1 = 134 ∧
    (busRead 0x02C (busWrite 0x01C 0x120F0202 State.reset).1).1 = 1 := by decide

/-- 20_memory.md R66: byte i of a word is bits 8i+7:8i. -/
theorem test_bus_lanes :
    (busWrite 0x1006 0x780B5B20 State.reset).1.mem.readBlock 0x1004 4 = [0x20, 0x5B, 0x0B, 0x78] := by decide

/-- 20_memory.md R68, R69: FINAL row 177 reads 0 with no error; 0x0048 is unmapped. -/
theorem test_bus_map : busRead 0x9620 State.reset = (0, false) ∧ busRead 0x0048 State.reset = (0, true) := by decide

/-- 20_memory.md R64: a transfer takes effect in its access cycle only; PRESETn = 0 comes first. -/
theorem test_pins :
    HostEdge.ofPins ⟨true, true, true, false, 0x008, 0⟩ = .read 0x008 ∧
    HostEdge.ofPins ⟨true, true, false, true, 0x00C, 1⟩ = .quiet ∧
    HostEdge.ofPins ⟨false, true, true, true, 0x00C, 1⟩ = .resetLow := by decide

/-- 70_reset_and_hazards.md R210: the first edge with PRESETn = 1 takes no transfer, the second does. -/
theorem test_leaving_reset :
    after (step { State.reset with resp := .inReset, host := [.write 0x010 7] }) State.arg0 = some 0 ∧
    after (step { State.reset with resp := .noTransfer, host := [.write 0x010 7] }) State.arg0 = some 7 := by decide

/-! ## Witnesses: for each statement with hypotheses, values that meet them -/

/-- The word `w` accepted, `left` edges to go, the host's coming edges `h`. -/
def running (w : Word) (left : Nat) (h : List HostEdge) : State :=
  { State.reset with
    cmd := w, status := { done := false, err := false, errcode := .none, lastop := w.extractLsb' 0 8 }
    phase := .busy left, host := h }

theorem witness_encodeThenDecode : (Instr.rsDiv 255).wellFormed = true ∧ (Instr.mkSel).wellFormed = true := by decide

theorem witness_decodedWord : decode 0x0000FF11 = .ok (.pkApp 255) ∧ decode 0x00000732 = .ok (.mkApply 7) := by decide

/-- Each clause of R93 at the ends of its ranges, and an idle and a running state. -/
theorem witness_illegalWords :
    (∀ w ∈ ([0x00010000, 0x00000005, 0x0000000F, 0x00000013, 0x0000001F, 0x00000021, 0x0000002F, 0x00000034, 0x000000FF,
      0x00000133, 0x00000830, (running 0x00000100 1 []).cmd] : List Word), IllegalWord w) ∧
    ¬ IllegalWord 0x0000FF02 ∧ State.reset.phase = .idle := by
  simp [IllegalWord, ReservedOp, ClassZOp, ClassMOp, running, State.reset]

theorem witness_stepRuns :
    (running 0x00000020 1 [.quiet]).phase = .busy 1 ∧ decode (running 0x00000020 1 [.quiet]).cmd = .ok .ilRun ∧
    (running 0x00000020 1 [.quiet]).host = [.quiet] ∧ (running 0x00000020 1 []).host = [] ∧
    (running 0x00000020 1 [.read 0x008]).host = [.read 0x008] ∧ HostEdge.read 0x008 ≠ .resetLow ∧
    wordAddr 0x00B = 0x008 ∧ wordAddr 0x010 ≠ 0x008 ∧ wordAddr 0x010 ≠ 0x00C := by decide

theorem witness_cmdWriteAtCompletion :
    (running 0x00000033 1 [.write 0x00F 1]).phase = .busy 1 ∧
    (running 0x00000033 1 [.write 0x00F 1]).host = [.write 0x00F 1] ∧ wordAddr 0x00F = 0x00C := by decide

theorem witness_commandCompletes :
    ({ State.reset with host := [.write 0x00C 0x00000033] } : State).resp ≠ .inReset ∧
    ({ State.reset with host := [.write 0x00C 0x00000033] } : State).phase = .idle ∧
    ({ State.reset with host := [.write 0x00C 0x00000033] } : State).host = [.write 0x00C 0x00000033] ∧
    1 ≤ State.reset.latency 0x00000033 :=
  ⟨by decide, rfl, rfl, Nat.le_add_right 1 _⟩

/-- Writes that are no reset: any address but CTRL's, and CTRL with bit 0 = 0. -/
theorem noReset_write {a : BitVec 16} {v : Word} (h : wordAddr a = 0x004 → v.getLsbD 0 = false) : NoReset (.write a v) :=
  ⟨by simp, fun _ _ e => by cases e; exact h⟩

theorem witness_operandsAreStable :
    (running 0x00000033 2 [.write 0x004 6]).phase = .busy 2 ∧ (1 : Nat) < 2 ∧
    (running 0x00000033 2 [.write 0x004 6]).host = [.write 0x004 6] ∧ NoReset (.write 0x004 6) :=
  ⟨rfl, by decide, rfl, noReset_write (by decide)⟩

theorem witness_resultDoesNotDependOnLatency :
    (running 0x00000033 2 [.write 0x010 1]).phase = .busy (1 + 1) ∧ (running 0x00000033 2 [.write 0x010 1]).host.length = 1 ∧
    ∀ e ∈ (running 0x00000033 2 [.write 0x010 1]).host, NoReset e := by
  refine ⟨rfl, rfl, fun e h => ?_⟩
  cases List.mem_singleton.mp h
  exact noReset_write (by decide)

theorem witness_stepTakesTheHostTransfer :
    ({ State.reset with host := [.read 0] } : State).phase = .idle ∧ (running 0 2 [.read 0]).phase = .busy 2 ∧
    (running 0 2 [.read 0]).host = [.read 0] ∧
    ({ State.reset with host := [.read 0] } : State).resp ≠ .inReset ∧ HostEdge.read 0 ≠ .resetLow ∧
    ({ State.reset with host := [.read 0], resp := .inReset } : State).resp = .inReset := by decide

/-- The register blocks at their first and last addresses, and each clause's address. -/
theorem witness_registerReads :
    RegisterAddr 0x000 ∧ RegisterAddr 0x047 ∧ RegisterAddr 0x080 ∧ RegisterAddr 0x11F ∧ RegisterAddr 0x140 ∧
    RegisterAddr 0x15F ∧ ¬ RegisterAddr 0x048 ∧ ¬ RegisterAddr 0x120 ∧ ¬ RegisterAddr 0x160 ∧
    wordAddr 0x047 = 0x044 ∧ wordAddr 0x0FF = 0x08C + 16 * (7 : Fin 8).val ∧ wordAddr 0x0F0 = 0x080 + 16 * (7 : Fin 8).val ∧
    wordAddr 0x0F4 = 0x084 + 16 * (7 : Fin 8).val ∧ wordAddr 0x0F8 = 0x088 + 16 * (7 : Fin 8).val ∧
    wordAddr 0x11F = 0x100 + 4 * (7 : Fin 8).val ∧ wordAddr 0x15F = 0x140 + 4 * (7 : Fin 8).val := by
  unfold RegisterAddr; decide

theorem witness_accessesWhileBusy :
    (running 0 1 []).busy = true ∧ State.reset.busy = false ∧ WindowAddr 0x1000 ∧ WindowAddr 0x9FFF ∧ ConfigAddr 0x010 ∧
    ConfigAddr 0x03F ∧ wordAddr 0x00C = 0x00C ∧ RegisterAddr 0x008 ∧ RegisterAddr 0x15C ∧ wordAddr 0x007 = 0x004 := by
  unfold WindowAddr ConfigAddr RegisterAddr; decide

theorem witness_unmappedAndReadOnly :
    (¬ RegisterAddr 0x048 ∧ ¬ WindowAddr 0x048) ∧ (¬ RegisterAddr 0xFFF ∧ ¬ WindowAddr 0xFFF) ∧
    (¬ RegisterAddr 0xA000 ∧ ¬ WindowAddr 0xA000) ∧ ReadOnlyAddr 0x000 ∧ ReadOnlyAddr 0x044 ∧ ReadOnlyAddr 0x080 ∧
    ReadOnlyAddr 0x11C ∧ ReadOnlyAddr 0x140 ∧ ReadOnlyAddr 0x15C := by
  unfold RegisterAddr WindowAddr ReadOnlyAddr; decide

theorem witness_planeRows :
    0x4000 + 0x1620 ≤ wordAddr 0x5620 ∧ wordAddr 0x5620 < 0x4000 + 0x2000 ∧ 0x8000 + 0x1620 ≤ wordAddr 0x9FFC ∧
    wordAddr 0x9FFC < 0x8000 + 0x2000 ∧ (running 0 1 []).busy = true ∧ State.reset.busy = false := by decide

theorem witness_windows :
    State.reset.phase = .idle ∧ 0x1000 ≤ (0x1000#16).toNat ∧ (0x3FFF#16).toNat < 0x4000 ∧
    0x8000 ∈ [0x4000, 0x6000, 0x8000] ∧ 176 < 177 ∧ 7 < 8 ∧ wordAddr 0x961F = 0x8000 + 32 * 176 + 4 * 7 ∧
    wordAddr 0x4000 = 0x4000 + 32 * 0 + 4 * 0 := by decide

theorem witness_busyOverrun :
    (running 0x00000000 2 []).busy = true ∧ decode (running 0x00000000 2 []).cmd = .ok .nop ∧
    (running 0x00000000 2 []).check .nop = none ∧
    decode (running 0x00000033 2 []).cmd = .ok .mkSel ∧ (running 0x00000033 2 []).check .mkSel = some .badQcfg ∧
    decode (running 0x00000005 2 []).cmd = .error .reservedOp := by decide

theorem witness_statusWrite :
    (running 0x00000000 1 [.write 0x008 6]).phase = .busy 1 ∧
    (running 0x00000000 1 [.write 0x008 6]).host = [.write 0x008 6] ∧
    (running 0x00000000 1 [.write 0x008 6]).check .nop = none ∧
    (running 0x00000033 1 [.write 0x008 6]).check .mkSel = some .badQcfg ∧
    decode (running 0x00000005 1 [.write 0x008 6]).cmd = .error .reservedOp := by decide

theorem witness_resets :
    (1#32).getLsbD 0 = true ∧ (6#32).getLsbD 0 = false ∧ (running 0 1 [.resetLow]).host = [.resetLow] ∧
    RegisterAddr 0x000 ∧ RegisterAddr 0x15C ∧ State.reset.phase = .idle ∧ wordAddr 0x003 = 0 ∧
    (running 0 1 [.resetLow, .write 0x010 7]).host = [.resetLow, .write 0x010 7] ∧ HostEdge.write 0x010 7 ≠ .resetLow := by
  unfold RegisterAddr; decide

/-- Both resets of a running IL.RUN, whose footprint is 0x3000 .. 0x300C. -/
theorem witness_resetKeepsMemory :
    ∃ s : State, s.busy = true ∧ s.footprint = (0x3000, 13) ∧ (1#32).getLsbD 0 = true ∧
      (∃ t, t = (busWrite 0x004 1 s).1) ∧ ∃ t, t = transfer .resetLow s :=
  ⟨{ running 0x00000020 2 [] with bcfg := Bcfg.ofWord 0x02020102 }, by decide, by decide, by decide, ⟨_, rfl⟩, ⟨_, rfl⟩⟩

theorem witness_footprint :
    decode ({ running 0x00000020 1 [] with bcfg := Bcfg.ofWord 0x02020102 } : State).cmd = .ok .ilRun := by decide

/-- A state, not reset's, that meets all three invariants: RS.DIV 2 accepted. It also takes a step. -/
theorem witness_invariants :
    Inv (running 0x00000202 1 []) ∧ Bounded (running 0x00000202 1 []) ∧ (running 0x00000202 1 []).mem.wf = true ∧
    ∃ t, step (running 0x00000202 1 []) = .next t := by
  refine ⟨?_, ?_, rfl, ⟨_, rfl⟩⟩
  · constructor
    case busyHasEdge =>
      intro left h
      cases h
      decide
    all_goals decide
  · constructor <;> decide

theorem witness_nop :
    (running 0x00000100 1 []).cmd.extractLsb' 0 8 = 0 ∧ (running 0x00000100 1 []).cmd ≠ 0 ∧
    (running 0x80000000 1 []).cmd.extractLsb' 0 8 = 0 ∧ (running 0x80000000 1 []).cmd ≠ 0 := by decide

theorem witness_failedCommand : State.reset.check .rsRem = some .badDegree ∧ State.reset.check .mkSel = some .badQcfg := by
  decide

/-- A memory that differs in OMEM alone. -/
theorem witness_noCommandReads :
    ∀ a, ¬ (0x3000 ≤ a ∧ a < 0x4000) → ¬ (0x8000 ≤ a ∧ a < 0xA000) →
      Memory.read [(0x3000, 5)] a = State.reset.mem.read a := by
  intro a h _
  have : (a == 0x3000) = false := by simp; omega
  simp [Memory.read, State.reset, List.lookup, this]

theorem witness_gfIsAField : (0x53 : Byte) ≠ 0 ∧ (0 : Nat) < 254 ∧ 254 < 255 := by decide

theorem witness_degrees : (1 : Nat) ≤ 1 ∧ 1 ≤ 30 ∧ (1 : Nat) ≤ 30 ∧ 30 ≤ 30 ∧ ((0 : Nat) < 1 ∨ 30 < 0) ∧ ((31 : Nat) < 1 ∨ (30 < 31 ∧ 31 < 256)) ∧
    ((255 : Nat) < 1 ∨ (30 < 255 ∧ 255 < 256)) := by
  decide

theorem witness_remainderIsLinear : ([0x01, 0x02] : List Byte).length = ([0x80, 0xFF] : List Byte).length := by decide

/-- The three cases of R127: no divisor, out of range, and the last range that fits. -/
theorem witness_rsRem :
    State.reset.divDeg.toNat < 1 ∧
    ((State.reset.loadDivisor 30).divDeg.toNat = 30 ∧
      4096 < ({ State.reset.loadDivisor 30 with rsDst := 4095 } : State).rsDst.toNat + 30) ∧
    (({ State.reset.loadDivisor 30 with rsSrc := 4095, rsLen := 1, rsDst := 4066 } : State).rsSrc.toNat + 1 ≤ 4096 ∧
      ({ State.reset.loadDivisor 30 with rsSrc := 4095, rsLen := 1, rsDst := 4066 } : State).rsDst.toNat + 30 ≤ 4096) := by
  decide

/-- BCFG valid and not, the valid one with blocks of both groups (95_test_vectors.md section 2.6). -/
theorem witness_blockCfg :
    (withBcfg 0x02020102).bcfg.valid = true ∧ (withBcfg 0x01FF0010).bcfg.valid = true ∧ State.reset.bcfg.valid = false ∧
    (withBcfg 0x02020102).bcfg.nb1.toNat ≤ 2 ∧ 2 < (withBcfg 0x02020102).bcfg.nb := by decide

/-- The three cases of R143 at their boundaries. -/
theorem witness_pkApp :
    (32 : Nat) < 33 ∧ 33 < 256 ∧ 32 < 255 ∧ 255 < 256 ∧ 32768 < ({ State.reset with pkBitlen := 32767 } : State).pkBitlen.toNat + 2 ∧
    ({ State.reset with pkBitlen := 32736 } : State).pkBitlen.toNat + 32 ≤ 32768 ∧
    ({ State.reset with pkBitlen := 32768 } : State).pkBitlen.toNat + 0 ≤ 32768 := by decide

/-- The cases of R144 at their boundaries: one bit too many, exactly full, and empty. -/
theorem witness_pkFin :
    8 * (withBcfg 0x01010001).bcfg.dataCw < ({ withBcfg 0x01010001 with pkBitlen := 9 } : State).pkBitlen.toNat ∧
    ({ withBcfg 0x01010001 with pkBitlen := 8 } : State).pkBitlen.toNat ≤ 8 * (withBcfg 0x01010001).bcfg.dataCw ∧
    (withBcfg 0x01010001).bcfg.valid = true ∧ State.reset.bcfg.valid = false := by decide

/-- Versions 1 and 40 are valid, 0 and 41 are not. -/
def version (v : BitVec 6) : State := { State.reset with qcfg := { ver := v, ecl := 2 } }
theorem witness_version :
    (version 1).qcfg.valid = true ∧ (version 40).qcfg.valid = true ∧ (version 0).qcfg.valid = false ∧
    (version 41).qcfg.valid = false := by decide

theorem witness_scratchCells :
    (version 1).qcfg.valid = true ∧ (version 1).qcfg.side = 21 ∧ ¬ FormatCell 21 6 8 ∧ ¬ FormatCell 21 8 6 ∧
    ¬ FormatCell 21 12 8 ∧ ¬ FormatCell 21 0 0 ∧ FormatCell 21 13 8 := by
  unfold FormatCell; decide

/-- A square matrix of side 21, and its dark count. -/
theorem witness_isSquare :
    IsSquare 21 ((version 1).scratch 0) ∧ 7 ≤ 21 ∧ ∃ dark : Nat, dark =
      ((List.range 21).map fun r => ((List.range 21).filter fun c => ((version 1).scratch 0).at r c).length).sum :=
  ⟨isSquare_scratch (version 1) 0, by decide, ⟨_, rfl⟩⟩

/-- Two states that differ outside the symbol alone. -/
theorem witness_scoresDependOnlyOnTheSymbol :
    ({ version 1 with result := 5 } : State).qcfg = (version 1).qcfg ∧
    ∀ r < (version 1).qcfg.side, ∀ c < (version 1).qcfg.side,
      ({ version 1 with result := 5 } : State).mem.modCell r c = (version 1).mem.modCell r c ∧
      ({ version 1 with result := 5 } : State).mem.funcCell r c = (version 1).mem.funcCell r c :=
  ⟨rfl, fun _ _ _ _ => ⟨rfl, rfl⟩⟩

end Sys2Proof.Tests
end

section
/-! SUPPORT. The validity of the configuration registers (10_state.md R30, R31, R34): when QCFG and BCFG are valid, the bit
of CFG_CHECK that reads QCFG's, and the commands whose check reads BCFG's validity. -/

namespace Sys2Proof.Machine

/-- A failed command's state, in the words of the statements (40_control.md R112). -/
theorem State.fail_eq_afterFailure (s : State) (e : ErrCode) : s.fail e = Claims.afterFailure s e := rfl

theorem Qcfg.side_of_ver {q : Qcfg} {v : BitVec 6} (h : q.ver = v) : q.side = 17 + 4 * v.toNat := by
  rw [Qcfg.side, h]

theorem Qcfg.valid_iff (q : Qcfg) : q.valid = true ↔ 1 ≤ q.ver.toNat ∧ q.ver.toNat ≤ 40 := by
  simp only [Qcfg.valid, Bool.and_eq_true, decide_eq_true_eq]

/-- The conditions of R34 over the derived totals of R33. -/
theorem Bcfg.valid_iff (b : Bcfg) : b.valid = true ↔
    1 ≤ b.nb1.toNat ∧ 1 ≤ b.d1.toNat ∧ 1 ≤ b.ecb.toNat ∧ b.ecb.toNat ≤ 30 ∧
    b.dataCw ≤ 4096 ∧ b.ecCw ≤ 4096 ∧ b.totalCw ≤ 4096 := by
  simp only [Bcfg.valid, Bool.and_eq_true, decide_eq_true_eq, and_assoc]

theorem getLsbD_bitWord (b : Bool) (i : Nat) : (bitWord b).getLsbD i = (decide (i = 0) && b) := by
  simp only [bitWord, BitVec.truncate_eq_setWidth, BitVec.getLsbD_setWidth, BitVec.getLsbD_ofBool]
  by_cases h : i = 0 <;> simp [h]

theorem busRead_cfgCheck (s : State) : busRead 0x02C s = (s.readReg .cfgCheck, false) :=
  busRead_reg (r := .cfgCheck) (by decide) s

/-- CFG_CHECK bit 1 reads QCFG's validity (R31). -/
theorem readReg_cfgCheck_bit_one (s : State) : (s.readReg .cfgCheck).getLsbD 1 = s.qcfg.valid := by
  simp only [State.readReg, BitVec.getLsbD_or, BitVec.getLsbD_shiftLeft, getLsbD_bitWord]
  simp

theorem checkBlockCfg_of_invalid {s : State} (h : s.bcfg.valid = false) : checkBlockCfg s = some .badBlockCfg := by
  simp [checkBlockCfg, h]

theorem checkPkFin_of_invalid {s : State} (h : s.bcfg.valid = false) : checkPkFin s = some .badBlockCfg := by
  simp [checkPkFin, h]

/-- BAD_BLOCK_CFG is the first check of each command that reads BCFG (R34; 60_exceptions.md R192). -/
theorem check_blockReader_of_invalid {s : State} {i : Instr} (hi : i = .rsEnc ∨ i = .pkFin ∨ i = .ilRun)
    (h : s.bcfg.valid = false) : s.check i = some .badBlockCfg := by
  rcases hi with rfl | rfl | rfl
  · exact checkBlockCfg_of_invalid h
  · exact checkPkFin_of_invalid h
  · exact checkBlockCfg_of_invalid h

theorem exec_blockReader_of_invalid {s : State} {i : Instr} (hi : i = .rsEnc ∨ i = .pkFin ∨ i = .ilRun)
    (h : s.bcfg.valid = false) : exec i s = .next (Claims.afterFailure s .badBlockCfg) := by
  rw [exec_of_check_some (check_blockReader_of_invalid hi h), State.fail_eq_afterFailure]

/-- Settles O13: validity register by register, and the failure of the readers of BCFG from the check they share. -/
theorem configurationValidity : Obligations.ConfigurationValidity := by
  refine ⟨fun q => ⟨rfl, Qcfg.side_of_ver, Qcfg.side_of_ver, q.valid_iff⟩, fun s => ?_, Bcfg.valid_iff,
    fun s i => exec_blockReader_of_invalid⟩
  rw [busRead_cfgCheck]
  exact readReg_cfgCheck_bit_one s

end Sys2Proof.Machine
end

section
/-! SUPPORT. The bus by address (20_memory.md R62, R67 to R69): what the address map gives for each class of address the
statements name, and what a read and a write do there, busy or idle. -/

namespace Sys2Proof.Machine
open Sys2Proof.Claims

/-! ### The classes of addresses -/

theorem target_eq_wordAddr (a : BitVec 16) : target a = targetOfWord (wordAddr a / 4) :=
  target_of_word (Nat.mul_div_cancel _ (by decide)).symm

theorem target_of_wordAddr {a : BitVec 16} {x : Nat} (h : wordAddr a = x) : target a = targetOfWord (x / 4) := by
  rw [target_eq_wordAddr, h]

/-- The registers whose write changes nothing in any phase (20_memory.md R68). -/
def Reg.isReadOnly : Reg → Bool
  | .ctrl | .status | .cmd => false
  | r => !r.isConfig

/-- The target is a register with the property `p`. -/
def Target.isRegWith (p : Reg → Bool) : Target → Bool
  | .reg r => p r
  | _ => false

theorem Target.exists_reg_of_isRegWith {p : Reg → Bool} {t : Target} (h : t.isRegWith p = true) :
    ∃ r, t = .reg r ∧ p r = true := by
  cases t with
  | reg r => exact ⟨r, rfl, h⟩
  | mem _ => cases h
  | notStored => cases h
  | unmapped => cases h

/-- A property of the registers at a list of addresses is checked on the list. -/
theorem exists_reg_of_mem {p : Reg → Bool} {addrs : List Nat} {a : BitVec 16} (ha : wordAddr a ∈ addrs)
    (hp : ∀ x ∈ addrs, (targetOfWord (x / 4)).isRegWith p = true) : ∃ r, target a = .reg r ∧ p r = true := by
  rw [target_eq_wordAddr]
  exact Target.exists_reg_of_isRegWith (hp _ ha)

theorem target_configAddr {a : BitVec 16} (h : ConfigAddr a) : ∃ r, target a = .reg r ∧ r.isConfig = true :=
  exists_reg_of_mem h (by decide)

theorem targetOfWord_penBlock {w : Nat} (h : 32 ≤ w) (h' : w < 64) : ∃ m k, targetOfWord w = .reg (.pen m k) := by
  obtain ⟨m, k, rfl⟩ : ∃ (m : Fin 8) (k : Fin 4), w = 0x80 / 4 + 4 * m.val + k.val :=
    ⟨⟨(w - 32) / 4, by omega⟩, ⟨(w - 32) % 4, by omega⟩, by dsimp only; omega⟩
  exact ⟨m, k, targetOfWord_pen m k⟩

theorem targetOfWord_pentBlock {w : Nat} (h : 64 ≤ w) (h' : w < 72) : ∃ m, targetOfWord w = .reg (.pent m) := by
  obtain ⟨m, rfl⟩ : ∃ m : Fin 8, w = 0x100 / 4 + m.val := ⟨⟨w - 64, by omega⟩, by dsimp only; omega⟩
  exact ⟨m, targetOfWord_pent m⟩

theorem targetOfWord_divramBlock {w : Nat} (h : 80 ≤ w) (h' : w < 88) : ∃ i, targetOfWord w = .reg (.divram i) := by
  obtain ⟨i, rfl⟩ : ∃ i : Fin 8, w = 0x140 / 4 + i.val := ⟨⟨w - 80, by omega⟩, by dsimp only; omega⟩
  exact ⟨i, targetOfWord_divram i⟩

/-- Above the low block a register is one of PEN, PENT and DIVRAM, all read-only. -/
theorem targetOfWord_upperRegs {w : Nat} (h : (32 ≤ w ∧ w < 72) ∨ (80 ≤ w ∧ w < 88)) :
    ∃ r, targetOfWord w = .reg r ∧ r.isReadOnly = true := by
  rcases h with ⟨h, h'⟩ | ⟨h, h'⟩
  · rcases Nat.lt_or_ge w 64 with hw | hw
    · obtain ⟨m, k, ht⟩ := targetOfWord_penBlock h hw
      exact ⟨_, ht, rfl⟩
    · obtain ⟨m, ht⟩ := targetOfWord_pentBlock hw h'
      exact ⟨_, ht, rfl⟩
  · obtain ⟨i, ht⟩ := targetOfWord_divramBlock h h'
    exact ⟨_, ht, rfl⟩

theorem target_upperRegs {a : BitVec 16}
    (h : (0x80 ≤ wordAddr a ∧ wordAddr a < 0x120) ∨ (0x140 ≤ wordAddr a ∧ wordAddr a < 0x160)) :
    ∃ r, target a = .reg r ∧ r.isReadOnly = true := by
  rw [target_eq_wordAddr]
  exact targetOfWord_upperRegs (by omega)

theorem target_readOnlyAddr {a : BitVec 16} (h : ReadOnlyAddr a) : ∃ r, target a = .reg r ∧ r.isReadOnly = true := by
  rcases h with h | h
  · exact exists_reg_of_mem h (by decide)
  · exact target_upperRegs h

theorem target_registerAddr {a : BitVec 16} (h : RegisterAddr a) : ∃ r, target a = .reg r := by
  rcases h with h | h
  · obtain ⟨r, -, hr⟩ := targetOfWord_low (w := wordAddr a / 4) (by omega)
    exact ⟨r, (target_eq_wordAddr a).trans hr⟩
  · obtain ⟨r, hr, -⟩ := target_upperRegs h
    exact ⟨r, hr⟩

theorem target_windowAddr {a : BitVec 16} (h : WindowAddr a) :
    target a = if storedAddr (wordAddr a) then .mem (wordAddr a) else .notStored := by
  obtain ⟨hlo, hhi⟩ := h
  have hw : 4 * (wordAddr a / 4) = wordAddr a := Nat.mul_div_cancel' (Nat.dvd_mul_left 4 _)
  rw [target_eq_wordAddr, targetOfWord_window (by omega) (by omega), hw]

theorem target_windowAddr_cases {a : BitVec 16} (h : WindowAddr a) :
    target a = .mem (wordAddr a) ∨ target a = .notStored := by
  rw [target_windowAddr h]
  exact ite_eq_or_eq _ _ _

theorem target_unmapped {a : BitVec 16} (hr : ¬ RegisterAddr a) (hw : ¬ WindowAddr a) : target a = .unmapped := by
  unfold RegisterAddr at hr
  unfold WindowAddr at hw
  rw [target_eq_wordAddr]
  exact targetOfWord_unmapped (by omega)

/-- The rows past the matrix begin at offset 177 * 32 = 0x1620 of each plane window (20_memory.md R69). -/
theorem target_planeRowPastMatrix {a : BitVec 16} {base : Nat} (hb : base ∈ [0x4000, 0x6000, 0x8000])
    (hlo : base + 0x1620 ≤ wordAddr a) (hhi : wordAddr a < base + 0x2000) : target a = .notStored := by
  have hbase : base = 0x4000 ∨ base = 0x6000 ∨ base = 0x8000 := by simpa using hb
  have hns : storedAddr (wordAddr a) ≠ true := by
    rw [Ne, storedAddr_iff]
    omega
  rw [target_windowAddr ⟨by omega, by omega⟩, if_neg hns]

/-! ### Reads and writes outside the registers -/

section Targets
variable {a : BitVec 16}

theorem busRead_unmapped (h : target a = .unmapped) (s : State) : busRead a s = (0, true) := by
  simp only [busRead, h]

theorem busWrite_unmapped (h : target a = .unmapped) (v : Word) (s : State) : busWrite a v s = (s, true) := by
  simp only [busWrite, h]

theorem busRead_notStored (h : target a = .notStored) (s : State) : busRead a s = (0, s.busy) := by
  cases hb : s.busy <;> simp [busRead, h, hb]

theorem busWrite_notStored (h : target a = .notStored) (v : Word) (s : State) : busWrite a v s = (s, s.busy) := by
  cases hb : s.busy <;> simp [busWrite, h, hb]

theorem busRead_mem {b : Nat} (h : target a = .mem b) (s : State) :
    busRead a s = if s.busy then (0, true) else (s.mem.readWord b, false) := by
  simp only [busRead, h]

theorem busWrite_mem {b : Nat} (h : target a = .mem b) (v : Word) (s : State) :
    busWrite a v s = if s.busy then (s, true) else ({ s with mem := s.mem.writeWord b v }, false) := by
  simp only [busWrite, h]

end Targets

section Windows
variable {a : BitVec 16} (ha : WindowAddr a)
include ha

theorem busRead_window_busy {s : State} (hb : s.busy = true) : busRead a s = (0, true) := by
  rcases target_windowAddr_cases ha with ht | ht
  · rw [busRead_mem ht, if_pos hb]
  · rw [busRead_notStored ht, hb]

theorem busWrite_window_busy {s : State} (hb : s.busy = true) (v : Word) : busWrite a v s = (s, true) := by
  rcases target_windowAddr_cases ha with ht | ht
  · rw [busWrite_mem ht, if_pos hb]
  · rw [busWrite_notStored ht, hb]

theorem busRead_window_idle_noError {s : State} (hb : s.busy = false) : (busRead a s).2 = false := by
  rcases target_windowAddr_cases ha with ht | ht
  · simp [busRead_mem ht, hb]
  · rw [busRead_notStored ht, hb]

theorem busWrite_window_idle_noError {s : State} (hb : s.busy = false) (v : Word) : (busWrite a v s).2 = false := by
  rcases target_windowAddr_cases ha with ht | ht
  · simp [busWrite_mem ht, hb]
  · rw [busWrite_notStored ht, hb]

end Windows

/-! ### Reads and writes of registers -/

theorem writeReg_readOnly {r : Reg} (h : r.isReadOnly = true) (v : Word) (s : State) : writeReg r v s = (s, false) := by
  cases r <;> cases h <;> rfl

theorem writeReg_config_busy {r : Reg} (hr : r.isConfig = true) {s : State} (hb : s.busy = true) (v : Word) :
    writeReg r v s = (s, true) := by
  cases r <;> cases hr <;> simp [writeReg, Reg.isConfig, hb]

theorem writeReg_idle_noError {s : State} (hb : s.busy = false) (r : Reg) (v : Word) : (writeReg r v s).2 = false := by
  rcases writeReg_cases r v s with ⟨-, h⟩ | ⟨-, h⟩ | ⟨-, h⟩ | ⟨-, hb', -⟩ | ⟨-, -, h⟩ | ⟨-, -, -, -, h⟩
  case inr.inr.inl => rw [h, writeCmd, hb]; rfl
  case inr.inr.inr.inl => rw [hb] at hb'; cases hb'
  all_goals rw [h]

theorem writeCtrl_ctrl (v : Word) (s : State) :
    (writeCtrl v s).ctrl = if v.getLsbD 0 then State.reset.ctrl else Ctrl.ofWord v := by
  unfold writeCtrl
  split <;> rfl

theorem writeCtrl_status (v : Word) (s : State) :
    (writeCtrl v s).status = if v.getLsbD 0 then State.reset.status else s.status := by
  unfold writeCtrl
  split <;> rfl

/-- Of the registers only STATUS shows the phase. -/
theorem readReg_phase {r : Reg} (h : r ≠ .status) (s : State) (p : Phase) :
    ({ s with phase := p } : State).readReg r = s.readReg r := by
  cases r with
  | status => exact absurd rfl h
  | _ => rfl

/-- BUSY is bit 0 of STATUS (10_state.md R24). -/
theorem statusWord_busy {s : State} (hb : s.busy = true) :
    s.statusWord = ({ s with phase := .idle } : State).statusWord ||| 1#32 := by
  have hi : ({ s with phase := .idle } : State).busy = false := rfl
  simp only [State.statusWord, hb, hi, show bitWord true = 1#32 from rfl, show bitWord false = 0#32 from rfl,
    BitVec.zero_or, BitVec.or_comm _ 1#32, ← BitVec.or_assoc]

theorem wordAddr_eq_status {a : BitVec 16} : wordAddr a = 0x008 ↔ target a = .reg .status := by
  rw [target_eq_status, wordAddr]
  omega

/-- A register read is taken while a command runs, and shows the value held. -/
theorem busRead_register_busy {s : State} {a : BitVec 16} (ha : RegisterAddr a) (hb : s.busy = true) :
    (busRead a s).2 = false ∧ (busRead a s).1 =
      if wordAddr a = 0x008 then (busRead a { s with phase := .idle }).1 ||| 1#32
      else (busRead a { s with phase := .idle }).1 := by
  obtain ⟨r, ht⟩ := target_registerAddr ha
  rw [busRead_reg ht, busRead_reg ht]
  refine ⟨rfl, ?_⟩
  split_ifs with h8
  · obtain rfl : r = .status := by simpa [ht] using wordAddr_eq_status.mp h8
    exact statusWord_busy hb
  · have hr : r ≠ .status := fun h => h8 (wordAddr_eq_status.mpr (h ▸ ht))
    exact (readReg_phase hr s .idle).symm

theorem busWrite_config_busy {s : State} {a : BitVec 16} (ha : ConfigAddr a) (hb : s.busy = true) (v : Word) :
    busWrite a v s = (s, true) := by
  obtain ⟨r, ht, hr⟩ := target_configAddr ha
  rw [busWrite_reg ht, writeReg_config_busy hr hb]

theorem busWrite_cmd_busy {s : State} {a : BitVec 16} (ha : wordAddr a = 0x00C) (hb : s.busy = true) (v : Word) :
    busWrite a v s = (s.overrun, true) := by
  rw [busWrite_reg (r := .cmd) (target_of_wordAddr ha)]
  exact writeCmd_busy hb v

/-- A write to CTRL or STATUS does to CTRL and the flags the same in every phase. -/
theorem busWrite_flags_phase {a : BitVec 16} (ha : wordAddr a = 0x004 ∨ wordAddr a = 0x008) (v : Word) (s : State)
    (p : Phase) :
    (busWrite a v s).2 = false ∧ (busWrite a v s).1.ctrl = (busWrite a v { s with phase := p }).1.ctrl ∧
      (busWrite a v s).1.status = (busWrite a v { s with phase := p }).1.status := by
  rcases ha with ha | ha
  · simp [busWrite_reg (r := .ctrl) (target_of_wordAddr ha), writeReg, writeCtrl_ctrl, writeCtrl_status]
  · simp [busWrite_reg (r := .status) (target_of_wordAddr ha), writeReg]

theorem access_idle_noError {s : State} {a : BitVec 16} (hb : s.busy = false) (ha : RegisterAddr a ∨ WindowAddr a)
    (v : Word) : (busRead a s).2 = false ∧ (busWrite a v s).2 = false := by
  rcases ha with ha | ha
  · obtain ⟨r, ht⟩ := target_registerAddr ha
    rw [busRead_reg ht, busWrite_reg ht]
    exact ⟨rfl, writeReg_idle_noError hb r v⟩
  · exact ⟨busRead_window_idle_noError ha hb, busWrite_window_idle_noError ha hb v⟩

/-! ### The statements -/

/-- Settles O14: one lemma for each kind of access. -/
theorem accessesWhileBusy : Obligations.AccessesWhileBusy := by
  intro s a v
  refine ⟨fun hb => ⟨?window, ?config, ?cmd, ?register, ?flags⟩, fun hb ha => access_idle_noError hb ha v⟩
  case window => exact fun ha => ⟨busRead_window_busy ha hb, busWrite_window_busy ha hb v⟩
  case config => exact fun ha => busWrite_config_busy ha hb v
  case cmd => exact fun ha => busWrite_cmd_busy ha hb v
  case register => exact fun ha => busRead_register_busy ha hb
  case flags => exact fun ha => busWrite_flags_phase ha v s .idle

/-- Settles O15: the address map gives no target outside the registers and the windows, and at a read-only address a
register that no write changes. -/
theorem unmappedAndReadOnlyAccesses : Obligations.UnmappedAndReadOnlyAccesses := by
  refine fun s a v => ⟨fun hr hw => ?unmapped, fun ha => ?readOnly⟩
  case unmapped =>
    have ht := target_unmapped hr hw
    exact ⟨busRead_unmapped ht s, busWrite_unmapped ht v s⟩
  case readOnly =>
    obtain ⟨r, ht, hr⟩ := target_readOnlyAddr ha
    rw [busWrite_reg ht, writeReg_readOnly hr]

/-- Settles O16: the rows past the matrix are addresses of a window that are not stored, where PSLVERR is BUSY. -/
theorem planeRowsPastTheMatrixAreNotStored : Obligations.PlaneRowsPastTheMatrixAreNotStored := by
  intro s a v base hbase hlo hhi
  have ht := target_planeRowPastMatrix hbase hlo hhi
  rw [busRead_notStored ht, busWrite_notStored ht]
  exact ⟨fun hb => by simp [hb], fun hb => by simp [hb]⟩

end Sys2Proof.Machine
end

section
/-! SUPPORT. Illegal command words (30_encoding.md R90 to R93): the operand classes of the opcodes, which words the decoder
rejects, and the acceptance and the failure of such a word. -/

namespace Sys2Proof.Machine
open Sys2Proof.Claims

/-! ### The fields of a word (R90) -/

theorem opField_lt (w : Word) : opField w < 256 := (w.extractLsb' 0 8).isLt

theorem rsvField_eq_zero_iff (w : Word) : rsvField w = 0 ↔ w.extractLsb' 16 16 = 0 :=
  BitVec.toNat_eq (y := (0 : BitVec 16)).symm

theorem a8Field_eq_zero_iff (w : Word) : a8Field w = 0 ↔ w.extractLsb' 8 8 = 0 :=
  BitVec.toNat_eq (y := (0 : BitVec 8)).symm

/-- A8 is a mask index exactly when its upper five bits are 0 (R91). -/
theorem a8Field_lt_eight_iff (w : Word) : a8Field w < 8 ↔ w.extractLsb' 11 5 = 0 := by
  rw [BitVec.toNat_eq]
  change (w.extractLsb' 8 8).toNat < 8 ↔ (w.extractLsb' 11 5).toNat = 0
  simp only [BitVec.extractLsb'_toNat, Nat.shiftRight_eq_div_pow]
  omega

/-! ### The operand classes (R91, R92) -/

theorem classZ_rejects_iff (a8 : Nat) (i : Instr) : (∃ e, classZ a8 i = .error e) ↔ a8 ≠ 0 := by
  by_cases h : a8 = 0 <;> simp [classZ, h]

theorem classM_rejects_iff (a8 : Nat) (mk : Fin 8 → Instr) : (∃ e, classM a8 mk = .error e) ↔ ¬ a8 < 8 := by
  by_cases h : a8 < 8 <;> simp [classM, h]

theorem classZOp_iff (op : Nat) : ClassZOp op ↔
    op = 0x00 ∨ op = 0x01 ∨ op = 0x03 ∨ op = 0x04 ∨ op = 0x10 ∨ op = 0x12 ∨ op = 0x20 ∨ op = 0x33 := by
  simp only [ClassZOp, List.mem_cons, List.not_mem_nil, or_false]

theorem classMOp_iff (op : Nat) : ClassMOp op ↔ op = 0x30 ∨ op = 0x31 ∨ op = 0x32 := by
  simp only [ClassMOp, List.mem_cons, List.not_mem_nil, or_false]

/-- Every OP is reserved or in one of the classes; RS.DIV and PK.APP are class B. -/
theorem op_class {op : Nat} (h : op < 256) :
    ReservedOp op ∨ ClassZOp op ∨ ClassMOp op ∨ op = 0x02 ∨ op = 0x11 := by
  rw [ReservedOp, classZOp_iff, classMOp_iff]
  omega

theorem not_class_of_reservedOp {op : Nat} (h : ReservedOp op) : ¬ ClassZOp op ∧ ¬ ClassMOp op := by
  rw [ReservedOp] at h
  rw [classZOp_iff, classMOp_iff]
  omega

theorem not_classZ_of_classM {op : Nat} (h : ClassMOp op) : ¬ ClassZOp op := by
  rw [classMOp_iff] at h
  rw [classZOp_iff]
  omega

theorem not_class_of_classB {op : Nat} (h : op = 0x02 ∨ op = 0x11) :
    ¬ ReservedOp op ∧ ¬ ClassZOp op ∧ ¬ ClassMOp op := by
  rw [ReservedOp, classZOp_iff, classMOp_iff]
  omega

theorem decodeOp_of_reserved {op : Nat} (h : ReservedOp op) (a8 : Nat) : decodeOp op a8 = .error .reservedOp := by
  rw [ReservedOp] at h
  unfold decodeOp
  split
  case h_14 => rfl
  all_goals omega

theorem decodeOp_of_classZ {op : Nat} (h : ClassZOp op) (a8 : Nat) : ∃ i, decodeOp op a8 = classZ a8 i := by
  rcases (classZOp_iff op).mp h with rfl | rfl | rfl | rfl | rfl | rfl | rfl | rfl <;> exact ⟨_, rfl⟩

theorem decodeOp_of_classM {op : Nat} (h : ClassMOp op) (a8 : Nat) : ∃ mk, decodeOp op a8 = classM a8 mk := by
  rcases (classMOp_iff op).mp h with rfl | rfl | rfl <;> exact ⟨_, rfl⟩

theorem decodeOp_of_classB {op : Nat} (h : op = 0x02 ∨ op = 0x11) (a8 : Nat) : ∃ i, decodeOp op a8 = .ok i := by
  rcases h with rfl | rfl <;> exact ⟨_, rfl⟩

/-! ### What the decoder rejects (R93) -/

theorem decodeOp_rejects_iff {op : Nat} (hop : op < 256) (a8 : Nat) : (∃ e, decodeOp op a8 = .error e) ↔
    ReservedOp op ∨ (ClassZOp op ∧ a8 ≠ 0) ∨ (ClassMOp op ∧ ¬ a8 < 8) := by
  rcases op_class hop with hr | hz | hm | hb
  · simp [decodeOp_of_reserved hr, hr]
  · obtain ⟨i, hi⟩ := decodeOp_of_classZ hz a8
    have hr : ¬ ReservedOp op := fun h => (not_class_of_reservedOp h).1 hz
    have hm : ¬ ClassMOp op := fun h => not_classZ_of_classM h hz
    rw [hi, classZ_rejects_iff]
    simp [hr, hz, hm]
  · obtain ⟨mk, hmk⟩ := decodeOp_of_classM hm a8
    have hr : ¬ ReservedOp op := fun h => (not_class_of_reservedOp h).2 hm
    rw [hmk, classM_rejects_iff]
    simp [hr, not_classZ_of_classM hm, hm]
  · obtain ⟨i, hi⟩ := decodeOp_of_classB hb a8
    simp [hi, not_class_of_classB hb]

theorem decode_rejects_iff (w : Word) : (∃ e, decode w = .error e) ↔
    rsvField w ≠ 0 ∨ ∃ e, decodeOp (opField w) (a8Field w) = .error e := by
  by_cases h : rsvField w = 0 <;> simp [decode, h]

theorem illegalWord_iff_fields (w : Word) : IllegalWord w ↔
    rsvField w ≠ 0 ∨ ReservedOp (opField w) ∨ (ClassZOp (opField w) ∧ a8Field w ≠ 0) ∨
      (ClassMOp (opField w) ∧ ¬ a8Field w < 8) := by
  rw [Ne, rsvField_eq_zero_iff, Ne, a8Field_eq_zero_iff, a8Field_lt_eight_iff]
  rfl

theorem decode_rejects_iff_illegalWord (w : Word) : (∃ e, decode w = .error e) ↔ IllegalWord w := by
  rw [decode_rejects_iff, decodeOp_rejects_iff (opField_lt w), illegalWord_iff_fields]

theorem runAccepted_of_illegalWord {s : State} (h : IllegalWord s.cmd) :
    runAccepted s = .next (afterFailure s .illegalCmd) := by
  obtain ⟨e, he⟩ := (decode_rejects_iff_illegalWord s.cmd).mpr h
  rw [runAccepted_of_reject he, State.fail_eq_afterFailure]

/-- Settles O3: the decoder's rejections are R93's conditions; acceptance does not look at the word, and a rejected word
fails at completion. -/
theorem illegalWordsFailIllegalCmd : Obligations.IllegalWordsFailIllegalCmd := by
  refine ⟨decode_rejects_iff_illegalWord, fun s w _ hidle => ⟨s.accept w, ?_, rfl, rfl, rfl, rfl⟩,
    fun s => runAccepted_of_illegalWord⟩
  rw [busWrite_cmd, writeCmd_idle hidle]

end Sys2Proof.Machine
end

section
/-! SUPPORT. NOP (40_control.md R114): what a decoded word says of its fields, and the word 0 among the words with OP 0. -/

namespace Sys2Proof.Machine
open Sys2Proof.Claims

/-! ### The fields of a decoded word (R90 to R93) -/

theorem classZ_eq_ok {a8 : Nat} {i j : Instr} (h : classZ a8 i = .ok j) : i = j ∧ a8 = 0 := by
  by_cases h0 : a8 = 0
  · simpa [classZ, h0] using h
  · simp [classZ, h0] at h

theorem classM_eq_ok {a8 : Nat} {mk : Fin 8 → Instr} {j : Instr} (h : classM a8 mk = .ok j) :
    ∃ m : Fin 8, mk m = j ∧ a8 = m.val := by
  by_cases h8 : a8 < 8
  · exact ⟨⟨a8, h8⟩, by simpa [classM, h8] using h, rfl⟩
  · simp [classM, h8] at h

/-- A decoded command determines OP and A8: it holds its own opcode and immediate. -/
theorem fields_of_decodeOp {op a8 : Nat} {i : Instr} (h : decodeOp op a8 = .ok i) : op = i.op ∧ a8 = i.imm := by
  unfold decodeOp at h
  split at h
  case h_3 | h_7 => cases h; exact ⟨rfl, rfl⟩
  case h_10 | h_11 | h_12 => obtain ⟨m, rfl, hm⟩ := classM_eq_ok h; exact ⟨rfl, hm⟩
  case h_14 => cases h
  all_goals obtain ⟨rfl, h0⟩ := classZ_eq_ok h; exact ⟨rfl, h0⟩

theorem fields_of_decode {w : Word} {i : Instr} (h : decode w = .ok i) :
    rsvField w = 0 ∧ opField w = i.op ∧ a8Field w = i.imm := by
  by_cases hr : rsvField w = 0
  · rw [decode, if_pos hr] at h
    exact ⟨hr, fields_of_decodeOp h⟩
  · rw [decode, if_neg hr] at h
    cases h

/-! ### The word 0 -/

theorem toNat_eq_fields (w : Word) : w.toNat = opField w + 2 ^ 8 * a8Field w + 2 ^ 16 * rsvField w := by
  have hw : w.toNat < 2 ^ 32 := w.isLt
  simp only [opField, a8Field, rsvField, BitVec.extractLsb'_toNat, Nat.shiftRight_eq_div_pow]
  omega

theorem word_eq_zero_of_fields {w : Word} (hr : rsvField w = 0) (ho : opField w = 0) (ha : a8Field w = 0) : w = 0 :=
  BitVec.eq_of_toNat_eq (by rw [toNat_eq_fields, hr, ho, ha]; rfl)

theorem decode_eq_nop_iff (w : Word) : decode w = .ok .nop ↔ w = 0 := by
  constructor
  · intro h
    obtain ⟨hr, ho, ha⟩ := fields_of_decode h
    exact word_eq_zero_of_fields hr ho ha
  · rintro rfl
    rfl

/-- A word with OP 0 that is not NOP has A8 or RSV not 0, and OP 0 is class Z. -/
theorem illegalWord_of_opField_zero {w : Word} (ho : opField w = 0) (hw : w ≠ 0) : IllegalWord w := by
  rw [illegalWord_iff_fields]
  by_cases hr : rsvField w = 0
  · have hz : ClassZOp (opField w) := by rw [ho, classZOp_iff]; exact .inl rfl
    exact .inr (.inr (.inl ⟨hz, fun ha => hw (word_eq_zero_of_fields hr ho ha)⟩))
  · exact .inl hr

/-- What a successful end does, in the words of the statements (40_control.md R111). -/
theorem State.complete_eq_afterSuccess (s : State) : s.complete = afterSuccess s := rfl

theorem exec_nop (s : State) : exec .nop s = .next (afterSuccess s) := by
  rw [exec_of_check_none (i := .nop) rfl, State.complete_eq_afterSuccess]
  rfl

/-- Settles O35: the fields of NOP are all 0, any other word with OP 0 is illegal, and NOP has neither a check nor an
effect. -/
theorem nopOnlyCompletes : Obligations.NopOnlyCompletes := by
  refine ⟨decode_eq_nop_iff, fun s hop hne => ?_, exec_nop⟩
  have ho : opField s.cmd = 0 := by rw [opField, hop]; rfl
  exact runAccepted_of_illegalWord (illegalWord_of_opField_zero ho hne)

end Sys2Proof.Machine
end

section
/-! SUPPORT. The field of 41_gf_rs.md R120 and R121: a product is one fixed additive map of its first factor, built from
gfDouble, so that multiplications commute with each other; from this the ring laws of R129 item 1. -/

namespace Sys2Proof.Machine

/-! ### One round -/

theorem gfDouble_xor (x y : Byte) : gfDouble (x ^^^ y) = gfDouble x ^^^ gfDouble y := by
  have hpoly : (if (x ^^^ y).getLsbD 7 then 0x11D#9 else 0#9) =
      (if x.getLsbD 7 then 0x11D#9 else 0#9) ^^^ (if y.getLsbD 7 then 0x11D#9 else 0#9) := by
    rw [BitVec.getLsbD_xor]
    cases x.getLsbD 7 <;> cases y.getLsbD 7 <;> rfl
  simp only [gfDouble, hpoly, BitVec.truncate_eq_setWidth, BitVec.setWidth_xor, BitVec.shiftLeft_xor_distrib]
  ac_rfl

theorem gfRound_eq_xor (a b z : Byte) (i : Nat) :
    gfRound a b z i = gfDouble z ^^^ (if b.getLsbD i then a else 0) := by
  cases h : b.getLsbD i <;> simp [gfRound, h]

theorem gfRound_xor (a a' b z z' : Byte) (i : Nat) :
    gfRound (a ^^^ a') b (z ^^^ z') i = gfRound a b z i ^^^ gfRound a' b z' i := by
  have hbit : (if b.getLsbD i then a ^^^ a' else 0) =
      (if b.getLsbD i then a else 0) ^^^ (if b.getLsbD i then a' else 0) := by
    cases b.getLsbD i <;> simp
  rw [gfRound_eq_xor, gfRound_eq_xor, gfRound_eq_xor, gfDouble_xor, hbit]
  ac_rfl

/-- An additive map that commutes with gfDouble commutes with a round. -/
theorem map_gfRound {f : Byte → Byte} (hadd : ∀ x y, f (x ^^^ y) = f x ^^^ f y)
    (hdouble : ∀ z, f (gfDouble z) = gfDouble (f z)) (a b z : Byte) (i : Nat) :
    f (gfRound a b z i) = gfRound (f a) b (f z) i := by
  cases h : b.getLsbD i <;> simp [gfRound, h, hadd, hdouble]

/-! ### The product -/

/-- The rounds from bit 7 down are a right fold over the bits in rising order. -/
theorem gfMul_eq_foldr (a b : Byte) : gfMul a b = (List.range 8).foldr (fun i z => gfRound a b z i) 0 := rfl

theorem foldl_gfRound_xor (a a' b : Byte) (l : List Nat) : ∀ z z' : Byte,
    l.foldl (gfRound (a ^^^ a') b) (z ^^^ z') = l.foldl (gfRound a b) z ^^^ l.foldl (gfRound a' b) z' := by
  induction l with
  | nil => intros; rfl
  | cons i l ih => intro z z'; rw [List.foldl_cons, gfRound_xor, ih]; rfl

theorem gfMul_xor_left (a a' b : Byte) : gfMul (a ^^^ a') b = gfMul a b ^^^ gfMul a' b :=
  foldl_gfRound_xor a a' b _ 0 0

@[simp] theorem zero_gfMul (b : Byte) : gfMul 0#8 b = 0#8 := by
  have h := gfMul_xor_left 0 0 b
  rwa [BitVec.xor_self, BitVec.xor_self] at h

/-- An additive map that commutes with gfDouble multiplies: it moves through a product to the first factor. -/
theorem map_gfMul {f : Byte → Byte} (hadd : ∀ x y, f (x ^^^ y) = f x ^^^ f y)
    (hdouble : ∀ z, f (gfDouble z) = gfDouble (f z)) (a b : Byte) : f (gfMul a b) = gfMul (f a) b := by
  have hzero : f 0 = 0 := by
    have h := hadd 0 0
    rwa [BitVec.xor_self, BitVec.xor_self] at h
  rw [gfMul, gfMul, ← List.foldl_hom f fun z i => (map_gfRound hadd hdouble a b z i).symm, hzero]

theorem gfMul_gfDouble (a b : Byte) : gfMul (gfDouble a) b = gfDouble (gfMul a b) :=
  (map_gfMul gfDouble_xor (fun _ => rfl) a b).symm

theorem gfMul_right_comm (a b c : Byte) : gfMul (gfMul a b) c = gfMul (gfMul a c) b :=
  map_gfMul (f := (gfMul · c)) (fun x y => gfMul_xor_left x y c) (fun z => gfMul_gfDouble z c) a b

/-! ### The identity -/

theorem gfDouble_of_bit_seven {z : Byte} (h : z.getLsbD 7 = false) : gfDouble z = z <<< 1 := by
  simp only [gfDouble, h]
  apply BitVec.eq_of_getLsbD_eq
  intro i hi
  simp [hi]

/-- Each round of 1 ⊗ b takes in one more bit of b. -/
theorem gfRound_one_shiftRight (b : Byte) (i : Nat) : gfRound 1#8 b (b >>> (i + 1)) i = b >>> i := by
  rw [gfRound_eq_xor, gfDouble_of_bit_seven (by simp)]
  apply BitVec.eq_of_getLsbD_eq
  intro k hk
  cases k with
  | zero => cases h : b.getLsbD i <;> simp [h]
  | succ k => cases b.getLsbD i <;> simp [hk, show i + 1 + k = i + (k + 1) by omega]

theorem foldr_gfRound_one (b : Byte) (n : Nat) :
    (List.range n).foldr (fun i z => gfRound 1#8 b z i) (b >>> n) = b := by
  induction n with
  | zero => simp
  | succ n ih => rw [List.range_succ, List.foldr_append, List.foldr_cons, List.foldr_nil, gfRound_one_shiftRight, ih]

@[simp] theorem one_gfMul (b : Byte) : gfMul 1#8 b = b := by
  have hzero : b >>> 8 = 0 := BitVec.ushiftRight_eq_zero (le_refl 8)
  rw [gfMul_eq_foldr, ← hzero, foldr_gfRound_one]

/-! ### The laws of R129 item 1 -/

/-- Both products are the products of 1 by the two factors, in either order. -/
theorem gfMul_comm (a b : Byte) : gfMul a b = gfMul b a := by
  have h := gfMul_right_comm 1#8 a b
  rwa [one_gfMul, one_gfMul] at h

theorem gfMul_assoc (a b c : Byte) : gfMul (gfMul a b) c = gfMul a (gfMul b c) := by
  rw [gfMul_comm a b, gfMul_right_comm, gfMul_comm]

theorem gfMul_xor_right (a b b' : Byte) : gfMul a (b ^^^ b') = gfMul a b ^^^ gfMul a b' := by
  rw [gfMul_comm, gfMul_xor_left, gfMul_comm b, gfMul_comm b']

@[simp] theorem gfMul_zero (a : Byte) : gfMul a 0#8 = 0#8 := by rw [gfMul_comm, zero_gfMul]

@[simp] theorem gfMul_one (a : Byte) : gfMul a 1#8 = a := by rw [gfMul_comm, one_gfMul]

/-! ### GF.MUL (R125) -/

theorem exec_gfMul (s : State) :
    exec .gfMul s = .next (Claims.afterSuccess { s with result := (gfMul s.gfA s.gfB).zeroExtend 32 }) := by
  rw [exec_of_check_none (i := .gfMul) rfl, State.complete_eq_afterSuccess]
  rfl

/-- Settles O38: GF.MUL has no check, its effect is the product of the two operand fields, and the corner cases are the laws
of the product. -/
theorem gfMulWritesTheProduct : Obligations.GfMulWritesTheProduct :=
  ⟨rfl, exec_gfMul, fun a => ⟨gfMul_zero a, zero_gfMul a, gfMul_one a, one_gfMul a⟩, gfMul_comm, by decide, by decide,
    by decide, one_gfMul _⟩

end Sys2Proof.Machine
end

section
/-! SUPPORT. The product of 41_gf_rs.md R121 against R120: the rounds reduce the unreduced product step by step, and each
reduction takes away a multiple of 0x11D. -/

namespace Sys2Proof.Machine
open Sys2Proof.Claims

/-! ### The unreduced product, bit by bit -/

/-- One round without the reduction: multiply by x and add `a` for bit `i` of b. -/
def shiftAdd (a b p i : Nat) : Nat := p <<< 1 ^^^ (if b.testBit i then a else 0)

/-- The terms of the unreduced product for bits 0 .. n-1 of b. -/
def partialPolyMul (a b n : Nat) : Nat :=
  (List.range n).foldl (fun acc i => if b.testBit i then acc ^^^ (a <<< i) else acc) 0

theorem partialPolyMul_succ (a b n : Nat) :
    partialPolyMul a b (n + 1) = partialPolyMul a b n ^^^ (if b.testBit n then a <<< n else 0) := by
  rw [partialPolyMul, List.range_succ, List.foldl_append, List.foldl_cons, List.foldl_nil, ← partialPolyMul]
  cases b.testBit n <;> simp

theorem polyMul_eq_partialPolyMul (a b : Nat) : polyMul a b = partialPolyMul a b 9 := rfl

theorem partialPolyMul_xor (a a' b n : Nat) :
    partialPolyMul (a ^^^ a') b n = partialPolyMul a b n ^^^ partialPolyMul a' b n := by
  induction n with
  | zero => simp [partialPolyMul]
  | succ n ih =>
    rw [partialPolyMul_succ, partialPolyMul_succ, partialPolyMul_succ, ih]
    cases b.testBit n
    · simp
    · simp only [if_true, Nat.shiftLeft_xor_distrib]; ac_rfl

theorem partialPolyMul_shiftLeft (a b k n : Nat) : partialPolyMul (a <<< k) b n = partialPolyMul a b n <<< k := by
  induction n with
  | zero => simp [partialPolyMul]
  | succ n ih =>
    rw [partialPolyMul_succ, partialPolyMul_succ, ih, Nat.shiftLeft_xor_distrib]
    cases b.testBit n
    · simp
    · simp [← Nat.shiftLeft_add, Nat.add_comm]

theorem polyMul_xor (a a' b : Nat) : polyMul (a ^^^ a') b = polyMul a b ^^^ polyMul a' b :=
  partialPolyMul_xor a a' b 9

theorem polyMul_shiftLeft (a b k : Nat) : polyMul (a <<< k) b = polyMul a b <<< k :=
  partialPolyMul_shiftLeft a b k 9

/-- Shift and add from the highest bit down computes the sum of the terms. -/
theorem foldr_shiftAdd (a b n : Nat) : ∀ p, (List.range n).foldr (fun i p => shiftAdd a b p i) p =
    partialPolyMul a b n ^^^ p <<< n := by
  induction n with
  | zero => simp [partialPolyMul]
  | succ n ih =>
    intro p
    have hterm : (if b.testBit n then a else 0) <<< n = if b.testBit n then a <<< n else 0 := by
      cases b.testBit n <;> simp
    rw [List.range_succ, List.foldr_append, List.foldr_cons, List.foldr_nil, ih, partialPolyMul_succ, shiftAdd,
      Nat.shiftLeft_xor_distrib, hterm, ← Nat.shiftLeft_add, Nat.add_comm 1 n]
    ac_rfl

theorem polyMul_eq_foldr_shiftAdd (a : Nat) (b : Byte) :
    polyMul a b.toNat = (List.range 8).foldr (fun i p => shiftAdd a b.toNat p i) 0 := by
  have hbit : b.toNat.testBit 8 = false := Nat.testBit_lt_two_pow b.isLt
  rw [foldr_shiftAdd, polyMul_eq_partialPolyMul, partialPolyMul_succ, hbit]
  simp

/-! ### One reduction -/

/-- gfDouble takes 0x11D off 2z exactly when 2z has degree 8. -/
theorem setWidth_gfDouble (z : Byte) :
    (gfDouble z).setWidth 9 = (z.setWidth 9 <<< 1) ^^^ (if z.getLsbD 7 then 0x11D#9 else 0#9) := by
  apply BitVec.eq_of_getLsbD_eq
  intro i hi
  simp only [gfDouble, BitVec.truncate_eq_setWidth, BitVec.getLsbD_setWidth, hi, decide_true, Bool.true_and]
  by_cases h8 : i < 8
  · simp [h8]
  · have hi8 : i = 8 := by omega
    subst hi8
    rw [BitVec.getLsbD_xor, BitVec.getLsbD_shiftLeft, BitVec.getLsbD_setWidth]
    cases z.getLsbD 7 <;> simp

theorem shiftLeft_toNat_eq_gfDouble (z : Byte) :
    z.toNat <<< 1 = polyMul (if z.getLsbD 7 then 1 else 0) 0x11D ^^^ (gfDouble z).toNat := by
  have hz : z.toNat <<< 1 < 2 ^ 9 := by have := z.isLt; omega
  have hpoly : polyMul (if z.getLsbD 7 then 1 else 0) 0x11D = (if z.getLsbD 7 then 0x11D#9 else 0#9).toNat := by
    cases z.getLsbD 7 <;> rfl
  have h := congrArg BitVec.toNat (setWidth_gfDouble z)
  rw [BitVec.toNat_setWidth_of_le (by decide), BitVec.toNat_xor, BitVec.toNat_shiftLeft,
    BitVec.toNat_setWidth_of_le (by decide), Nat.mod_eq_of_lt hz] at h
  rw [h, hpoly, Nat.xor_comm, Nat.xor_assoc, Nat.xor_self, Nat.xor_zero]

/-- The quotient after one more round: the highest bit of 2z joins it. -/
def quotientStep (q : Nat) (z : Byte) : Nat := q <<< 1 ^^^ (if z.getLsbD 7 then 1 else 0)

theorem quotientStep_lt {q k : Nat} (h : q < 2 ^ k) (z : Byte) : quotientStep q z < 2 ^ (k + 1) := by
  refine Nat.xor_lt_two_pow (by rw [Nat.shiftLeft_eq, Nat.pow_succ]; omega) ?_
  cases z.getLsbD 7
  · exact Nat.two_pow_pos _
  · exact Nat.one_lt_two_pow (by omega)

/-- A round keeps the unreduced product a multiple of 0x11D away from the reduced one. -/
theorem shiftAdd_eq_gfRound (a b z : Byte) (q i : Nat) :
    shiftAdd a.toNat b.toNat (polyMul q 0x11D ^^^ z.toNat) i =
      polyMul (quotientStep q z) 0x11D ^^^ (gfRound a b z i).toNat := by
  have hbit : (if b.toNat.testBit i then a.toNat else 0) = (if b.getLsbD i then a else 0).toNat := by
    rw [BitVec.testBit_toNat]
    cases b.getLsbD i <;> rfl
  rw [shiftAdd, Nat.shiftLeft_xor_distrib, ← polyMul_shiftLeft, shiftLeft_toNat_eq_gfDouble, hbit, quotientStep,
    polyMul_xor, gfRound_eq_xor, BitVec.toNat_xor]
  ac_rfl

theorem foldr_shiftAdd_eq_gfRound (a b : Byte) (n : Nat) : ∀ (q k : Nat) (z : Byte), q < 2 ^ k → ∃ q', q' < 2 ^ (k + n) ∧
    (List.range n).foldr (fun i p => shiftAdd a.toNat b.toNat p i) (polyMul q 0x11D ^^^ z.toNat) =
      polyMul q' 0x11D ^^^ ((List.range n).foldr (fun i z => gfRound a b z i) z).toNat := by
  induction n with
  | zero => exact fun q _ _ hq => ⟨q, hq, rfl⟩
  | succ n ih =>
    intro q k z hq
    obtain ⟨q', hlt, heq⟩ := ih (quotientStep q z) (k + 1) (gfRound a b z n) (quotientStep_lt hq z)
    refine ⟨q', by rwa [show k + (n + 1) = k + 1 + n by omega], ?_⟩
    simp only [List.range_succ, List.foldr_append, List.foldr_cons, List.foldr_nil]
    rw [shiftAdd_eq_gfRound, heq]

/-- Settles O36: the rounds of the product from 0 on, beside those of the unreduced product. -/
theorem gfMulIsThePolynomialProduct : Obligations.GfMulIsThePolynomialProduct := by
  intro a b
  rw [polyMul_eq_foldr_shiftAdd, gfMul_eq_foldr]
  exact foldr_shiftAdd_eq_gfRound a b 8 0 0 0 (by decide)

end Sys2Proof.Machine
end

section
/-! SUPPORT. The divisor as a polynomial (41_gf_rs.md R123): a pass of the loop multiplies by (x + root), and as long as the
top coefficient is 0 nothing is lost; the last pass drops the leading 1. -/

namespace Sys2Proof.Machine
open Sys2Proof.Claims

/-- One step of Horner's rule. -/
def hornerStep (x acc c : Byte) : Byte := gfMul acc x ^^^ c

@[simp] theorem hornerStep_zero (x c : Byte) : hornerStep x 0#8 c = c := by simp [hornerStep]

theorem evalPoly_eq_foldl (p : List Byte) (x : Byte) : evalPoly p x = p.foldl (hornerStep x) 0 := rfl

theorem evalPoly_cons (c x : Byte) (p : List Byte) : evalPoly (c :: p) x = p.foldl (hornerStep x) c := by
  simp [evalPoly_eq_foldl]

/-- Horner's rule on the product by (x + root): with `e` the value before the coefficient `y`, the product's value is
ahead of the polynomial's by `e` times the root. -/
theorem foldl_mulRoot (root x : Byte) (t : List Byte) : ∀ e y : Byte,
    (mulRoot root (y :: t)).foldl (hornerStep x) (hornerStep x e y ^^^ gfMul e root) =
      gfMul (t.foldl (hornerStep x) (hornerStep x e y)) (x ^^^ root) := by
  induction t with
  | nil =>
    intro e y
    simp only [mulRoot_single, List.foldl_cons, List.foldl_nil, hornerStep, gfMul_xor_left, gfMul_xor_right]
    rw [gfMul_right_comm e root x]
    ac_rfl
  | cons z t ih =>
    intro e y
    have hstep : hornerStep x (hornerStep x e y ^^^ gfMul e root) (gfMul y root ^^^ z) =
        hornerStep x (hornerStep x e y) z ^^^ gfMul (hornerStep x e y) root := by
      simp only [hornerStep, gfMul_xor_left]
      rw [gfMul_right_comm e root x]
      ac_rfl
    rw [mulRoot_cons₂, List.foldl_cons, hstep, ih, List.foldl_cons]

/-- A pass multiplies by (x + root); the coefficient it drops is the first one. -/
theorem evalPoly_cons_mulRoot (root x c : Byte) (t : List Byte) :
    evalPoly (c :: mulRoot root (c :: t)) x = gfMul (evalPoly (c :: t) x) (x ^^^ root) := by
  have h := foldl_mulRoot root x t 0#8 c
  rw [hornerStep_zero, zero_gfMul, BitVec.xor_zero] at h
  rw [evalPoly_cons, evalPoly_cons, h]

/-- A pass while the top coefficients are 0: the leading 1 moves up one place. -/
theorem mulRoot_replicate_zero (root : Byte) (t : List Byte) : ∀ m,
    mulRoot root (List.replicate (m + 1) 0 ++ 1 :: t) = List.replicate m 0 ++ 1 :: mulRoot root (1 :: t)
  | 0 => by simp
  | m + 1 => by
    have ih := mulRoot_replicate_zero root t m
    rw [List.replicate_succ, List.cons_append] at ih
    rw [List.replicate_succ, List.replicate_succ, List.cons_append, List.cons_append, mulRoot_cons₂, ih]
    simp

theorem gfAlphaPow_succ (k : Nat) : gfAlphaPow (k + 1) = gfMul (gfAlphaPow k) 0x02 := rfl

/-- One factor of the product over the roots. -/
def rootFactor (x acc : Byte) (i : Nat) : Byte := gfMul acc (x ^^^ gfAlphaPow i)

theorem rootProduct_eq_foldl (n : Nat) (x : Byte) : rootProduct n x = (List.range' 0 n).foldl (rootFactor x) 1 := by
  rw [rootProduct, List.range_eq_range']
  rfl

/-- The passes from the root α^k on multiply by one factor each. -/
theorem evalPoly_divisorLoop (x : Byte) (m : Nat) : ∀ (k : Nat) (t : List Byte),
    evalPoly (1 :: divisorLoop (m + 1) (gfAlphaPow k) (List.replicate m 0 ++ 1 :: t)) x =
      (List.range' k (m + 1)).foldl (rootFactor x) (evalPoly (1 :: t) x) := by
  induction m with
  | zero => exact fun k t => evalPoly_cons_mulRoot (gfAlphaPow k) x 1 t
  | succ m ih =>
    intro k t
    rw [divisorLoop, mulRoot_replicate_zero, ← gfAlphaPow_succ, ih, evalPoly_cons_mulRoot, List.range'_succ (s := k),
      List.foldl_cons, rootFactor]

theorem evalPoly_rsDivisor_succ (m : Nat) (x : Byte) :
    evalPoly (1 :: rsDivisor (m + 1)) x = rootProduct (m + 1) x := by
  have h := evalPoly_divisorLoop x m 0 []
  rwa [evalPoly_cons 1 x [], List.foldl_nil, ← rootProduct_eq_foldl] at h

/-- Settles O39: the loop starts from the polynomial 1 at the root α^0; the bound 30 is not needed. -/
theorem divisorIsTheGeneratorPolynomial : Obligations.DivisorIsTheGeneratorPolynomial := by
  intro n hn _
  obtain ⟨m, rfl⟩ := Nat.exists_eq_succ_of_ne_zero (by omega : n ≠ 0)
  exact ⟨length_rsDivisor _, evalPoly_rsDivisor_succ m⟩

end Sys2Proof.Machine
end

section
/-! SUPPORT. The Reed–Solomon commands (41_gf_rs.md R126 to R128): the word of a class B command, DIVRAM byte by byte, data
bytes read from DMEM, and the place of each block's EC bytes among all that RS.ENC writes. -/

namespace Sys2Proof.Machine
open Sys2Proof.Claims

/-! ### The word of a class B command (R91, R97) -/

theorem toNat_byteOperandWord {op n : Nat} (ho : op < 256) (hn : n < 256) :
    (BitVec.ofNat 32 op ||| BitVec.ofNat 32 n <<< 8).toNat = n * 256 + op := by
  have hshift : n <<< 8 < 2 ^ 32 := by rw [Nat.shiftLeft_eq]; omega
  rw [BitVec.toNat_or, BitVec.toNat_shiftLeft, BitVec.toNat_ofNat, BitVec.toNat_ofNat,
    Nat.mod_eq_of_lt (by omega : op < 2 ^ 32), Nat.mod_eq_of_lt (by omega : n < 2 ^ 32), Nat.mod_eq_of_lt hshift,
    Nat.or_comm, ← Nat.shiftLeft_add_eq_or_of_lt (i := 8) ho, Nat.shiftLeft_eq]

/-- OP and A8 of a word below 2^16 are its two bytes, and RSV is 0. -/
theorem decode_of_toNat {w : Word} {op n : Nat} (ho : op < 256) (hn : n < 256) (hw : w.toNat = n * 256 + op) :
    decode w = decodeOp op n := by
  have hfields := toNat_eq_fields w
  have hop := opField_lt w
  have ha8 : a8Field w < 256 := (w.extractLsb' 8 8).isLt
  rw [decode, if_pos (by omega), show opField w = op by omega, show a8Field w = n by omega]

theorem decode_byteOperandWord {op n : Nat} (ho : op < 256) (hn : n < 256) :
    decode (BitVec.ofNat 32 op ||| BitVec.ofNat 32 n <<< 8) = decodeOp op n :=
  decode_of_toNat ho hn (toNat_byteOperandWord ho hn)

/-! ### RS.DIV (R126) -/

/-- DIVRAM with a divisor loaded: its bytes, then 0. -/
theorem getElem_divramOf (d : List Byte) (j : Fin 32) :
    (divramOf d)[j] = if j.val < d.length then d.getD j.val 0 else 0 := by
  have hget : (divramOf d)[j] = d.getD j.val 0 := by simp [divramOf]
  by_cases h : j.val < d.length
  · rw [hget, if_pos h]
  · rw [hget, if_neg h, List.getD_eq_default _ _ (by omega)]

theorem exec_rsDiv_of_degree {deg : Nat} (h1 : 1 ≤ deg) (h30 : deg ≤ 30) (s : State) :
    exec (.rsDiv deg) s = .next (afterSuccess (s.loadDivisor deg)) := by
  have hcheck : s.check (.rsDiv deg) = none := if_neg (by omega)
  rw [exec_of_check_none hcheck, State.complete_eq_afterSuccess]
  rfl

theorem exec_rsDiv_of_badDegree {deg : Nat} (h : deg < 1 ∨ 30 < deg) (s : State) :
    exec (.rsDiv deg) s = .next (afterFailure s .badDegree) := by
  have hcheck : s.check (.rsDiv deg) = some .badDegree := if_pos h
  rw [exec_of_check_some hcheck, State.fail_eq_afterFailure]

/-- Settles O42: the check on the degree decides, and the effect is the divisor loaded. -/
theorem rsDivLoadsTheDivisor : Obligations.RsDivLoadsTheDivisor := by
  refine ⟨fun deg h => decode_byteOperandWord (op := 2) (by decide) h, fun s deg => ⟨fun h1 h30 => ?_, fun h => ?_⟩⟩
  · refine ⟨_, exec_rsDiv_of_degree h1 h30 s, rfl, Nat.mod_eq_of_lt (by omega), fun j => ?_⟩
    have hget := getElem_divramOf (rsDivisor deg) j
    rwa [length_rsDivisor] at hget
  · exact exec_rsDiv_of_badDegree (by omega) s

/-! ### RS.REM (R127) -/

theorem readBlock_dmem (m : Memory) (lo n : Nat) : m.readBlock (dmemBase + lo) n = dmemBytes m lo n := by
  simp only [Memory.readBlock_eq_map, dmemBytes, Memory.dmem, Nat.add_assoc]

theorem remainderBytes_eq (s : State) : s.remainderBytes =
    rsRemainder (dmemBytes s.mem s.rsSrc.toNat s.rsLen.toNat) (s.divram.toList.take s.divDeg.toNat) := by
  rw [State.remainderBytes, readBlock_dmem, State.divisor]

/-- EMEM in the span of a block write. -/
theorem emem_writeBlock_inside (m : Memory) (lo : Nat) {bs : List Byte} {k : Nat} (h : k < bs.length) :
    (m.writeBlock (ememBase + lo) bs).emem (lo + k) = bs.getD k 0 := by
  rw [Memory.emem, ← Nat.add_assoc, Memory.read_writeBlock_inside _ _ _ _ h, List.getD_eq_getElem _ _ h]

theorem exec_rsRem_of_badDegree {s : State} (h : s.divDeg.toNat < 1 ∨ 30 < s.divDeg.toNat) :
    exec .rsRem s = .next (afterFailure s .badDegree) := by
  have hcheck : s.check .rsRem = some .badDegree := if_pos h
  rw [exec_of_check_some hcheck, State.fail_eq_afterFailure]

theorem exec_rsRem_of_badRange {s : State} (hdeg : ¬ (s.divDeg.toNat < 1 ∨ 30 < s.divDeg.toNat))
    (h : 4096 < s.rsSrc.toNat + s.rsLen.toNat ∨ 4096 < s.rsDst.toNat + s.divDeg.toNat) :
    exec .rsRem s = .next (afterFailure s .badRange) := by
  have hcheck : s.check .rsRem = some .badRange := (if_neg hdeg).trans (if_pos h)
  rw [exec_of_check_some hcheck, State.fail_eq_afterFailure]

theorem exec_rsRem_of_inRange {s : State} (hdeg : ¬ (s.divDeg.toNat < 1 ∨ 30 < s.divDeg.toNat))
    (h : ¬ (4096 < s.rsSrc.toNat + s.rsLen.toNat ∨ 4096 < s.rsDst.toNat + s.divDeg.toNat)) :
    exec .rsRem s = .next (afterSuccess
      { s with mem := s.mem.writeBlock (ememBase + s.rsDst.toNat) s.remainderBytes }) := by
  have hcheck : s.check .rsRem = none := (if_neg hdeg).trans (if_neg h)
  rw [exec_of_check_none hcheck, State.complete_eq_afterSuccess]
  rfl

/-- Settles O43: the two checks in order, and otherwise one block write of DIV_DEG bytes. -/
theorem rsRemWritesTheRemainder : Obligations.RsRemWritesTheRemainder := by
  refine ⟨rfl, fun s => ⟨exec_rsRem_of_badDegree, fun h1 h30 hrange => ?_, fun h1 h30 hsrc hdst => ?_⟩⟩
  · exact exec_rsRem_of_badRange (by omega) hrange
  · refine ⟨_, exec_rsRem_of_inRange (by omega) (by omega), rfl, fun j hj => ?_, fun a ha => ?_⟩
    · rw [← remainderBytes_eq]
      exact emem_writeBlock_inside s.mem _ (by rwa [length_remainderBytes])
    · exact Memory.read_writeBlock_outside _ _ _ _ (by rwa [length_remainderBytes])

/-! ### RS.ENC (R128) -/

/-- The place of an element in pieces of one length laid end to end. -/
theorem getD_flatMap_const {α β : Type} (f : α → List β) (d : β) (k : Nat) : ∀ (l : List α),
    (∀ x ∈ l, (f x).length = k) → ∀ (i j : Nat) (hi : i < l.length), j < k →
      (l.flatMap f).getD (i * k + j) d = (f l[i]).getD j d
  | [], _, _, _, hi, _ => absurd hi (Nat.not_lt_zero _)
  | x :: l, hlen, 0, j, _, hj => by
    have hx : (f x).length = k := hlen x (by simp)
    rw [List.flatMap_cons, Nat.zero_mul, Nat.zero_add, List.getD_append _ _ _ _ (by omega)]
    rfl
  | x :: l, hlen, i + 1, j, hi, hj => by
    have hx : (f x).length = k := hlen x (by simp)
    have ih := getD_flatMap_const f d k l (fun y hy => hlen y (by simp [hy])) i j (by simpa using hi) hj
    rw [List.flatMap_cons, Nat.succ_mul, List.getD_append_right _ _ _ _ (by omega), hx,
      show i * k + k + j - k = i * k + j by omega, ih]
    rfl

theorem dataBlock_eq (s : State) (b : Nat) :
    s.dataBlock b = dmemBytes s.mem (s.bcfg.doff b) (s.bcfg.len b) := readBlock_dmem _ _ _

/-- The EC bytes of block `b` stand at eoff(b) (10_state.md R35). -/
theorem getD_encodeBytes (s : State) {b j : Nat} (hb : b < s.bcfg.nb) (hj : j < s.bcfg.ecb.toNat) :
    s.encodeBytes.getD (s.bcfg.eoff b + j) 0 =
      (rsRemainder (dmemBytes s.mem (s.bcfg.doff b) (s.bcfg.len b)) (rsDivisor s.bcfg.ecb.toNat)).getD j 0 := by
  have hlen : b < s.dataBlocks.length := by simpa [State.dataBlocks] using hb
  have hblock : s.dataBlocks[b] = s.dataBlock b := by simp [State.dataBlocks]
  rw [State.encodeBytes, Bcfg.eoff, getD_flatMap_const _ _ _ _ (by simp) b j hlen hj, hblock, dataBlock_eq]

/-- The bytes of every block lie in EMEM[0 .. EC_CW-1] (10_state.md R33, R35). -/
theorem eoff_add_lt_ecCw {c : Bcfg} {b j : Nat} (hb : b < c.nb) (hj : j < c.ecb.toNat) : c.eoff b + j < c.ecCw := by
  have hmul : (b + 1) * c.ecb.toNat ≤ c.nb * c.ecb.toNat := Nat.mul_le_mul_right _ hb
  rw [Nat.succ_mul] at hmul
  rw [Bcfg.eoff, Bcfg.ecCw]
  omega

theorem exec_rsEnc_of_valid {s : State} (h : s.bcfg.valid = true) :
    exec .rsEnc s = .next (afterSuccess
      { s.loadDivisor s.bcfg.ecb.toNat with mem := s.mem.writeBlock ememBase s.encodeBytes }) := by
  have hcheck : s.check .rsEnc = none := if_pos h
  rw [exec_of_check_none hcheck, State.complete_eq_afterSuccess]
  rfl

/-- The divisor of degree ECB is loaded with ECB itself in DIV_DEG. -/
theorem loadDivisor_ecb (s : State) : s.loadDivisor s.bcfg.ecb.toNat =
    { s with divram := divramOf (rsDivisor s.bcfg.ecb.toNat), divDeg := s.bcfg.ecb } := by
  rw [State.loadDivisor, BitVec.ofNat_toNat, BitVec.setWidth_eq]

/-- Settles O44: the one check, and otherwise one block write of EC_CW bytes, in which each block's stand at its offset. -/
theorem rsEncWritesEveryBlock : Obligations.RsEncWritesEveryBlock := by
  refine ⟨rfl, fun s => ⟨fun h => exec_blockReader_of_invalid (.inl rfl) h, fun h => ?_⟩⟩
  refine ⟨_, exec_rsEnc_of_valid h, ?_, fun j => ?_, fun b hb j hj => ?_, fun a ha => ?_⟩
  · rw [loadDivisor_ecb]
    rfl
  · have hget := getElem_divramOf (rsDivisor s.bcfg.ecb.toNat) j
    rwa [length_rsDivisor] at hget
  · have hin : s.bcfg.eoff b + j < s.encodeBytes.length := by
      rw [length_encodeBytes]; exact eoff_add_lt_ecCw hb hj
    have hread := emem_writeBlock_inside s.mem 0 hin
    rw [Nat.zero_add] at hread
    exact hread.trans (getD_encodeBytes s hb hj)
  · exact Memory.read_writeBlock_outside _ _ _ _ (by rwa [length_encodeBytes])

end Sys2Proof.Machine
end

section
/-! SUPPORT. The stream bit by bit (42_packer.md R140 to R144): what push does to every bit, from it what pushing a list
leaves, places and pads with 0, and where the bits PK.FIN pushes fall. -/

namespace Sys2Proof.Machine
open Sys2Proof.Claims

@[simp] theorem State.len_stream (s : State) : s.stream.len = s.pkBitlen.toNat := rfl

/-! ### The bits after pushes (R141) -/

/-- Push sets its own bit and clears the rest of that byte. -/
theorem streamBit_push (p : Stream) (b : Bool) (k : Nat) :
    streamBit (p.push b).mem k =
      if k = p.len then b else if p.len < k ∧ k / 8 = p.len / 8 then false else streamBit p.mem k := by
  rcases eq_or_ne (k / 8) (p.len / 8) with hbyte | hbyte
  case inr =>
    have hread := p.read_push_other b (dmemBase + k / 8) (by omega)
    have hk : k ≠ p.len := fun h => hbyte (h ▸ rfl)
    rw [streamBit, Memory.dmem, hread, if_neg hk, if_neg (fun h => hbyte h.2)]
    rfl
  case inl =>
    rw [streamBit, Memory.dmem, hbyte, p.read_push_same,
      getLsbD_pushByte _ _ _ _ (Nat.mod_lt _ (by decide)) (by omega)]
    have hself : 7 - k % 8 = 7 - p.len % 8 ↔ k = p.len := by omega
    have habove : 8 - p.len % 8 ≤ 7 - k % 8 ↔ k < p.len := by omega
    simp only [hself, habove]
    rcases lt_trichotomy k p.len with hk | rfl | hk
    · have hstart : p.len % 8 ≠ 0 := by omega
      simp [hk, hk.ne, hk.not_gt, hstart, streamBit, hbyte]
    · simp
    · simp [hk, hk.ne', hk.not_gt]

theorem streamBit_pushAll_before (bs : List Bool) : ∀ (p : Stream) (k : Nat), k < p.len →
    streamBit (p.pushAll bs).mem k = streamBit p.mem k := by
  induction bs with
  | nil => intros; rfl
  | cons b bs ih =>
    intro p k hk
    have hk' : ¬ (p.len < k ∧ k / 8 = p.len / 8) := fun h => hk.not_gt h.1
    rw [Stream.pushAll_cons, ih _ _ (Nat.lt_succ_of_lt hk), streamBit_push, if_neg hk.ne, if_neg hk']

theorem streamBit_pushAll_pushed (bs : List Bool) : ∀ (p : Stream) (k : Nat), k < bs.length →
    streamBit (p.pushAll bs).mem (p.len + k) = bs.getD k false := by
  induction bs with
  | nil => exact fun _ _ hk => absurd hk (Nat.not_lt_zero _)
  | cons b bs ih =>
    intro p k hk
    rw [Stream.pushAll_cons]
    cases k with
    | zero =>
      rw [Nat.add_zero, streamBit_pushAll_before _ _ _ (Nat.lt_succ_self _), streamBit_push, if_pos rfl,
        List.getD_cons_zero]
    | succ k =>
      have hnext := ih (p.push b) k (Nat.lt_of_succ_lt_succ hk)
      rwa [Stream.len_push, Nat.add_right_comm] at hnext

/-- The byte of the last pushed bit is 0 below it. -/
theorem streamBit_pushAll_after (bs : List Bool) : ∀ (p : Stream) (k : Nat), 0 < bs.length → p.len + bs.length ≤ k →
    k / 8 = (p.len + bs.length - 1) / 8 → streamBit (p.pushAll bs).mem k = false := by
  induction bs with
  | nil => exact fun _ _ h => absurd h (Nat.lt_irrefl _)
  | cons b bs ih =>
    intro p k _ hk hbyte
    rw [List.length_cons] at hk hbyte
    rw [Stream.pushAll_cons]
    rcases Nat.eq_zero_or_pos bs.length with hnil | hpos
    · obtain rfl := List.eq_nil_of_length_eq_zero hnil
      rw [Stream.pushAll_nil, streamBit_push, if_neg (by omega), if_pos ⟨by omega, by simpa using hbyte⟩]
    · exact ih (p.push b) k hpos (by rw [Stream.len_push]; omega) (by rw [hbyte, Stream.len_push]; congr 1; omega)

/-- The byte of DMEM that holds eight stream bits, bit 7 first (R140). -/
theorem dmem_eq_of_streamBit {m : Memory} {j : Nat} {c : Byte}
    (h : ∀ i < 8, streamBit m (8 * j + i) = c.getLsbD (7 - i)) : m.dmem j = c := by
  apply BitVec.eq_of_getLsbD_eq
  intro i hi
  have hbit := h (7 - i) (by omega)
  rwa [streamBit, show (8 * j + (7 - i)) / 8 = j by omega, show 7 - (8 * j + (7 - i)) % 8 = i by omega,
    show 7 - (7 - i) = i by omega] at hbit

/-! ### PK.CLR (R142) -/

/-- Settles O45: PK.CLR has no check, and its effect is the length 0. -/
theorem pkClrEmptiesTheStream : Obligations.PkClrEmptiesTheStream := by
  refine ⟨rfl, fun s => ?_⟩
  rw [exec_of_check_none (i := .pkClr) rfl, State.complete_eq_afterSuccess]
  rfl

/-! ### PK.APP (R143) -/

theorem getD_fieldBits (s : State) {n k : Nat} (h : k < n) :
    (s.fieldBits n).getD k false = s.arg0.getLsbD (n - 1 - k) := by
  rw [List.getD_eq_getElem _ _ (by simpa using h)]
  simp [State.fieldBits]

theorem exec_pkApp_of_badNbits {n : Nat} (h : 32 < n) (s : State) :
    exec (.pkApp n) s = .next (afterFailure s .badNbits) := by
  have hcheck : s.check (.pkApp n) = some .badNbits := if_pos h
  rw [exec_of_check_some hcheck, State.fail_eq_afterFailure]

theorem exec_pkApp_of_overflow {s : State} {n : Nat} (hn : n ≤ 32) (h : 32768 < s.pkBitlen.toNat + n) :
    exec (.pkApp n) s = .next (afterFailure s .packOverflow) := by
  have hcheck : s.check (.pkApp n) = some .packOverflow := (if_neg (by omega)).trans (if_pos h)
  rw [exec_of_check_some hcheck, State.fail_eq_afterFailure]

theorem exec_pkApp_of_fits {s : State} {n : Nat} (hn : n ≤ 32) (h : s.pkBitlen.toNat + n ≤ 32768) :
    exec (.pkApp n) s = .next (afterSuccess (s.withStream (s.stream.pushAll (s.fieldBits n)))) := by
  have hcheck : s.check (.pkApp n) = none := (if_neg (by omega)).trans (if_neg (by omega))
  rw [exec_of_check_none hcheck, State.complete_eq_afterSuccess]
  rfl

/-- PK_BITLEN holds the length of every stream that fits DMEM. -/
theorem toNat_pkBitlen_withStream {s : State} {p : Stream} (h : p.len ≤ 32768) :
    (s.withStream p).pkBitlen.toNat = p.len := Nat.mod_eq_of_lt (by omega)

/-- Settles O46: the two checks in order, and otherwise the pushes of the field's bits. -/
theorem pkAppAppendsTheField : Obligations.PkAppAppendsTheField := by
  refine ⟨fun n h => decode_byteOperandWord (op := 0x11) (by decide) h, fun s n =>
    ⟨fun h _ => exec_pkApp_of_badNbits h s, exec_pkApp_of_overflow, fun hn hfits => ?_⟩⟩
  have hlen : (s.stream.pushAll (s.fieldBits n)).len = s.pkBitlen.toNat + n := by simp
  refine ⟨_, exec_pkApp_of_fits hn hfits, rfl, ?length, ?field, ?earlier, ?rest, ?empty, ?frame⟩
  case length => exact (toNat_pkBitlen_withStream (s := s) (by omega)).trans hlen
  case field =>
    intro k hk
    rw [← getD_fieldBits s hk]
    exact streamBit_pushAll_pushed _ s.stream k (by rwa [length_fieldBits])
  case earlier => exact streamBit_pushAll_before _ s.stream
  case rest =>
    intro hpos k hk hbyte
    apply streamBit_pushAll_after _ s.stream k <;> rwa [length_fieldBits]
  case empty => rintro rfl; rfl
  case frame =>
    intro a ha
    apply Stream.read_pushAll_outside _ s.stream
    rwa [length_fieldBits]

/-! ### PK.FIN (R144) -/

/-- The terminator and the byte padding end at the byte boundary `z`. -/
theorem len_add_zeroBits (cap len : Nat) : len + zeroBits cap len = 8 * ((len + min 4 (cap - len) + 7) / 8) := by
  dsimp only [zeroBits]
  omega

theorem padCount_eq (d len : Nat) : padCount (8 * d) len = d - (len + min 4 (8 * d - len) + 7) / 8 := by
  rw [padCount, len_add_zeroBits]
  omega

@[simp] theorem length_finBits (cap len : Nat) :
    (finBits cap len).length = zeroBits cap len + 8 * padCount cap len := by
  simp [finBits, List.length_flatMap, Nat.mul_comm]

/-- PK.FIN fills the stream to its capacity. -/
theorem len_add_length_finBits {d len : Nat} (h : len ≤ 8 * d) : len + (finBits (8 * d) len).length = 8 * d := by
  rw [length_finBits, ← Nat.add_assoc, len_add_zeroBits, padCount_eq]
  omega

theorem getD_finBits_zero {cap len k : Nat} (h : k < zeroBits cap len) : (finBits cap len).getD k false = false := by
  rw [finBits, List.getD_append _ _ _ _ (by simpa using h), List.getD_replicate _ h]

theorem getD_codewordBits (c : Byte) {i : Nat} (h : i < 8) : (codewordBits c).getD i false = c.getLsbD (7 - i) := by
  rw [List.getD_eq_getElem _ _ (by simpa using h)]
  simp [codewordBits]

/-- Pad codeword `q` stands after the zero bits and the pad codewords before it. -/
theorem getD_finBits_pad {cap len q i : Nat} (hq : q < padCount cap len) (hi : i < 8) :
    (finBits cap len).getD (zeroBits cap len + (q * 8 + i)) false = (padByte q).getLsbD (7 - i) := by
  have hpad := getD_flatMap_const (fun p => codewordBits (padByte p)) false 8 (List.range (padCount cap len))
    (fun p _ => length_codewordBits _) q i (by simpa using hq) hi
  rw [List.getElem_range, getD_codewordBits _ hi] at hpad
  rw [finBits, List.getD_append_right _ _ _ _ (by simp), List.length_replicate, Nat.add_sub_cancel_left, hpad]

theorem exec_pkFin_of_tooLong {s : State} (hv : s.bcfg.valid = true) (h : 8 * s.bcfg.dataCw < s.pkBitlen.toNat) :
    exec .pkFin s = .next (afterFailure s .dataTooLong) := by
  have hcheck : s.check .pkFin = some .dataTooLong := (if_pos hv).trans (if_pos h)
  rw [exec_of_check_some hcheck, State.fail_eq_afterFailure]

theorem exec_pkFin_of_fits {s : State} (hv : s.bcfg.valid = true) (h : s.pkBitlen.toNat ≤ 8 * s.bcfg.dataCw) :
    exec .pkFin s = .next (afterSuccess (effectOf .pkFin s)) := by
  have hcheck : s.check .pkFin = none := (if_pos hv).trans (if_neg (by omega))
  rw [exec_of_check_none hcheck, State.complete_eq_afterSuccess]

/-- The memory after PK.FIN's pushes: zero bits up to the byte boundary, then the pad codewords. -/
theorem dmem_pushAll_finBits (p : Stream) {cap j q : Nat} (hj : p.len + zeroBits cap p.len = 8 * j)
    (hq : q < padCount cap p.len) : (p.pushAll (finBits cap p.len)).mem.dmem (j + q) = padByte q := by
  apply dmem_eq_of_streamBit
  intro i hi
  rw [← getD_finBits_pad hq hi, ← streamBit_pushAll_pushed _ p _ (by rw [length_finBits]; omega)]
  congr 1
  omega

/-- Settles O47: the two checks in order, and otherwise the pushes of the zero bits and the pad codewords. -/
theorem pkFinPadsToCapacity : Obligations.PkFinPadsToCapacity := by
  refine ⟨rfl, fun s => ⟨exec_blockReader_of_invalid (.inr (.inl rfl)), exec_pkFin_of_tooLong, ?_⟩⟩
  rintro hv hfits z rfl
  obtain ⟨-, -, -, -, hcap, -, -⟩ := s.bcfg.valid_iff.mp hv
  have hzero := len_add_zeroBits (8 * s.bcfg.dataCw) s.pkBitlen.toNat
  have hcount := padCount_eq s.bcfg.dataCw s.pkBitlen.toNat
  have hfull := len_add_length_finBits hfits
  have hlen : (s.stream.pushAll (finBits (8 * s.bcfg.dataCw) s.pkBitlen.toNat)).len = 8 * s.bcfg.dataCw := by
    rw [Stream.len_pushAll]
    exact hfull
  refine ⟨_, exec_pkFin_of_fits hv hfits, rfl, ?length, ?count, ?earlier, ?zeros, ?pads, ?frame⟩
  case length => exact (toNat_pkBitlen_withStream (s := s) (by omega)).trans hlen
  case count =>
    rw [← hcount]
    exact Nat.mod_eq_of_lt (by omega)
  case earlier => exact streamBit_pushAll_before _ s.stream
  case zeros =>
    intro k hlo hhi
    obtain ⟨j, rfl⟩ := Nat.exists_eq_add_of_le hlo
    have hj : j < zeroBits (8 * s.bcfg.dataCw) s.pkBitlen.toNat := by omega
    rw [← getD_finBits_zero hj]
    exact streamBit_pushAll_pushed _ s.stream j (by rw [length_finBits]; omega)
  case pads => exact fun q hq => dmem_pushAll_finBits s.stream hzero (by rw [State.len_stream, hcount]; omega)
  case frame =>
    intro a ha
    apply Stream.read_pushAll_outside _ s.stream
    rw [State.len_stream, hfull, dmemBase]
    omega

end Sys2Proof.Machine
end

section
/-! SUPPORT. The interleaver (43_interleaver.md R150, R151): its output as the D1 full rounds over all blocks, the tail round
over the group-2 blocks and the EC rounds, and the place of a codeword in each part. -/

namespace Sys2Proof.Machine
open Sys2Proof.Claims

/-! ### Rounds over the blocks -/

/-- `n` rounds over `nb` blocks, in which every block has a codeword: `f i b` is codeword `i` of block `b`. -/
def roundsOver (n nb : Nat) (f : Nat → Nat → Byte) : List Byte :=
  (List.range n).flatMap fun i => (List.range nb).map (f i)

@[simp] theorem length_roundsOver (n nb : Nat) (f : Nat → Nat → Byte) : (roundsOver n nb f).length = n * nb := by
  rw [roundsOver, length_flatMap_const _ nb _ (by simp), List.length_range]

theorem getD_roundsOver {n nb i b : Nat} (f : Nat → Nat → Byte) (hi : i < n) (hb : b < nb) :
    (roundsOver n nb f).getD (i * nb + b) 0 = f i b := by
  have hround := getD_flatMap_const (fun i => (List.range nb).map (f i)) 0 nb (List.range n) (by simp) i b
    (by simpa using hi) hb
  rw [roundsOver, hround, List.getD_eq_getElem _ _ (by simpa using hb)]
  simp

/-- Position `b` of round `i` lies among the `n` rounds. -/
theorem round_index_lt {n nb i b : Nat} (hi : i < n) (hb : b < nb) : i * nb + b < n * nb := by
  have hmul : (i + 1) * nb ≤ n * nb := Nat.mul_le_mul_right _ hi
  rw [Nat.succ_mul] at hmul
  omega

/-! ### The model's lists are the loops of R150 -/

theorem getElem?_dataBlock (s : State) (b i : Nat) :
    (s.dataBlock b)[i]? = if i < s.bcfg.len b then some (s.mem.dmem (s.bcfg.doff b + i)) else none := by
  rw [dataBlock_eq, dmemBytes, List.getElem?_map]
  split
  next h => rw [List.getElem?_range h, Option.map_some]
  next h => rw [List.getElem?_eq_none (by simpa using h), Option.map_none]

theorem getElem?_ecBlock (s : State) (b : Nat) {i : Nat} (h : i < s.bcfg.ecb.toNat) :
    (s.ecBlock b)[i]? = some (s.mem.emem (s.bcfg.eoff b + i)) := by
  rw [List.getElem?_eq_getElem (by simpa using h)]
  simp only [State.ecBlock, Memory.getElem_readBlock, Memory.emem, Nat.add_assoc]

/-- One round of `interleave` over blocks listed by their number, as the inner loop of R150. -/
theorem filterMap_getElem?_map_range (block : Nat → List Byte) (nb i : Nat) :
    ((List.range nb).map block).filterMap (·[i]?) = (List.range nb).flatMap fun b => (block b)[i]?.toList := by
  rw [List.filterMap_map, List.filterMap_eq_flatMap_toList]
  rfl

theorem interleaved_eq_interleaveLoops (s : State) : s.interleaved = interleaveLoops s := by
  have hdata : ∀ i b, (s.dataBlock b)[i]?.toList =
      if i < s.bcfg.len b then [s.mem.dmem (s.bcfg.doff b + i)] else [] := by
    intro i b
    rw [getElem?_dataBlock]
    split <;> rfl
  have hec : ∀ i ∈ List.range s.bcfg.ecb.toNat, ∀ b, (s.ecBlock b)[i]?.toList = [s.mem.emem (s.bcfg.eoff b + i)] := by
    intro i hi b
    rw [getElem?_ecBlock s b (List.mem_range.mp hi)]
    rfl
  simp only [State.interleaved, interleave, State.dataBlocks, State.ecBlocks, filterMap_getElem?_map_range, hdata]
  congr 1
  exact List.flatMap_congr fun i hi => List.flatMap_congr fun b _ => hec i hi b

/-! ### The loops in three parts (R150, R151) -/

/-- The rounds i < D1, which reach every block. -/
def dataRounds (s : State) : List Byte :=
  roundsOver s.bcfg.d1.toNat s.bcfg.nb fun i b => s.mem.dmem (s.bcfg.doff b + i)

/-- The round i = D1, which reaches the group-2 blocks alone. -/
def tailRound (s : State) : List Byte :=
  (List.range s.bcfg.nb2.toNat).map fun k =>
    s.mem.dmem (s.bcfg.doff (s.bcfg.nb1.toNat + k) + s.bcfg.d1.toNat)

/-- The EC rounds, which reach every block. -/
def ecRounds (s : State) : List Byte :=
  roundsOver s.bcfg.ecb.toNat s.bcfg.nb fun i b => s.mem.emem (s.bcfg.eoff b + i)

theorem Bcfg.lt_len {c : Bcfg} {i : Nat} (h : i < c.d1.toNat) (b : Nat) : i < c.len b := by
  rw [Bcfg.len]
  split <;> omega

/-- Block `b` has a codeword D1 exactly when it is of group 2. -/
theorem Bcfg.d1_lt_len {c : Bcfg} {b : Nat} : c.d1.toNat < c.len b ↔ c.nb1.toNat ≤ b := by
  rw [Bcfg.len]
  split <;> omega

theorem fullRound_eq (s : State) {i : Nat} (h : i < s.bcfg.d1.toNat) :
    ((List.range s.bcfg.nb).flatMap fun b =>
      if i < s.bcfg.len b then [s.mem.dmem (s.bcfg.doff b + i)] else []) =
      (List.range s.bcfg.nb).map fun b => s.mem.dmem (s.bcfg.doff b + i) := by
  rw [List.map_eq_flatMap]
  exact List.flatMap_congr fun b _ => if_pos (Bcfg.lt_len h b)

theorem lastRound_eq (s : State) :
    ((List.range s.bcfg.nb).flatMap fun b =>
      if s.bcfg.d1.toNat < s.bcfg.len b then [s.mem.dmem (s.bcfg.doff b + s.bcfg.d1.toNat)] else []) =
      tailRound s := by
  simp only [Bcfg.d1_lt_len]
  rw [Bcfg.nb, List.range_add, List.flatMap_append, List.flatMap_map, tailRound, List.map_eq_flatMap]
  have hgroup1 : ∀ b ∈ List.range s.bcfg.nb1.toNat, ¬ s.bcfg.nb1.toNat ≤ b := by simp
  rw [List.flatMap_eq_nil_iff.mpr fun b hb => if_neg (hgroup1 b hb), List.nil_append]
  exact List.flatMap_congr fun k _ => if_pos (Nat.le_add_right _ _)

theorem interleaveLoops_eq (s : State) : interleaveLoops s = dataRounds s ++ tailRound s ++ ecRounds s := by
  have hfull := List.flatMap_congr fun i hi => fullRound_eq s (i := i) (List.mem_range.mp hi)
  rw [interleaveLoops, List.range_succ, List.flatMap_append, List.flatMap_singleton, lastRound_eq, hfull, dataRounds,
    ecRounds, roundsOver, roundsOver]
  simp only [List.map_eq_flatMap]

@[simp] theorem length_tailRound (s : State) : (tailRound s).length = s.bcfg.nb2.toNat := by simp [tailRound]

/-- DATA_CW counts the full rounds and the tail round. -/
theorem Bcfg.dataCw_eq_rounds (c : Bcfg) : c.dataCw = c.d1.toNat * c.nb + c.nb2.toNat := by
  rw [Bcfg.dataCw, Bcfg.nb]
  ring

@[simp] theorem length_dataRounds (s : State) : (dataRounds s).length = s.bcfg.d1.toNat * s.bcfg.nb :=
  length_roundsOver _ _ _

theorem length_dataPart (s : State) : (dataRounds s ++ tailRound s).length = s.bcfg.dataCw := by
  rw [List.length_append, length_dataRounds, length_tailRound, Bcfg.dataCw_eq_rounds]

theorem length_ecRounds (s : State) : (ecRounds s).length = s.bcfg.ecCw := by
  rw [ecRounds, length_roundsOver, Bcfg.ecCw, Nat.mul_comm]

theorem length_interleaveLoops (s : State) : (interleaveLoops s).length = s.bcfg.totalCw := by
  rw [interleaveLoops_eq, List.length_append, length_dataPart, length_ecRounds, Bcfg.totalCw]

/-! ### The place of each codeword (R151) -/

theorem getD_interleaveLoops_data (s : State) {i b : Nat} (hi : i < s.bcfg.d1.toNat) (hb : b < s.bcfg.nb) :
    (interleaveLoops s).getD (i * s.bcfg.nb + b) 0 = s.mem.dmem (s.bcfg.doff b + i) := by
  have hpos := round_index_lt hi hb
  have hlen := length_dataRounds s
  rw [interleaveLoops_eq, List.append_assoc, List.getD_append _ _ _ _ (by omega), dataRounds, getD_roundsOver _ hi hb]

theorem getD_interleaveLoops_tail (s : State) {b : Nat} (hlo : s.bcfg.nb1.toNat ≤ b) (hhi : b < s.bcfg.nb) :
    (interleaveLoops s).getD (s.bcfg.d1.toNat * s.bcfg.nb + (b - s.bcfg.nb1.toNat)) 0 =
      s.mem.dmem (s.bcfg.doff b + s.bcfg.d1.toNat) := by
  obtain ⟨k, rfl⟩ := Nat.exists_eq_add_of_le hlo
  have hk : k < s.bcfg.nb2.toNat := Nat.lt_of_add_lt_add_left hhi
  have hlen := length_dataRounds s
  have htail := length_tailRound s
  rw [interleaveLoops_eq, List.append_assoc, List.getD_append_right _ _ _ _ (by omega),
    List.getD_append _ _ _ _ (by omega), hlen, Nat.add_sub_cancel_left, Nat.add_sub_cancel_left,
    List.getD_eq_getElem _ _ (by omega)]
  simp [tailRound]

theorem getD_interleaveLoops_ec (s : State) {i b : Nat} (hi : i < s.bcfg.ecb.toNat) (hb : b < s.bcfg.nb) :
    (interleaveLoops s).getD (s.bcfg.dataCw + i * s.bcfg.nb + b) 0 = s.mem.emem (s.bcfg.eoff b + i) := by
  have hlen := length_dataPart s
  rw [interleaveLoops_eq, List.getD_append_right _ _ _ _ (by omega), hlen, Nat.add_assoc, Nat.add_sub_cancel_left,
    ecRounds, getD_roundsOver _ hi hb]

/-! ### IL.RUN -/

/-- OMEM in the span of a block write from its start. -/
theorem omem_writeBlock_inside (m : Memory) {bs : List Byte} {k : Nat} (h : k < bs.length) :
    (m.writeBlock omemBase bs).omem k = bs.getD k 0 := by
  rw [Memory.omem, Memory.read_writeBlock_inside _ _ _ _ h, List.getD_eq_getElem _ _ h]

theorem exec_ilRun_of_valid {s : State} (h : s.bcfg.valid = true) :
    exec .ilRun s = .next (afterSuccess
      { s with mem := s.mem.writeBlock omemBase (interleaveLoops s), result := natWord s.bcfg.totalCw }) := by
  have hcheck : s.check .ilRun = none := if_pos h
  rw [exec_of_check_none hcheck, State.complete_eq_afterSuccess, ← length_interleaveLoops,
    ← interleaved_eq_interleaveLoops]
  rfl

/-- Settles O48: the one check, and otherwise one block write of what the loops give, TOTAL_CW bytes. -/
theorem ilRunWritesTheSequence : Obligations.IlRunWritesTheSequence := by
  refine ⟨rfl, fun s => ⟨exec_blockReader_of_invalid (.inr (.inr rfl)), fun hv => ?_⟩⟩
  have hlen := length_interleaveLoops s
  obtain ⟨-, -, -, -, -, -, htotal⟩ := s.bcfg.valid_iff.mp hv
  refine ⟨_, exec_ilRun_of_valid hv, rfl, ?count, hlen, ?sequence, ?frame⟩
  case count => exact Nat.mod_eq_of_lt (by omega)
  case sequence => exact fun o ho => omem_writeBlock_inside s.mem (by rwa [hlen])
  case frame => exact fun a ha => Memory.read_writeBlock_outside _ _ _ _ (by rwa [hlen])

/-- Settles O49: OMEM holds what the loops give, and each codeword's place in it is that of its round and block. -/
theorem ilRunPlacesEachCodeword : Obligations.IlRunPlacesEachCodeword := by
  intro s hv
  obtain ⟨t, hexec, -, -, -, homem, -⟩ := (ilRunWritesTheSequence.2 s).2 hv
  have hdata := s.bcfg.dataCw_eq_rounds
  have htotal : s.bcfg.totalCw = s.bcfg.dataCw + s.bcfg.ecb.toNat * s.bcfg.nb := by
    rw [Bcfg.totalCw, Bcfg.ecCw, Nat.mul_comm]
  refine ⟨t, hexec, fun b hb i hi => ?_, fun b hlo hhi => ?_, fun b hb i hi => ?_⟩
  · have hpos := round_index_lt hi hb
    rw [homem _ (by omega), getD_interleaveLoops_data s hi hb]
  · have hnb : s.bcfg.nb = s.bcfg.nb1.toNat + s.bcfg.nb2.toNat := rfl
    rw [homem _ (by omega), getD_interleaveLoops_tail s hlo hhi]
  · have hpos := round_index_lt hi hb
    rw [homem _ (by omega), getD_interleaveLoops_ec s hi hb]

end Sys2Proof.Machine
end

section
/-! SUPPORT. MK.FMT and the format word (44_mask.md R161, R170): the word of a class M command, and the fifteen bits as a
multiple of the generator polynomial. -/

namespace Sys2Proof.Machine
open Sys2Proof.Claims

/-! ### The word of a class M command (R91, R97) -/

theorem classM_of_mask (m : Fin 8) (mk : Fin 8 → Instr) : classM m.val mk = .ok (mk m) := dif_pos m.isLt

/-- A class M word decodes by its OP, the mask index in A8. -/
theorem decode_maskWord {op : Nat} (ho : op < 256) (m : Fin 8) :
    decode (BitVec.ofNat 32 op ||| BitVec.ofNat 32 m.val <<< 8) = decodeOp op m.val :=
  decode_byteOperandWord ho (Nat.lt_trans m.isLt (by decide))

/-! ### The format word (R161) -/

/-- The five data bits `d` above the BCH remainder of their ten shifts (R161). -/
def formatCodeword (d : Nat) : Nat := (d <<< 10) ||| Nat.repeat bchStep 10 d

theorem fmtWord_eq (e m : Nat) : fmtWord e m = formatCodeword ((e <<< 3) ||| m) ^^^ 0x5412 := rfl

theorem fmtWord_unmasked (e m : Nat) : fmtWord e m ^^^ 0x5412 = formatCodeword ((e <<< 3) ||| m) := by
  rw [fmtWord_eq, Nat.xor_assoc, Nat.xor_self, Nat.xor_zero]

/-- The ECL code and the mask index side by side. -/
theorem formatData_eq (e : Nat) (m : Fin 8) : (e <<< 3) ||| m.val = 8 * e + m.val := by
  rw [← Nat.shiftLeft_add_eq_or_of_lt (i := 3) m.isLt, Nat.shiftLeft_eq, Nat.mul_comm]

/-- Each of the 32 codewords has its data on top and is a multiple of the generator polynomial. -/
theorem formatCodeword_spec : ∀ d < 32, formatCodeword d < 2 ^ 15 ∧ formatCodeword d / 2 ^ 10 = d ∧
    ∃ q < 2 ^ 5, formatCodeword d = polyMul 0x537 q := by
  decide

theorem eclCode_lt (ecl : BitVec 2) : eclCode ecl < 4 := by revert ecl; decide

theorem eclCode_eq_getD (ecl : BitVec 2) : eclCode ecl = [1, 0, 3, 2].getD ecl.toNat 0 := by revert ecl; decide

theorem fmtWord_lt (ecl : BitVec 2) (m : Fin 8) : fmtWord (eclCode ecl) m.val < 2 ^ 15 := by
  have hecl := eclCode_lt ecl
  have hspec := formatCodeword_spec (8 * eclCode ecl + m.val) (by omega)
  rw [fmtWord_eq, formatData_eq]
  exact Nat.xor_lt_two_pow hspec.1 (by decide)

/-! ### MK.FMT (R170) -/

/-- MK.FMT has no check: QCFG.VER is not read. -/
theorem exec_mkFmt (m : Fin 8) (s : State) :
    exec (.mkFmt m) s = .next (afterSuccess { s with result := natWord (s.formatWord m) }) := by
  rw [exec_of_check_none (i := .mkFmt m) rfl, State.complete_eq_afterSuccess]
  rfl

theorem toNat_natWord {n : Nat} (h : n < 2 ^ 32) : (natWord n).toNat = n := Nat.mod_eq_of_lt h

/-- Settles O50: RESULT takes the format word, which unmasked is the codeword of the ECL code and the mask. -/
theorem mkFmtWritesTheFormatWord : Obligations.MkFmtWritesTheFormatWord := by
  refine ⟨fun m => (decode_maskWord (op := 0x30) (by decide) m).trans (classM_of_mask m _), fun s m => ?_⟩
  have hlt := fmtWord_lt s.qcfg.ecl m
  have hecl := eclCode_lt s.qcfg.ecl
  have hresult : (natWord (s.formatWord m)).toNat = fmtWord (eclCode s.qcfg.ecl) m.val :=
    toNat_natWord (Nat.lt_trans hlt (by decide))
  obtain ⟨-, hdata, hgen⟩ := formatCodeword_spec (8 * eclCode s.qcfg.ecl + m.val) (by omega)
  refine ⟨_, exec_mkFmt m s, rfl, hresult, hresult ▸ hlt, ?_⟩
  simp only [afterSuccess, hresult, fmtWord_unmasked, formatData_eq, ← eclCode_eq_getD]
  exact ⟨hdata, hgen⟩

end Sys2Proof.Machine
end

section
/-! SUPPORT. The candidate matrix cell by cell (44_mask.md R160 to R163): what writing one cell does, where the format bits
and the dark module go, and the masked module in every other cell. -/

namespace Sys2Proof.Machine
open Sys2Proof.Claims

/-! ### Cells of a square matrix -/

theorem IsSquare.length_getD {n : Nat} {M : Matrix} (h : IsSquare n M) {r : Nat} (hr : r < n) :
    (M.getD r []).length = n := by
  have hr' : r < M.length := by rwa [h.1]
  rw [List.getD_eq_getElem _ _ hr']
  exact h.2 _ (List.getElem_mem _)

/-- A matrix is light outside its side. -/
theorem IsSquare.at_outside {n : Nat} {M : Matrix} (h : IsSquare n M) {r c : Nat} (hrc : ¬ (r < n ∧ c < n)) :
    M.at r c = false := by
  rw [Matrix.at]
  by_cases hr : r < n
  · exact List.getD_eq_default _ _ (by rw [h.length_getD hr]; omega)
  · have hM : M.length ≤ r := by rw [h.1]; omega
    rw [List.getD_eq_default M _ hM]
    rfl

theorem getD_setCell (M : Matrix) (p : Nat × Nat) (v : Bool) (r : Nat) :
    (setCell M p v).getD r [] = if p.1 = r then (M.getD r []).set p.2 v else M.getD r [] := by
  rw [setCell, List.getD_eq_getElem?_getD, List.getElem?_modify, List.getD_eq_getElem?_getD]
  cases M[r]? <;> simp

theorem getD_set_inside {l : List Bool} {i : Nat} (hi : i < l.length) (v : Bool) (j : Nat) :
    (l.set i v).getD j false = if i = j then v else l.getD j false := by
  rw [List.getD_eq_getElem?_getD, List.getElem?_set, if_pos hi, List.getD_eq_getElem?_getD]
  split <;> rfl

/-- Writing a cell of the matrix changes that cell alone. -/
theorem IsSquare.at_setCell {n : Nat} {M : Matrix} (h : IsSquare n M) {p : Nat × Nat} (hp : p.1 < n ∧ p.2 < n)
    (v : Bool) (r c : Nat) : (setCell M p v).at r c = if p = (r, c) then v else M.at r c := by
  simp only [Matrix.at, getD_setCell, Prod.ext_iff]
  by_cases hpr : p.1 = r
  · have hlen : p.2 < (M.getD r []).length := by rw [h.length_getD (hpr ▸ hp.1)]; exact hp.2
    simp only [hpr, if_true, true_and, getD_set_inside hlen]
  · simp only [hpr, if_false, false_and]

/-! ### Where the format bits go (R162) -/

/-- The cell (r, c) is one of the two that bit `i` of the format word is written to. -/
def HoldsBit (n i r c : Nat) : Prop := formatCell1 i = (r, c) ∨ formatCell2 n i = (r, c)

theorem formatCell1_eq_iff {i r c : Nat} : formatCell1 i = (r, c) ↔
    (c = 8 ∧ ((i ≤ 5 ∧ r = i) ∨ ((i = 6 ∨ i = 7) ∧ r = i + 1))) ∨
    (r = 8 ∧ ((i = 8 ∧ c = 7) ∨ (9 ≤ i ∧ c = 14 - i))) := by
  unfold formatCell1
  split_ifs <;> simp only [Prod.mk.injEq] <;> omega

theorem formatCell2_eq_iff {n i r c : Nat} (hn : 21 ≤ n) : formatCell2 n i = (r, c) ↔
    (c = 8 ∧ 8 ≤ i ∧ r = n - 15 + i) ∨ (r = 8 ∧ i ≤ 7 ∧ c = n - 1 - i) := by
  unfold formatCell2
  split_ifs <;> simp only [Prod.mk.injEq] <;> omega

/-- R162's table, first copy and second, each by column 8 and row 8. -/
theorem holdsBit_iff {n i r c : Nat} (hn : 21 ≤ n) : HoldsBit n i r c ↔
    ((c = 8 ∧ ((i ≤ 5 ∧ r = i) ∨ ((i = 6 ∨ i = 7) ∧ r = i + 1))) ∨
      (r = 8 ∧ ((i = 8 ∧ c = 7) ∨ (9 ≤ i ∧ c = 14 - i)))) ∨
    ((c = 8 ∧ 8 ≤ i ∧ r = n - 15 + i) ∨ (r = 8 ∧ i ≤ 7 ∧ c = n - 1 - i)) :=
  or_congr formatCell1_eq_iff (formatCell2_eq_iff hn)

theorem isSquare_writeFormatBit {n : Nat} {M : Matrix} (h : IsSquare n M) (w i : Nat) :
    IsSquare n (writeFormatBit n w M i) :=
  isSquare_setCell (isSquare_setCell h _ _) _ _

section Places
variable {n i : Nat} (hn : 21 ≤ n) (hi : i < 15)
include hn hi

theorem formatCell1_lt : (formatCell1 i).1 < n ∧ (formatCell1 i).2 < n := by
  unfold formatCell1
  split_ifs <;> dsimp only <;> omega

theorem formatCell2_lt : (formatCell2 n i).1 < n ∧ (formatCell2 n i).2 < n := by
  unfold formatCell2
  split_ifs <;> dsimp only <;> omega

/-- No cell holds two bits. -/
theorem HoldsBit.unique {j r c : Nat} (hj : j < 15) (h : HoldsBit n i r c) (h' : HoldsBit n j r c) : i = j := by
  rw [holdsBit_iff hn] at h
  rw [holdsBit_iff hn] at h'
  omega

/-- The dark module is no cell of the format word. -/
theorem not_holdsBit_darkCell : ¬ HoldsBit n i (n - 8) 8 := by
  rw [holdsBit_iff hn]
  omega

theorem HoldsBit.formatCell {r c : Nat} (h : HoldsBit n i r c) : FormatCell n r c := by
  rw [holdsBit_iff hn] at h
  unfold FormatCell
  omega

theorem at_writeFormatBit_of_holdsBit {M : Matrix} (h : IsSquare n M) (w : Nat) {r c : Nat} (hb : HoldsBit n i r c) :
    (writeFormatBit n w M i).at r c = w.testBit i := by
  rw [writeFormatBit, (isSquare_setCell h _ _).at_setCell (formatCell2_lt hn hi), h.at_setCell (formatCell1_lt hn hi)]
  rcases hb with hb | hb
  · rw [if_pos hb, ite_self]
  · rw [if_pos hb]

theorem at_writeFormatBit_of_not_holdsBit {M : Matrix} (h : IsSquare n M) (w : Nat) {r c : Nat}
    (hb : ¬ HoldsBit n i r c) : (writeFormatBit n w M i).at r c = M.at r c := by
  rw [HoldsBit, not_or] at hb
  rw [writeFormatBit, (isSquare_setCell h _ _).at_setCell (formatCell2_lt hn hi), h.at_setCell (formatCell1_lt hn hi),
    if_neg hb.2, if_neg hb.1]

end Places

section Format
variable {n : Nat} (hn : 21 ≤ n) (w : Nat) {r c : Nat}
include hn

theorem at_formatBits_of_no_bit : ∀ (l : List Nat) (M : Matrix), IsSquare n M → (∀ i ∈ l, i < 15) →
    (∀ i ∈ l, ¬ HoldsBit n i r c) → (l.foldl (writeFormatBit n w) M).at r c = M.at r c
  | [], _, _, _, _ => rfl
  | i :: l, M, h, hl, hno => by
    have hi := hl i (by simp)
    rw [List.foldl_cons, at_formatBits_of_no_bit l _ (isSquare_writeFormatBit h w i) (fun j hj => hl j (by simp [hj]))
      (fun j hj => hno j (by simp [hj])), at_writeFormatBit_of_not_holdsBit hn hi h w (hno i (by simp))]

/-- A bit's cells hold it after all the writes: no later one goes there. -/
theorem at_formatBits_of_holdsBit {i : Nat} (hb : HoldsBit n i r c) : ∀ (l : List Nat) (M : Matrix), IsSquare n M →
    (∀ j ∈ l, j < 15) → i ∈ l → (l.foldl (writeFormatBit n w) M).at r c = w.testBit i
  | j :: l, M, h, hl, hmem => by
    have hj := hl j (by simp)
    have hl' : ∀ k ∈ l, k < 15 := fun k hk => hl k (by simp [hk])
    have hsq := isSquare_writeFormatBit h w j
    rw [List.foldl_cons]
    by_cases hil : i ∈ l
    · exact at_formatBits_of_holdsBit hb l _ hsq hl' hil
    · obtain rfl : i = j := by simpa [hil] using hmem
      have hno : ∀ k ∈ l, ¬ HoldsBit n k r c := fun k hk hk' => hil (hb.unique hn hj (hl' k hk) hk' ▸ hk)
      rw [at_formatBits_of_no_bit hn w l _ hsq hl' hno, at_writeFormatBit_of_holdsBit hn hj h w hb]

end Format

theorem isSquare_formatBits {n : Nat} (w : Nat) : ∀ (l : List Nat) (M : Matrix), IsSquare n M →
    IsSquare n (l.foldl (writeFormatBit n w) M)
  | [], _, h => h
  | i :: l, _, h => isSquare_formatBits w l _ (isSquare_writeFormatBit h w i)

/-! ### The masked modules (R160, R163) -/

/-- Eight cells of a plane row are the bits of a byte. -/
theorem Memory.getD_row (m : Memory) (base r n : Nat) {c : Nat} (hc : c < n) :
    (m.row base r n).getD c false = m.cell base r c := by
  have hbyte : c / 8 < (m.readBlock (base + rowPitch * r) ((n + 7) / 8)).length := by
    rw [Memory.length_readBlock]; omega
  have hbit : c % 8 < 8 := Nat.mod_lt _ (by decide)
  have hget := getD_flatMap_const cellsOfByte false 8 _ (fun b _ => length_cellsOfByte b) (c / 8) (c % 8) hbyte hbit
  rw [Nat.div_add_mod'] at hget
  rw [Memory.row, List.getD_eq_getElem?_getD, List.getElem?_take_of_lt hc, ← List.getD_eq_getElem?_getD, hget,
    Memory.getElem_readBlock, cellsOfByte, List.getD_eq_getElem _ _ (by simpa using hbit)]
  simp [Memory.cell]

theorem getD_maskRow (m : Fin 8) (r : Nat) : ∀ (vs fs : List Bool) (c k : Nat), vs.length = fs.length → k < vs.length →
    (maskRow m r c vs fs).getD k false = (vs.getD k false ^^ (!fs.getD k false && maskBit m r (c + k)))
  | _ :: _, _ :: _, _, 0, _, _ => rfl
  | _ :: vs, _ :: fs, c, k + 1, hlen, hk => by
    have ih := getD_maskRow m r vs fs (c + 1) k (by simpa using hlen) (by simpa using hk)
    rwa [Nat.add_right_comm] at ih

theorem at_masked (s : State) (m : Fin 8) {r c : Nat} (hr : r < s.qcfg.side) (hc : c < s.qcfg.side) :
    (s.masked m).at r c = (s.mem.modCell r c ^^ (!s.mem.funcCell r c && maskBit m r c)) := by
  have hrow : (s.masked m).getD r [] =
      maskRow m r 0 (s.mem.row modBase r s.qcfg.side) (s.mem.row funcBase r s.qcfg.side) := by
    rw [List.getD_eq_getElem _ _ (by simpa [State.masked] using hr)]
    simp [State.masked]
  rw [Matrix.at, hrow, getD_maskRow _ _ _ _ _ _ (by simp) (by simpa using hc), Memory.getD_row _ _ _ _ hc,
    Memory.getD_row _ _ _ _ hc, Nat.zero_add]
  rfl

theorem maskBit_iff (m : Fin 8) (r c : Nat) : maskBit m r c = true ↔ Inverted m.val r c := by
  fin_cases m <;> simp [maskBit, Inverted]

/-! ### The scratch matrix (R163) -/

theorem Qcfg.side_ge {q : Qcfg} (h : q.valid = true) : 21 ≤ q.side := by
  obtain ⟨hver, -⟩ := q.valid_iff.mp h
  rw [Qcfg.side]
  omega

section Scratch
variable {s : State} (hv : s.qcfg.valid = true) (m : Fin 8)
include hv

/-- A candidate is the masked modules, then the format bits, then the dark module. -/
theorem at_scratch (r c : Nat) : (s.scratch m).at r c =
    if darkCell s.qcfg.side = (r, c) then true
    else ((List.range 15).foldl (writeFormatBit s.qcfg.side (s.formatWord m)) (s.masked m)).at r c := by
  have hn := Qcfg.side_ge hv
  have hsq := isSquare_formatBits (s.formatWord m) (List.range 15) _ (isSquare_masked s m)
  exact hsq.at_setCell (p := darkCell s.qcfg.side) (by dsimp only [darkCell]; omega) true r c

theorem at_scratch_darkCell : (s.scratch m).at (s.qcfg.side - 8) 8 = true := by
  rw [at_scratch hv, darkCell, if_pos rfl]

theorem at_scratch_of_holdsBit {i r c : Nat} (hi : i < 15) (hb : HoldsBit s.qcfg.side i r c) :
    (s.scratch m).at r c = (s.formatWord m).testBit i := by
  have hn := Qcfg.side_ge hv
  have hdark : ¬ darkCell s.qcfg.side = (r, c) := by
    rw [darkCell, Prod.mk.injEq]
    rintro ⟨rfl, rfl⟩
    exact not_holdsBit_darkCell hn hi hb
  rw [at_scratch hv, if_neg hdark]
  exact at_formatBits_of_holdsBit hn _ hb _ _ (isSquare_masked s m) (by simp) (by simpa using hi)

theorem at_scratch_of_not_formatCell {r c : Nat} (hf : ¬ FormatCell s.qcfg.side r c) :
    (s.scratch m).at r c = (s.masked m).at r c := by
  have hn := Qcfg.side_ge hv
  have hdark : ¬ darkCell s.qcfg.side = (r, c) := by
    rw [darkCell, Prod.mk.injEq]
    rintro ⟨rfl, rfl⟩
    exact hf (.inl ⟨rfl, .inr (Nat.le_refl _)⟩)
  have hl : ∀ i ∈ List.range 15, i < 15 := by simp
  rw [at_scratch hv, if_neg hdark]
  exact at_formatBits_of_no_bit hn _ _ _ (isSquare_masked s m) hl fun i hi hb => hf (hb.formatCell hn (hl i hi))

end Scratch

/-- Settles O51: the bits of the format word by R162's table, and the masked module in every cell it leaves. -/
theorem scratchMatrixCells : Obligations.ScratchMatrixCells := by
  rintro s m n w hv rfl rfl
  have hn := Qcfg.side_ge hv
  have hbit : ∀ {i r c : Nat}, i < 15 → HoldsBit s.qcfg.side i r c →
      (s.scratch m).at r c = (fmtWord (eclCode s.qcfg.ecl) m.val).testBit i := at_scratch_of_holdsBit hv m
  refine ⟨fun i hi => ⟨?_, ?_⟩, ⟨?_, ?_⟩, ⟨?_, ?_⟩, ⟨?_, ?_⟩, fun i hlo hhi => ⟨?_, ?_⟩, ?dark, ?modules, ?square⟩
  case dark => exact at_scratch_darkCell hv m
  case modules =>
    intro r hr c hc hf
    refine ⟨maskBit m r c, maskBit_iff m r c, ?_⟩
    rw [at_scratch_of_not_formatCell hv m hf, at_masked s m hr hc]
  case square => exact isSquare_scratch s m
  all_goals exact hbit (by omega) ((holdsBit_iff hn).mpr (by omega))

end Sys2Proof.Machine
end

section
/-! SUPPORT. The penalty rules as the index loops of the statements (44_mask.md R164 to R168): the lines cell by cell, and for
each rule what its list recursion adds up, position by position. -/

namespace Sys2Proof.Machine
open Sys2Proof.Claims

/-! ### The lines (R164) -/

theorem map_getD_range {α : Type} (d : α) (l : List α) : ((List.range l.length).map fun i => l.getD i d) = l := by
  apply List.ext_getElem (by simp)
  intro i h _
  have hi : i < l.length := by simpa using h
  simp [List.getElem?_eq_getElem hi]

theorem IsSquare.row_eq {n : Nat} {M : Matrix} (h : IsSquare n M) {r : Nat} (hr : r < n) :
    ((List.range n).map fun c => M.at r c) = M.getD r [] := by
  have hrow := map_getD_range false (M.getD r [])
  rwa [h.length_getD hr] at hrow

theorem IsSquare.rows_eq {n : Nat} {M : Matrix} (h : IsSquare n M) :
    ((List.range n).map fun r => (List.range n).map fun c => M.at r c) = M := by
  calc ((List.range n).map fun r => (List.range n).map fun c => M.at r c)
      = (List.range n).map fun r => M.getD r [] := List.map_congr_left fun r hr => h.row_eq (List.mem_range.mp hr)
    _ = M := h.1 ▸ map_getD_range [] M

theorem IsSquare.column_eq {n : Nat} {M : Matrix} (h : IsSquare n M) (c : Nat) :
    ((List.range n).map fun r => M.at r c) = M.map fun row => row.getD c false := by
  conv_rhs => rw [← map_getD_range [] M, h.1, List.map_map]
  rfl

theorem IsSquare.linesOf_eq {n : Nat} {M : Matrix} (h : IsSquare n M) : linesOf n M = scanLines n M := by
  simp only [linesOf, scanLines, columns, h.rows_eq, h.column_eq]

theorem IsSquare.length_of_mem_scanLines {n : Nat} {M : Matrix} (h : IsSquare n M) {v : List Bool}
    (hv : v ∈ scanLines n M) : v.length = n := by
  rcases List.mem_append.mp hv with hv | hv
  · exact h.2 v hv
  · obtain ⟨c, -, rfl⟩ := List.mem_map.mp hv
    rw [List.length_map, h.1]

/-! ### Rule 1 (R165) -/

/-- The body of R165's loop at index `k`: the pair is (run, P1). -/
def runStep (v : List Bool) (p : Nat × Nat) (k : Nat) : Nat × Nat :=
  if k < v.length ∧ v.getD k false = v.getD (k - 1) false then (p.1 + 1, p.2)
  else (1, if 5 ≤ p.1 then p.2 + 3 + (p.1 - 5) else p.2)

theorem runLoop_eq (v : List Bool) : runLoop v = ((List.range' 1 v.length).foldl (runStep v) (1, 0)).2 := rfl

/-- A run that ends at index `k` is scored there. -/
theorem runStep_of_end {v : List Bool} {k : Nat}
    (h : ¬ (k < v.length ∧ v.getD k false = v.getD (k - 1) false)) (run acc : Nat) :
    runStep v (run, acc) k = (1, acc + runScore run) := by
  rw [runStep, if_neg h, runScore]
  split <;> simp [Nat.add_assoc]

theorem runStep_of_same {v : List Bool} {k : Nat} (h : k < v.length ∧ v.getD k false = v.getD (k - 1) false)
    (run acc : Nat) : runStep v (run, acc) k = (run + 1, acc) := if_pos h

/-- The loop from the end of `pre ++ [prev]` on, with a run of length `run` ending at `prev`. -/
theorem foldl_runStep (l : List Bool) : ∀ (pre : List Bool) (prev : Bool) (run acc : Nat),
    ((List.range' (pre.length + 1) (l.length + 1)).foldl (runStep (pre ++ prev :: l)) (run, acc)).2 =
      acc + runsFrom prev run l := by
  induction l with
  | nil =>
    intro pre prev run acc
    rw [List.length_nil, List.range'_succ, List.range'_zero, List.foldl_cons, List.foldl_nil,
      runStep_of_end (by simp), runsFrom]
  | cons v l ih =>
    intro pre prev run acc
    have hnext : (pre ++ prev :: v :: l).getD (pre.length + 1) false = v := by simp
    have hlast : (pre ++ prev :: v :: l).getD (pre.length + 1 - 1) false = prev := by simp
    have hsplit : pre ++ prev :: v :: l = (pre ++ [prev]) ++ v :: l := by simp
    have hrest := ih (pre ++ [prev]) v
    rw [← hsplit, List.length_append, List.length_singleton] at hrest
    rw [List.length_cons, List.range'_succ, List.foldl_cons, runsFrom]
    by_cases hv : v = prev
    · rw [if_pos hv, runStep_of_same ⟨by simp, by rw [hnext, hlast, hv]⟩, hrest, hv]
    · rw [if_neg hv, runStep_of_end (fun h => hv (by rw [← hnext, h.2, hlast])), hrest, Nat.add_assoc]

theorem runLoop_eq_lineRuns (v : List Bool) : runLoop v = lineRuns v := by
  cases v with
  | nil => rfl
  | cons v l => rw [runLoop_eq, lineRuns, ← Nat.zero_add (runsFrom v 1 l)]; exact foldl_runStep l [] v 1 0

/-- Settles O52: the lines are the rows and columns cell by cell, and on each the recursion is the loop. -/
theorem ruleOneCountsRuns : Obligations.RuleOneCountsRuns := by
  intro n M h
  rw [rule1, h.linesOf_eq, List.map_congr_left fun v _ => runLoop_eq_lineRuns v]

/-! ### Rule 2 (R166) -/

theorem sum_map_range_succ (f : Nat → Nat) (n : Nat) :
    ((List.range (n + 1)).map f).sum = f 0 + ((List.range n).map fun i => f (i + 1)).sum := by
  rw [List.range_succ_eq_map, List.map_cons, List.sum_cons, List.map_map]
  rfl

theorem sum_flatMap {α : Type} (f : α → List Nat) (l : List α) : (l.flatMap f).sum = (l.map fun x => (f x).sum).sum := by
  rw [List.flatMap_def, List.sum_flatten, List.map_map]
  rfl

/-- 1 for four equal values in the 2 × 2 window at column `c` of two rows. -/
def equalWindow (r1 r2 : List Bool) (c : Nat) : Nat :=
  if r1.getD c false = r1.getD (c + 1) false ∧ r1.getD (c + 1) false = r2.getD c false ∧
    r2.getD c false = r2.getD (c + 1) false then 1 else 0

theorem rowPairBlocks_eq : ∀ r1 r2 : List Bool, r1.length = r2.length →
    rowPairBlocks r1 r2 = ((List.range (r1.length - 1)).map (equalWindow r1 r2)).sum
  | [], _, _ => rfl
  | [_], _, _ => rfl
  | a :: b :: t, c :: d :: u, h => by
    have ih := rowPairBlocks_eq (b :: t) (d :: u) (by simpa using h)
    rw [rowPairBlocks, ih]
    exact (sum_map_range_succ (equalWindow (a :: b :: t) (c :: d :: u)) t.length).symm

theorem blockCount_eq : ∀ M : Matrix,
    blockCount M = ((List.range (M.length - 1)).map fun r => rowPairBlocks (M.getD r []) (M.getD (r + 1) [])).sum
  | [] => rfl
  | [_] => rfl
  | r1 :: r2 :: t => by
    rw [blockCount, blockCount_eq (r2 :: t)]
    exact (sum_map_range_succ
      (fun r => rowPairBlocks ((r1 :: r2 :: t).getD r []) ((r1 :: r2 :: t).getD (r + 1) [])) t.length).symm

theorem IsSquare.blockCount_eq {n : Nat} {M : Matrix} (h : IsSquare n M) : blockCount M =
    ((List.range (n - 1)).map fun r =>
      ((List.range (n - 1)).map (equalWindow (M.getD r []) (M.getD (r + 1) []))).sum).sum := by
  rw [Machine.blockCount_eq, h.1]
  congr 1
  refine List.map_congr_left fun r hr => ?_
  have hr : r < n - 1 := List.mem_range.mp hr
  rw [rowPairBlocks_eq, h.length_getD (by omega)]
  rw [h.length_getD (by omega), h.length_getD (by omega)]

/-- Settles O53: the recursion over pairs of rows adds the windows row by row, each column by column. -/
theorem ruleTwoCountsWindows : Obligations.RuleTwoCountsWindows := by
  intro n M h
  have hscore : ∀ r c : Nat,
      (if M.at r c = M.at r (c + 1) ∧ M.at r (c + 1) = M.at (r + 1) c ∧ M.at (r + 1) c = M.at (r + 1) (c + 1)
        then 3 else 0) = 3 * equalWindow (M.getD r []) (M.getD (r + 1) []) c := fun r c => by
    rw [equalWindow, mul_ite]
    rfl
  simp only [rule2, h.blockCount_eq, sum_flatMap, hscore, List.sum_map_mul_left]

/-! ### Rule 3 (R167) -/

theorem finderAt_of_short {u : List Bool} (h : u.length < 15) : finderAt u = 0 := by
  unfold finderAt
  split
  · simp only [List.length_cons] at h
    omega
  · rfl

/-- Only a position with fifteen cells from it on can hold a core with its four cells on each side. -/
theorem finderCount_eq (u : List Bool) :
    finderCount u = ((List.range (u.length - 14)).map fun i => finderAt (u.drop i)).sum := by
  induction u with
  | nil => rfl
  | cons v t ih =>
    rw [finderCount, ih, List.length_cons]
    by_cases h : t.length < 14
    · have hshort : (v :: t).length < 15 := Nat.succ_lt_succ h
      rw [finderAt_of_short hshort, Nat.sub_eq_zero_of_le (by omega), Nat.sub_eq_zero_of_le (by omega)]
      rfl
    · rw [show t.length + 1 - 14 = t.length - 14 + 1 by omega]
      exact (sum_map_range_succ (fun i => finderAt ((v :: t).drop i)) (t.length - 14)).symm

theorem getD_padLine (v : List Bool) (k : Nat) : (padLine v).getD k false = cellAround v k := by
  rw [padLine, cellAround, List.append_assoc]
  by_cases h : 4 ≤ k
  · rw [if_pos h, List.getD_append_right _ _ _ _ (by simpa using h), List.length_replicate]
    by_cases hk : k - 4 < v.length
    · rw [List.getD_append _ _ _ _ hk]
    · rw [List.getD_append_right _ _ _ _ (by omega), List.getD_eq_default v _ (by omega)]
      rw [List.getD_eq_getElem?_getD, List.getElem?_replicate]
      split <;> rfl
  · rw [if_neg h, List.getD_append _ _ _ _ (by simp; omega), List.getD_replicate _ (by omega)]

theorem drop_eq_getD_cons {u : List Bool} {i : Nat} (h : i < u.length) :
    u.drop i = u.getD i false :: u.drop (i + 1) := by
  rw [List.drop_eq_getElem_cons h, List.getD_eq_getElem _ _ h]

/-- Four cells are light exactly when none is dark. -/
theorem ite_or_eq_light (a b c d : Bool) :
    (if a || b || c || d then 0 else 1) = if [a, b, c, d] = [false, false, false, false] then 1 else 0 := by
  revert a b c d; decide

/-- The fifteen cells from position `i` on of a padded line. -/
theorem finderAt_drop_padLine {v : List Bool} {i : Nat} (h : i + 15 ≤ (padLine v).length) :
    finderAt ((padLine v).drop i) = finderOccurrences v i := by
  iterate 15 rw [drop_eq_getD_cons (by omega)]
  simp only [getD_padLine, finderAt, ite_or_eq_light]
  rfl

theorem length_padLine (v : List Bool) : (padLine v).length = v.length + 8 := by
  simp only [padLine, List.length_append, List.length_replicate]
  omega

theorem finderCount_padLine {n : Nat} {v : List Bool} (hv : v.length = n) :
    finderCount (padLine v) = ((List.range (n - 6)).map (finderOccurrences v)).sum := by
  have hlen := length_padLine v
  rw [finderCount_eq, show (padLine v).length - 14 = n - 6 by omega]
  congr 1
  exact List.map_congr_left fun i hi => finderAt_drop_padLine (by have := List.mem_range.mp hi; omega)

/-- Settles O54: on each line the recursion adds the occurrences at positions 0 .. side-7 of the padded line. -/
theorem ruleThreeCountsFinders : Obligations.RuleThreeCountsFinders := by
  intro n M _ h
  rw [rule3, h.linesOf_eq, List.map_congr_left fun v hv => finderCount_padLine (h.length_of_mem_scanLines hv)]

/-! ### Rule 4 (R168) -/

theorem length_filter_getD (l : List Bool) :
    ((List.range l.length).filter fun c => l.getD c false).length = l.count true := by
  have hcount : (((List.range l.length).map fun c => l.getD c false).filter fun b => b).length = l.count true := by
    rw [map_getD_range, List.count_eq_length_filter]
    simp
  rwa [List.filter_map, List.length_map] at hcount

/-- The dark cells counted cell by cell. -/
theorem IsSquare.darkCount_eq {n : Nat} {M : Matrix} (h : IsSquare n M) :
    darkCount M = ((List.range n).map fun r => ((List.range n).filter fun c => M.at r c).length).sum := by
  have hrow : ∀ r ∈ List.range n, ((List.range n).filter fun c => M.at r c).length = (M.getD r []).count true := by
    intro r hr
    have hcount := length_filter_getD (M.getD r [])
    rwa [h.length_getD (List.mem_range.mp hr)] at hcount
  conv_lhs => rw [darkCount, ← map_getD_range [] M, h.1, List.map_map]
  rw [List.map_congr_left hrow]
  rfl

theorem IsSquare.darkCount_le {n : Nat} {M : Matrix} (h : IsSquare n M) : darkCount M ≤ n * n := by
  have hsum := List.sum_le_card_nsmul (M.map fun row => row.count true) n fun x hx => by
    obtain ⟨row, hrow, rfl⟩ := List.mem_map.mp hx
    exact h.2 row hrow ▸ List.count_le_length
  rwa [List.length_map, h.1] at hsum

theorem cast_balance (dark total : Nat) :
    (balance dark total : Int) = 10 * (10 * |2 * (dark : Int) - total| / total) := by
  have habs : |2 * (dark : Int) - total| = ((2 * dark - total + (total - 2 * dark) : Nat) : Int) := by
    rcases Nat.le_total (2 * dark) total with h | h
    · rw [abs_of_nonpos (by omega)]; omega
    · rw [abs_of_nonneg (by omega)]; omega
  rw [habs, balance]
  push_cast
  rfl

theorem balance_mod_ten (dark total : Nat) : balance dark total % 10 = 0 := Nat.mul_mod_right _ _

theorem balance_le {dark total : Nat} (h : dark ≤ total) : balance dark total ≤ 100 := by
  have hdiv : 10 * (2 * dark - total + (total - 2 * dark)) / total ≤ 10 := Nat.div_le_of_le_mul (by omega)
  rw [balance]
  omega

/-- Settles O55: the two truncated differences are the absolute difference, at most the total. -/
theorem ruleFourMeasuresBalance : Obligations.RuleFourMeasuresBalance := by
  rintro n M _ h _ rfl
  rw [← h.darkCount_eq]
  refine ⟨?_, balance_mod_ten _ _, balance_le h.darkCount_le⟩
  have hcast := cast_balance (darkCount M) (n * n)
  rwa [Nat.cast_mul] at hcast

end Sys2Proof.Machine
end

section
/-! SUPPORT. The range of the four scores (10_state.md R42), for a square matrix of any side: what one line or one pair of
rows can score, and from it the bound of each rule. -/

namespace Sys2Proof.Machine

theorem runScore_le (run : Nat) : runScore run ≤ run - 2 := by
  rw [runScore]
  split <;> omega

theorem runsFrom_le (l : List Bool) : ∀ (prev : Bool) (run : Nat), 1 ≤ run → runsFrom prev run l ≤ run + l.length - 2 := by
  induction l with
  | nil => exact fun _ run _ => runScore_le run
  | cons v l ih =>
    intro prev run hrun
    have hend := runScore_le run
    have hsame := ih prev (run + 1) (by omega)
    have hnew := ih v 1 (Nat.le_refl 1)
    rw [runsFrom, List.length_cons]
    split <;> omega

theorem lineRuns_le (v : List Bool) : lineRuns v ≤ v.length - 2 := by
  cases v with
  | nil => exact Nat.le_refl 0
  | cons v l =>
    have hle := runsFrom_le l v 1 (Nat.le_refl 1)
    rw [lineRuns, List.length_cons]
    omega

theorem rowPairBlocks_le : ∀ r1 r2 : List Bool, rowPairBlocks r1 r2 ≤ r1.length - 1
  | [], _ => Nat.le_refl 0
  | [_], [] | [_], [_] | [_], _ :: _ :: _ => Nat.le_refl 0
  | _ :: _ :: _, [] | _ :: _ :: _, [_] => Nat.zero_le _
  | a :: b :: t, c :: d :: u => by
    have ih := rowPairBlocks_le (b :: t) (d :: u)
    rw [rowPairBlocks]
    simp only [List.length_cons] at ih ⊢
    split <;> omega

theorem finderAt_le (u : List Bool) : finderAt u ≤ 2 := by
  unfold finderAt
  split
  · split_ifs <;> decide
  · exact Nat.zero_le _

/-- A list of numbers with a common bound adds up to at most its length times the bound. -/
theorem sum_map_le {α : Type} {l : List α} {f : α → Nat} {b : Nat} (h : ∀ x ∈ l, f x ≤ b) :
    (l.map f).sum ≤ l.length * b := by
  have hsum := List.sum_le_card_nsmul (l.map f) b (by simpa using h)
  rwa [List.length_map] at hsum

theorem finderCount_padLine_le (v : List Bool) : finderCount (padLine v) ≤ (v.length - 6) * 2 := by
  have hsum := sum_map_le (l := List.range ((padLine v).length - 14)) (f := fun i => finderAt ((padLine v).drop i))
    fun i _ => finderAt_le _
  rwa [← finderCount_eq, List.length_range, length_padLine, Nat.add_sub_add_right v.length 8 6] at hsum

section Bounds
variable {n : Nat} {M : Matrix} (h : IsSquare n M)
include h

theorem IsSquare.length_scanLines : (scanLines n M).length = 2 * n := by
  rw [scanLines, columns, List.length_append, List.length_map, List.length_range, h.1, Nat.two_mul]

theorem IsSquare.rule1_le : rule1 n M ≤ 2 * n * (n - 2) := by
  have hsum := sum_map_le (f := lineRuns) fun v hv => h.length_of_mem_scanLines hv ▸ lineRuns_le v
  rwa [h.length_scanLines] at hsum

theorem IsSquare.rule2_le : rule2 M ≤ 3 * ((n - 1) * (n - 1)) := by
  rw [rule2, Machine.blockCount_eq, h.1]
  have hsum := sum_map_le (l := List.range (n - 1))
    (f := fun r => rowPairBlocks (M.getD r []) (M.getD (r + 1) [])) (b := n - 1) fun r hr => by
      have hr : r < n - 1 := List.mem_range.mp hr
      have hle := rowPairBlocks_le (M.getD r []) (M.getD (r + 1) [])
      rwa [h.length_getD (by omega)] at hle
  rw [List.length_range] at hsum
  omega

theorem IsSquare.rule3_le : rule3 n M ≤ 40 * (2 * n * ((n - 6) * 2)) := by
  have hsum := sum_map_le (f := fun v => finderCount (padLine v)) fun v hv =>
    h.length_of_mem_scanLines hv ▸ finderCount_padLine_le v
  rw [h.length_scanLines] at hsum
  exact Nat.mul_le_mul_left 40 hsum

theorem IsSquare.rule4_le : rule4 n M ≤ 100 := balance_le h.darkCount_le

end Bounds

/-- R42's bounds, at the largest side. -/
theorem scoresOf_le {n : Nat} {M : Matrix} (h : IsSquare n M) (hn : n ≤ 177) :
    (scoresOf n M).p1 ≤ 354 * 175 ∧ (scoresOf n M).p2 ≤ 176 * 176 * 3 ∧ (scoresOf n M).p3 ≤ 40 * 2 * 354 * 171 ∧
    (scoresOf n M).p4 ≤ 100 := by
  refine ⟨h.rule1_le.trans ?_, h.rule2_le.trans ?_, h.rule3_le.trans ?_, h.rule4_le⟩
  · exact Nat.mul_le_mul (by omega) (by omega)
  · have hsq : (n - 1) * (n - 1) ≤ 176 * 176 := Nat.mul_le_mul (by omega) (by omega)
    omega
  · have hmul : 2 * n * ((n - 6) * 2) ≤ 354 * (171 * 2) := Nat.mul_le_mul (by omega) (by omega)
    omega

theorem Qcfg.side_le {q : Qcfg} (h : q.valid = true) : q.side ≤ 177 := by
  obtain ⟨-, hver⟩ := q.valid_iff.mp h
  rw [Qcfg.side]
  omega

theorem scores_le {s : State} (hv : s.qcfg.valid = true) (m : Fin 8) :
    (s.scores m).p1 ≤ 354 * 175 ∧ (s.scores m).p2 ≤ 176 * 176 * 3 ∧ (s.scores m).p3 ≤ 40 * 2 * 354 * 171 ∧
    (s.scores m).p4 ≤ 100 :=
  scoresOf_le (isSquare_scratch s m) (Qcfg.side_le hv)

theorem penalty_lt {s : State} (hv : s.qcfg.valid = true) (m : Fin 8) : s.penalty m < 2 ^ 23 := by
  obtain ⟨h1, h2, h3, h4⟩ := scores_le hv m
  rw [State.penalty, Scores.total]
  omega

end Sys2Proof.Machine
end

section
/-! SUPPORT. The commands that score and commit (44_mask.md R171 to R173, R175): the penalty registers read back as numbers,
the FINAL plane cell by cell, and the least of eight totals. -/

namespace Sys2Proof.Machine
open Sys2Proof.Claims

/-! ### The check (R191) -/

/-- The commands whose one check is QCFG's validity. -/
theorem exec_maskReader_of_invalid {s : State} {i : Instr} (hi : s.check i = checkQcfg s) (hv : s.qcfg.valid = false) :
    exec i s = .next (afterFailure s .badQcfg) := by
  have hcheck : checkQcfg s = some .badQcfg := by simp [checkQcfg, hv]
  rw [exec_of_check_some (hi.trans hcheck), State.fail_eq_afterFailure]

theorem exec_maskReader_of_valid {s : State} {i : Instr} (hi : s.check i = checkQcfg s) (hv : s.qcfg.valid = true) :
    exec i s = .next (afterSuccess (effectOf i s)) := by
  have hcheck : checkQcfg s = none := if_pos hv
  rw [exec_of_check_none (hi.trans hcheck), State.complete_eq_afterSuccess]

/-! ### The penalty registers (R171) -/

/-- The registers hold the scores themselves: none overflows (10_state.md R42). -/
theorem toNat_regs {s : State} (hv : s.qcfg.valid = true) (m : Fin 8) :
    (s.scores m).regs.p1.toNat = rule1 s.qcfg.side (s.scratch m) ∧ (s.scores m).regs.p2.toNat = rule2 (s.scratch m) ∧
    (s.scores m).regs.p3.toNat = rule3 s.qcfg.side (s.scratch m) ∧
    (s.scores m).regs.p4.toNat = rule4 s.qcfg.side (s.scratch m) := by
  obtain ⟨h1, h2, h3, h4⟩ := scores_le hv m
  exact ⟨toNat_natWord (by omega), toNat_natWord (by omega), toNat_natWord (by omega), toNat_natWord (by omega)⟩

theorem toNat_regs_total {s : State} (hv : s.qcfg.valid = true) (m : Fin 8) :
    (s.scores m).regs.total.toNat = s.penalty m :=
  toNat_natWord (Nat.lt_trans (penalty_lt hv m) (by decide))

/-- Settles O56: the check on QCFG, and otherwise one entry of the penalty registers replaced by the scores. -/
theorem mkScoreWritesThePenalties : Obligations.MkScoreWritesThePenalties := by
  refine ⟨fun m => (decode_maskWord (op := 0x31) (by decide) m).trans (classM_of_mask m _),
    fun s m => ⟨exec_maskReader_of_invalid rfl, ?_⟩⟩
  rintro hv S n rfl rfl
  have hpen : (effectOf (.mkScore m) s).pen[m] = (s.scores m).regs := Vector.getElem_set_self m.isLt
  obtain ⟨h1, h2, h3, h4⟩ := toNat_regs hv m
  refine ⟨_, exec_maskReader_of_valid rfl hv, rfl, ?p1, ?p2, ?p3, ?p4, ?total, ?result, ?others⟩
  case p1 => exact hpen ▸ h1
  case p2 => exact hpen ▸ h2
  case p3 => exact hpen ▸ h3
  case p4 => exact hpen ▸ h4
  case total => exact hpen ▸ toNat_regs_total hv m
  case result => exact congrArg Penalty.total hpen.symm
  case others => exact fun k hk => Vector.getElem_set_ne m.isLt k.isLt fun h => hk (Fin.ext h.symm)

/-! ### The FINAL plane (R175) -/

theorem testBit_natOfCells : ∀ (bs : List Bool) (i : Nat), (natOfCells bs).testBit i = bs.getD i false
  | [], i => by simp [natOfCells]
  | b :: bs, 0 => by cases b <;> simp [natOfCells, Nat.testBit_zero]
  | b :: bs, i + 1 => by
    have hhalf : natOfCells (b :: bs) / 2 = natOfCells bs := by
      cases b <;> simp only [natOfCells, Bool.toNat_false, Bool.toNat_true] <;> omega
    rw [Nat.testBit_succ, hhalf, testBit_natOfCells bs i, List.getD_cons_succ]

/-- Bit `i` of byte `k` of a row is its cell 8k + i. -/
theorem getLsbD_bytesOfCells : ∀ (n : Nat) (bs : List Bool) (k i : Nat), k < n → i < 8 →
    ((bytesOfCells n bs).getD k 0).getLsbD i = bs.getD (8 * k + i) false
  | n + 1, bs, 0, i, _, hi => by
    rw [bytesOfCells, List.getD_cons_zero, BitVec.getLsbD_ofNat, testBit_natOfCells, decide_eq_true hi, Bool.true_and,
      List.getD_eq_getElem?_getD, List.getElem?_take_of_lt hi, ← List.getD_eq_getElem?_getD, Nat.mul_zero, Nat.zero_add]
  | n + 1, bs, k + 1, i, hk, hi => by
    rw [bytesOfCells, List.getD_cons_succ, getLsbD_bytesOfCells n _ k i (Nat.lt_of_succ_lt_succ hk) hi,
      List.getD_eq_getElem?_getD, List.getElem?_drop, ← List.getD_eq_getElem?_getD]
    congr 1
    omega

/-- A written FINAL cell is the matrix's cell, and light outside it. -/
theorem finalCell_writeBlock (m : Memory) (M : Matrix) {r c : Nat} (hr : r < 177) (hc : c < 256) :
    (m.writeBlock finalBase (finalBytes M)).finalCell r c = M.at r c := by
  have hk : c / 8 < rowPitch := by rw [rowPitch]; omega
  have hpos : rowPitch * r + c / 8 < (finalBytes M).length := by
    rw [length_finalBytes, rowPitch, matRows]; omega
  have hbyte := getD_flatMap_const (fun r => bytesOfCells rowPitch (M.getD r [])) 0 rowPitch (List.range matRows)
    (by simp) r (c / 8) (by simpa [matRows] using hr) hk
  rw [List.getElem_range, Nat.mul_comm r rowPitch] at hbyte
  rw [Memory.finalCell, Memory.cell, Nat.add_assoc, Memory.read_writeBlock_inside _ _ _ _ hpos,
    ← List.getD_eq_getElem _ 0 hpos, finalBytes, hbyte, getLsbD_bytesOfCells _ _ _ _ hk (Nat.mod_lt _ (by decide)),
    Nat.div_add_mod]
  rfl

theorem finalCell_commit (s : State) (m : Fin 8) {r c : Nat} (hr : r < 177) (hc : c < 256) :
    (s.commit m).mem.finalCell r c = if r < s.qcfg.side ∧ c < s.qcfg.side then (s.scratch m).at r c else false := by
  rw [State.commit_mem, finalCell_writeBlock _ _ hr hc]
  split
  next => rfl
  next h => exact (isSquare_scratch s m).at_outside h

theorem read_commit_outside (s : State) (m : Fin 8) {a : Nat} (ha : a < 0x8000 ∨ 0x8000 + 177 * 32 ≤ a) :
    (s.commit m).mem.read a = s.mem.read a := by
  rw [State.commit_mem]
  exact Memory.read_writeBlock_outside _ _ _ _ (by rwa [length_finalBytes])

theorem toNat_natWord_mask (m : Fin 8) : (natWord m.val).toNat = m.val :=
  toNat_natWord (Nat.lt_trans m.isLt (by decide))

/-- Settles O57: the check on QCFG, and otherwise the commit of the named candidate. -/
theorem mkApplyCommitsTheMask : Obligations.MkApplyCommitsTheMask := by
  refine ⟨fun m => (decode_maskWord (op := 0x32) (by decide) m).trans (classM_of_mask m _),
    fun s m => ⟨exec_maskReader_of_invalid rfl, fun hv => ?_⟩⟩
  exact ⟨_, exec_maskReader_of_valid rfl hv, rfl, toNat_natWord_mask m,
    fun r hr c hc => finalCell_commit s m hr hc, fun a ha => read_commit_outside s m ha⟩

/-! ### The least mask (R173) -/

/-- `best` has the least total among the masks `l`, and those of them before it have greater ones. -/
def FirstLeast (totals : Vector Nat 8) (l : List (Fin 8)) (best : Fin 8) : Prop :=
  ∀ m ∈ l, totals[best] ≤ totals[m] ∧ (m < best → totals[best] < totals[m])

/-- Comparing the best so far with later masks, in rising order, leaves the first of the least. -/
theorem firstLeast_foldl (totals : Vector Nat 8) (l : List (Fin 8)) : ∀ best : Fin 8,
    (best :: l).Pairwise (· < ·) → FirstLeast totals (best :: l) (l.foldl (betterMask totals) best) := by
  induction l with
  | nil =>
    intro best _ m hm
    obtain rfl : m = best := by simpa using hm
    exact ⟨Nat.le_refl _, fun h => absurd h (lt_irrefl _)⟩
  | cons k l ih =>
    intro best hsorted
    obtain ⟨hbest, hrest⟩ := List.pairwise_cons.mp hsorted
    have hbk : best < k := hbest k (by simp)
    rw [List.foldl_cons, betterMask]
    by_cases hk : totals[k] < totals[best]
    · rw [if_pos hk]
      have hleast := ih k hrest
      have hlt := Nat.lt_of_le_of_lt (hleast k (by simp)).1 hk
      intro m hm
      rcases List.mem_cons.mp hm with rfl | hm
      · exact ⟨hlt.le, fun _ => hlt⟩
      · exact hleast m hm
    · rw [if_neg hk]
      have hsorted' : (best :: l).Pairwise (· < ·) := hsorted.sublist (by simp)
      have hleast := ih best hsorted'
      have hfirst := hleast best (by simp)
      have hkbest : totals[best] ≤ totals[k] := Nat.le_of_not_lt hk
      have hk' := And.intro (hfirst.1.trans hkbest) fun h => (hfirst.2 (hbk.trans h)).trans_le hkbest
      intro m hm
      rcases List.mem_cons.mp hm with rfl | hm
      · exact hfirst
      rcases List.mem_cons.mp hm with rfl | hm
      · exact hk'
      · exact hleast m (List.mem_cons_of_mem _ hm)

theorem mem_masks : ∀ m : Fin 8, m ∈ (0 :: laterMasks) := by decide

/-- The selected mask has the least total, and every earlier mask a greater one. -/
theorem leastMask_spec (totals : Vector Nat 8) (m : Fin 8) : totals[leastMask totals] ≤ totals[m] ∧
    (m < leastMask totals → totals[leastMask totals] < totals[m]) :=
  firstLeast_foldl totals laterMasks 0 (by decide) m (mem_masks m)

theorem bestMask_spec (s : State) (m : Fin 8) : s.penalty s.bestMask ≤ s.penalty m ∧
    (m < s.bestMask → s.penalty s.bestMask < s.penalty m) := by
  have htotal : ∀ k : Fin 8, (s.allScores.map Scores.total)[k] = s.penalty k := fun k => by
    simp [State.allScores, State.penalty]
  have hspec := leastMask_spec (s.allScores.map Scores.total) m
  rwa [htotal, htotal] at hspec

/-- After MK.SEL the penalty registers hold every candidate's scores. -/
theorem pen_mkSel (s : State) (m : Fin 8) : (afterSuccess (effectOf .mkSel s)).pen[m] = (s.scores m).regs := by
  simp [afterSuccess, effectOf, State.select, State.allScores]

/-- Settles O58: the check on QCFG, and otherwise the scores of all candidates and the commit of the first of the least. -/
theorem mkSelCommitsTheLeastMask : Obligations.MkSelCommitsTheLeastMask := by
  refine ⟨rfl, fun s => ⟨exec_maskReader_of_invalid rfl, fun hv => ?_⟩⟩
  refine ⟨_, s.bestMask, exec_maskReader_of_valid rfl hv, rfl, toNat_natWord_mask _, ?scores, ?least, ?first, ?final,
    ?frame⟩
  case scores =>
    intro m
    obtain ⟨h1, h2, h3, h4⟩ := toNat_regs hv m
    rw [pen_mkSel, h1, h2, h3, h4, toNat_regs_total hv]
    exact ⟨rfl, rfl, rfl, rfl, rfl⟩
  case least =>
    intro m
    rw [pen_mkSel, pen_mkSel, toNat_regs_total hv, toNat_regs_total hv]
    exact (bestMask_spec s m).1
  case first =>
    intro m hm
    rw [pen_mkSel, pen_mkSel, toNat_regs_total hv, toNat_regs_total hv]
    exact (bestMask_spec s m).2 hm
  case final => exact fun r hr c hc => finalCell_commit s s.bestMask hr hc
  case frame => exact fun a ha => read_commit_outside s s.bestMask ha

end Sys2Proof.Machine
end

section
/-! SUPPORT. Errors and IRQ (60_exceptions.md R190 to R197): a command written while another runs beside the end of the one
that runs, the failed end, and the interrupt level through what STATUS and CTRL read as. -/

namespace Sys2Proof.Machine
open Sys2Proof.Claims

/-! ### The overrun and the running command (R194) -/

/-- No check looks at STATUS. -/
@[simp] theorem State.check_overrun (s : State) (i : Instr) : s.overrun.check i = s.check i := by
  cases i <;> rfl

/-- A reported overrun does not change what a command's effect computes. -/
theorem effectOf_overrun (i : Instr) (s : State) : effectOf i s.overrun = (effectOf i s).overrun := by
  cases i <;> rfl

/-- A failing command's own code replaces the overrun's (R194). -/
@[simp] theorem State.fail_overrun (s : State) (e : ErrCode) : s.overrun.fail e = s.fail e := rfl

theorem runAccepted_overrun_of_reject {s : State} {x : Reject} (hd : decode s.cmd = .error x) :
    runAccepted s.overrun = .next (s.fail .illegalCmd) := by
  rw [runAccepted_of_reject (s := s.overrun) hd, State.fail_overrun]

theorem runAccepted_overrun_of_check_some {s : State} {i : Instr} {e : ErrCode} (hd : decode s.cmd = .ok i)
    (hc : s.check i = some e) : runAccepted s.overrun = .next (s.fail e) := by
  have hc' : s.overrun.check i = some e := by rw [State.check_overrun, hc]
  rw [runAccepted_of_decode (s := s.overrun) hd, exec_of_check_some hc', State.fail_overrun]

theorem runAccepted_overrun_of_check_none {s : State} {i : Instr} (hd : decode s.cmd = .ok i)
    (hc : s.check i = none) : runAccepted s.overrun = .next (effectOf i s).overrun.complete := by
  have hc' : s.overrun.check i = none := by rw [State.check_overrun, hc]
  rw [runAccepted_of_decode (s := s.overrun) hd, exec_of_check_none hc', effectOf_overrun]

/-- Settles O21: a command that fails ends as without the overrun, and one that succeeds keeps the overrun's report. -/
theorem busyOverrunDropsTheWord : Obligations.BusyOverrunDropsTheWord := by
  intro s w hb
  rw [busWrite_cmd_busy (by decide) hb]
  refine ⟨rfl, ?_⟩
  cases hd : decode s.cmd with
  | error x =>
    exact ⟨_, _, runAccepted_of_reject hd, runAccepted_overrun_of_reject hd, rfl, by simp, by simp, fun _ _ => rfl⟩
  | ok i =>
    cases hc : s.check i with
    | some e =>
      have hrun := (runAccepted_of_decode hd).trans (exec_of_check_some hc)
      refine ⟨_, _, hrun, runAccepted_overrun_of_check_some hd hc, rfl, ?_, ?_, by simp⟩
      · rintro _ ⟨⟩ hnone
        cases hc.symm.trans hnone
      · rintro _ _ ⟨⟩ hsome
        cases hc.symm.trans hsome
        rfl
    | none =>
      have hrun := (runAccepted_of_decode hd).trans (exec_of_check_none hc)
      refine ⟨_, _, hrun, runAccepted_overrun_of_check_none hd hc, rfl, fun _ _ _ => rfl, ?_, by simp⟩
      rintro _ _ ⟨⟩ hsome
      cases hc.symm.trans hsome

/-! ### The failed end (R193) -/

/-- Settles O32: the one failed end that a check and the decoder lead to. -/
theorem failedCommandWritesOnlyStatus : Obligations.FailedCommandWritesOnlyStatus := by
  refine ⟨fun s i e hc => ?check, fun s x hd => ?decode⟩
  case check => rw [exec_of_check_some hc, State.fail_eq_afterFailure]
  case decode => rw [runAccepted_of_reject hd, State.fail_eq_afterFailure]

/-! ### The interrupt level (R196) -/

theorem busRead_ctrl (s : State) : busRead 0x004 s = (s.ctrl.word, false) := busRead_reg (r := .ctrl) (by decide) s

theorem busRead_status (s : State) : busRead 0x008 s = (s.statusWord, false) := busRead_reg (r := .status) (by decide) s

theorem getElem_bitWord (b : Bool) {i : Nat} (h : i < 32) : (bitWord b)[i] = (decide (i = 0) && b) := by
  rw [← BitVec.getLsbD_eq_getElem h, getLsbD_bitWord]

/-- STATUS bit 1 is DONE (10_state.md R24). -/
theorem getLsbD_statusWord_one (s : State) : s.statusWord.getLsbD 1 = s.status.done := by
  simp [State.statusWord, getElem_bitWord]

/-- STATUS bit 2 is ERR (10_state.md R24). -/
theorem getLsbD_statusWord_two (s : State) : s.statusWord.getLsbD 2 = s.status.err := by
  simp [State.statusWord, getElem_bitWord]

/-- CTRL bit 1 is IE_DONE (10_state.md R23). -/
theorem getLsbD_ctrlWord_one (c : Ctrl) : c.word.getLsbD 1 = c.ieDone := by
  simp [Ctrl.word, getElem_bitWord]

/-- CTRL bit 2 is IE_ERR (10_state.md R23). -/
theorem getLsbD_ctrlWord_two (c : Ctrl) : c.word.getLsbD 2 = c.ieErr := by
  simp [Ctrl.word, getElem_bitWord]

theorem irq_resetRegs (s : State) : s.resetRegs.irq = false := rfl

/-- A CTRL write with SRST = 1 is the soft reset (70_reset_and_hazards.md R211). -/
theorem writeCtrl_of_srst {v : Word} (hv : v.getLsbD 0 = true) (s : State) : writeCtrl v s = s.resetRegs := if_pos hv

/-- Settles O23: the four bits that the two registers show, and the registers that either reset clears. -/
theorem irqIsFlagAndEnable : Obligations.IrqIsFlagAndEnable := by
  refine ⟨fun s => ?level, fun s v hv => ?soft, fun s => ?hard, rfl⟩
  case level =>
    rw [busRead_status, busRead_ctrl, getLsbD_statusWord_one, getLsbD_statusWord_two, getLsbD_ctrlWord_one,
      getLsbD_ctrlWord_two]
    rfl
  case soft =>
    rw [busWrite_ctrl, writeCtrl_of_srst hv]
    exact irq_resetRegs s
  case hard => exact irq_resetRegs s

end Sys2Proof.Machine
end

section
/-! SUPPORT. The soft reset (70_reset_and_hazards.md R211): what either reset leaves in the registers, and the CTRL write
that is no reset. -/

namespace Sys2Proof.Machine
open Sys2Proof.Claims

/-- R210's register values, whether or not a command was running: only the memory and the model's own fields depend on the
state before. -/
theorem resetRegs_registers (s : State) :
    s.resetRegs =
      { State.reset with mem := s.resetRegs.mem, host := s.host, resp := s.resp, fresh := s.resetRegs.fresh } := rfl

/-- A CTRL write with SRST = 0 stores the enable bits (40_control.md R115). -/
theorem writeCtrl_of_not_srst {v : Word} (hv : v.getLsbD 0 = false) (s : State) :
    writeCtrl v s = { s with ctrl := Ctrl.ofWord v } := if_neg (Bool.eq_false_iff.mp hv)

/-- Settles O24: the reset's register values, and the write that stores the enable bits. -/
theorem softResetRestoresRegisters : Obligations.SoftResetRestoresRegisters := by
  refine fun s v => ⟨fun hv => ?reset, fun hv => ?enables⟩
  case reset =>
    refine ⟨s.resetRegs, ?_, resetRegs_registers s⟩
    rw [busWrite_ctrl, writeCtrl_of_srst hv]
  case enables =>
    rw [busWrite_ctrl, writeCtrl_of_not_srst hv]
    rfl

end Sys2Proof.Machine
end

section
/-! SUPPORT. The encoder against the decoder (30_encoding.md R90 to R97): a command's opcode and immediate are two
bytes, and the word made of them is the only one that decodes to it. -/

namespace Sys2Proof.Machine

theorem op_lt (i : Instr) : i.op < 256 := by
  cases i <;> simp only [Instr.op] <;> decide

/-- A command has an encoding exactly when its immediate is one byte (R91). -/
theorem wellFormed_iff_imm_lt (i : Instr) : i.wellFormed = true ↔ i.imm < 256 := by
  cases i with
  | rsDiv deg => exact decide_eq_true_iff
  | pkApp n => exact decide_eq_true_iff
  | mkFmt m | mkScore m | mkApply m => exact iff_of_true rfl (Nat.lt_trans m.isLt (by decide))
  | _ => exact iff_of_true rfl (by decide)

/-- OP and A8 of a command select it (R92). -/
theorem decodeOp_op_imm (i : Instr) : decodeOp i.op i.imm = .ok i := by
  cases i with
  | mkFmt m => exact classM_of_mask m .mkFmt
  | mkScore m => exact classM_of_mask m .mkScore
  | mkApply m => exact classM_of_mask m .mkApply
  | _ => rfl

/-- Settles O1: the encoded word's fields are the opcode and the immediate, which select the command. -/
theorem encodeThenDecodeGivesTheCommand : Obligations.EncodeThenDecodeGivesTheCommand := by
  intro i hi
  rw [encode, decode_byteOperandWord (op_lt i) ((wellFormed_iff_imm_lt i).mp hi), decodeOp_op_imm]

/-- Settles O2: a decoded word holds the command's opcode and immediate in its fields, and nothing else. -/
theorem decodedWordIsItsEncoding : Obligations.DecodedWordIsItsEncoding := by
  intro w i h
  obtain ⟨hrsv, hop, ha8⟩ := fields_of_decode h
  have himm : i.imm < 256 := ha8 ▸ (w.extractLsb' 8 8).isLt
  refine ⟨BitVec.eq_of_toNat_eq ?_, (wellFormed_iff_imm_lt i).mpr himm⟩
  rw [encode, toNat_byteOperandWord (op_lt i) himm, toNat_eq_fields w, hrsv, hop, ha8]
  omega

/-- Settles O4: each word is decoded. -/
theorem encodingExamplesDecode : Obligations.EncodingExamplesDecode := by
  unfold Obligations.EncodingExamplesDecode
  decide

end Sys2Proof.Machine
end

section
/-! SUPPORT. The memory a command writes (20_memory.md R78): the checks as conditions on the operands, the one shape
every effect on memory has, and the window its addresses lie in. -/

namespace Sys2Proof.Machine

/-! ### The checks as conditions (60_exceptions.md R192) -/

theorem checkRsDiv_eq_none {deg : Nat} : checkRsDiv deg = none ↔ 1 ≤ deg ∧ deg ≤ 30 := by
  unfold checkRsDiv
  split <;> simp only [reduceCtorEq, false_iff, true_iff] <;> omega

theorem checkRsRem_eq_none {s : State} : checkRsRem s = none ↔
    (1 ≤ s.divDeg.toNat ∧ s.divDeg.toNat ≤ 30) ∧ s.rsSrc.toNat + s.rsLen.toNat ≤ 4096 ∧
      s.rsDst.toNat + s.divDeg.toNat ≤ 4096 := by
  unfold checkRsRem
  split_ifs <;> simp only [false_iff, true_iff] <;> omega

theorem checkBlockCfg_eq_none {s : State} : checkBlockCfg s = none ↔ s.bcfg.valid = true := by
  cases h : s.bcfg.valid <;> simp [checkBlockCfg, h]

theorem checkPkApp_eq_none {n : Nat} {s : State} :
    checkPkApp n s = none ↔ n ≤ 32 ∧ s.pkBitlen.toNat + n ≤ 32768 := by
  unfold checkPkApp
  split_ifs <;> simp only [false_iff, true_iff] <;> omega

theorem checkPkFin_eq_none {s : State} :
    checkPkFin s = none ↔ s.bcfg.valid = true ∧ s.pkBitlen.toNat ≤ 8 * s.bcfg.dataCw := by
  unfold checkPkFin
  split_ifs with hv hlen
  · simp only [false_iff]; omega
  · exact iff_of_true rfl ⟨hv, by omega⟩
  · simp [hv]

theorem checkQcfg_eq_none {s : State} : checkQcfg s = none ↔ s.qcfg.valid = true := by
  cases h : s.qcfg.valid <;> simp [checkQcfg, h]

/-- A valid BCFG's totals fit the codeword memories (10_state.md R34). -/
theorem Bcfg.totals_le {b : Bcfg} (h : b.valid = true) : b.dataCw ≤ 4096 ∧ b.ecCw ≤ 4096 ∧ b.totalCw ≤ 4096 := by
  obtain ⟨-, -, -, -, htotals⟩ := b.valid_iff.mp h
  exact htotals

theorem Bcfg.ecb_le {b : Bcfg} (h : b.valid = true) : b.ecb.toNat ≤ 30 := by
  obtain ⟨-, -, -, hecb, -⟩ := b.valid_iff.mp h
  exact hecb

/-! ### What an effect does to memory -/

/-- The memory an effect leaves: the old one, one block written over the command's span, or the stream with bits
pushed. -/
inductive MemEffect (i : Instr) (s : State) : Memory → Prop
  | keeps : MemEffect i s s.mem
  | writes (bs : List Byte) (hlen : bs.length = (s.writeSpan i).2) :
      MemEffect i s (s.mem.writeBlock (s.writeSpan i).1 bs)
  | pushes (bits : List Bool) (hfits : s.pkBitlen.toNat + bits.length ≤ 32768)
      (hspan : s.writeSpan i = bitSpan s.pkBitlen.toNat (s.pkBitlen.toNat + bits.length)) :
      MemEffect i s (s.stream.pushAll bits).mem

theorem length_interleaved (s : State) : s.interleaved.length = s.bcfg.totalCw := by
  rw [interleaved_eq_interleaveLoops, length_interleaveLoops]

theorem memEffect_effectOf {i : Instr} {s : State} (hc : s.check i = none) : MemEffect i s (effectOf i s).mem := by
  cases i with
  | nop | gfMul | rsDiv _ | pkClr | mkFmt _ | mkScore _ => exact .keeps
  | rsRem => exact .writes s.remainderBytes (length_remainderBytes s)
  | rsEnc => exact .writes s.encodeBytes (length_encodeBytes s)
  | ilRun => exact .writes s.interleaved (length_interleaved s)
  | mkApply m => exact .writes (finalBytes (s.scratch m)) (length_finalBytes _)
  | mkSel => exact .writes (finalBytes (s.scratch s.bestMask)) (length_finalBytes _)
  | pkApp n =>
    obtain ⟨-, hfits⟩ := checkPkApp_eq_none.mp hc
    have hlen := length_fieldBits s n
    exact .pushes (s.fieldBits n) (by omega) (by rw [hlen]; rfl)
  | pkFin =>
    obtain ⟨hv, hfits⟩ := checkPkFin_eq_none.mp hc
    obtain ⟨hcap, -, -⟩ := Bcfg.totals_le hv
    have hfull := len_add_length_finBits hfits
    exact .pushes (finBits (8 * s.bcfg.dataCw) s.pkBitlen.toNat) (by omega) (by rw [hfull]; rfl)

/-- An address outside the span of pushed bits holds none of them. -/
theorem read_pushAll_outside_bitSpan (p : Stream) (bits : List Bool) {a : Nat}
    (ha : a < (bitSpan p.len (p.len + bits.length)).1 ∨
      (bitSpan p.len (p.len + bits.length)).1 + (bitSpan p.len (p.len + bits.length)).2 ≤ a) :
    (p.pushAll bits).mem.read a = p.mem.read a := by
  cases bits with
  | nil => rfl
  | cons b bits =>
    have hpos : p.len < p.len + (b :: bits).length := by simp
    rw [bitSpan, if_pos hpos] at ha
    exact Stream.read_pushAll_outside _ p a (by dsimp only at ha; omega)

theorem MemEffect.read_outside {i : Instr} {s : State} {m : Memory} (h : MemEffect i s m) {a : Nat}
    (ha : a < (s.writeSpan i).1 ∨ (s.writeSpan i).1 + (s.writeSpan i).2 ≤ a) : m.read a = s.mem.read a := by
  cases h with
  | keeps => rfl
  | writes bs hlen => exact Memory.read_writeBlock_outside _ _ _ _ (by rwa [hlen])
  | pushes bits hfits hspan => exact read_pushAll_outside_bitSpan s.stream bits (by rwa [hspan] at ha)

theorem read_effectOf_outside {i : Instr} {s : State} (hc : s.check i = none) {a : Nat}
    (ha : a < (s.writeSpan i).1 ∨ (s.writeSpan i).1 + (s.writeSpan i).2 ≤ a) :
    (effectOf i s).mem.read a = s.mem.read a :=
  (memEffect_effectOf hc).read_outside ha

/-! ### The window of a command's writes -/

/-- The memory a command may write, as (first bus address, end): DMEM, EMEM, OMEM, FINAL or none (20_memory.md R78). -/
def writeWindow : Instr → Nat × Nat
  | .pkApp _ | .pkFin => (dmemBase, ememBase)
  | .rsRem | .rsEnc => (ememBase, omemBase)
  | .ilRun => (omemBase, modBase)
  | .mkApply _ | .mkSel => (finalBase, finalBase + matRows * rowPitch)
  | .nop | .gfMul | .rsDiv _ | .pkClr | .mkFmt _ | .mkScore _ => (dmemBase, dmemBase)

theorem bitSpan_in_dmem {lo hi : Nat} (h : hi ≤ 32768) :
    dmemBase ≤ (bitSpan lo hi).1 ∧ (bitSpan lo hi).1 + (bitSpan lo hi).2 ≤ ememBase := by
  unfold bitSpan dmemBase ememBase
  split <;> dsimp only <;> omega

theorem writeSpan_in_window {i : Instr} {s : State} (hc : s.check i = none) :
    (writeWindow i).1 ≤ (s.writeSpan i).1 ∧ (s.writeSpan i).1 + (s.writeSpan i).2 ≤ (writeWindow i).2 := by
  cases i with
  | nop | gfMul | rsDiv _ | pkClr | mkFmt _ | mkScore _ | mkApply _ | mkSel => exact ⟨le_refl _, le_refl _⟩
  | rsRem =>
    obtain ⟨-, -, hdst⟩ := checkRsRem_eq_none.mp hc
    simp only [writeWindow, State.writeSpan, ememBase, omemBase]
    omega
  | rsEnc =>
    obtain ⟨-, hec, -⟩ := Bcfg.totals_le (checkBlockCfg_eq_none.mp hc)
    simp only [writeWindow, State.writeSpan, ememBase, omemBase]
    omega
  | ilRun =>
    obtain ⟨-, -, htotal⟩ := Bcfg.totals_le (checkBlockCfg_eq_none.mp hc)
    simp only [writeWindow, State.writeSpan, omemBase, modBase]
    omega
  | pkApp n => exact bitSpan_in_dmem (checkPkApp_eq_none.mp hc).2
  | pkFin =>
    obtain ⟨hcap, -, -⟩ := Bcfg.totals_le (checkPkFin_eq_none.mp hc).1
    exact bitSpan_in_dmem (by omega)

theorem storedAddr_of_window {i : Instr} {a : Nat} (hlo : (writeWindow i).1 ≤ a) (hhi : a < (writeWindow i).2) :
    storedAddr a = true := by
  rw [storedAddr_iff]
  cases i <;>
    simp only [writeWindow, dmemBase, ememBase, omemBase, modBase, finalBase, matRows, rowPitch] at hlo hhi <;>
    omega

/-- Every byte a command may write is stored (20_memory.md R60, R61). -/
theorem storedAddr_of_writeSpan {i : Instr} {s : State} (hc : s.check i = none) :
    ∀ k < (s.writeSpan i).2, storedAddr ((s.writeSpan i).1 + k) = true := by
  intro k hk
  obtain ⟨hlo, hhi⟩ := writeSpan_in_window hc
  exact storedAddr_of_window (i := i) (by omega) (by omega)

theorem read_effectOf_outside_window {i : Instr} {s : State} (hc : s.check i = none) {a : Nat}
    (ha : a < (writeWindow i).1 ∨ (writeWindow i).2 ≤ a) : (effectOf i s).mem.read a = s.mem.read a := by
  obtain ⟨hlo, hhi⟩ := writeSpan_in_window hc
  exact read_effectOf_outside hc (by omega)

/-! ### The canonical form -/

theorem storedAddr_dmem {k : Nat} (h : k < 4096) : storedAddr (dmemBase + k) = true := by
  rw [storedAddr_iff, dmemBase]
  omega

theorem wf_pushAll (bits : List Bool) : ∀ p : Stream, p.mem.wf = true → p.len + bits.length ≤ 32768 →
    (p.pushAll bits).mem.wf = true := by
  induction bits with
  | nil => exact fun _ h _ => h
  | cons b bits ih =>
    intro p h hfits
    rw [List.length_cons] at hfits
    exact ih (p.push b) (Memory.wf_write h (storedAddr_dmem (by omega)) _) (by rw [Stream.len_push]; omega)

theorem MemEffect.wf {i : Instr} {s : State} {m : Memory} (he : MemEffect i s m) (hc : s.check i = none)
    (h : s.mem.wf = true) : m.wf = true := by
  cases he with
  | keeps => exact h
  | writes bs hlen => exact Memory.wf_writeBlock h _ bs (by rw [hlen]; exact storedAddr_of_writeSpan hc)
  | pushes bits hfits hspan => exact wf_pushAll bits s.stream h hfits

theorem wf_effectOf {i : Instr} {s : State} (hc : s.check i = none) (h : s.mem.wf = true) :
    (effectOf i s).mem.wf = true :=
  (memEffect_effectOf hc).wf hc h

/-! ### The footprint (70_reset_and_hazards.md R213) -/

theorem footprint_of_reject {s : State} {x : Reject} (hd : decode s.cmd = .error x) : s.footprint = (dmemBase, 0) := by
  simp only [State.footprint, hd]

theorem footprint_of_check_some {s : State} {i : Instr} {e : ErrCode} (hd : decode s.cmd = .ok i)
    (hc : s.check i = some e) : s.footprint = (dmemBase, 0) := by
  simp only [State.footprint, hd, hc]

theorem footprint_of_check_none {s : State} {i : Instr} (hd : decode s.cmd = .ok i) (hc : s.check i = none) :
    s.footprint = s.writeSpan i := by
  simp only [State.footprint, hd, hc]

/-- The footprint is none, or the span of a command whose checks pass. -/
theorem storedAddr_of_footprint (s : State) : ∀ k < s.footprint.2, storedAddr (s.footprint.1 + k) = true := by
  intro k hk
  cases hd : decode s.cmd with
  | error x =>
    rw [footprint_of_reject hd] at hk
    cases hk
  | ok i =>
    cases hc : s.check i with
    | some e =>
      rw [footprint_of_check_some hd hc] at hk
      cases hk
    | none =>
      rw [footprint_of_check_none hd hc] at hk ⊢
      exact storedAddr_of_writeSpan hc k hk

theorem wf_abortedMem {s : State} (h : s.mem.wf = true) : s.abortedMem.wf = true :=
  Memory.wf_writeBlock h _ _ (by simpa using storedAddr_of_footprint s)

theorem read_abortedMem_outside (s : State) {a : Nat} (ha : a < s.footprint.1 ∨ s.footprint.1 + s.footprint.2 ≤ a) :
    s.abortedMem.read a = s.mem.read a :=
  Memory.read_writeBlock_outside _ _ _ _ (by simpa using ha)

/-- Settles O27: a failing command writes nothing, and a succeeding one writes its span. -/
theorem footprintCoversTheWrites : Obligations.FootprintCoversTheWrites := by
  intro s i hd
  cases hc : s.check i with
  | some e => exact ⟨_, exec_of_check_some hc, fun _ _ => rfl⟩
  | none =>
    rw [footprint_of_check_none hd hc]
    exact ⟨_, exec_of_check_none hc, fun a ha => read_effectOf_outside hc ha⟩

/-- Settles O26: a reset writes memory only when a command was running, and then its footprint. -/
theorem resetKeepsMemory : Obligations.ResetKeepsMemory := by
  intro s v hv t ht
  have hmem : t.mem = if s.busy then s.abortedMem else s.mem := by
    rcases ht with rfl | rfl
    · rw [busWrite_ctrl, writeCtrl_of_srst hv]; rfl
    · rfl
  refine ⟨fun hidle => ?idle, fun a ha => ?outside⟩
  case idle => rw [hmem, busy_of_idle hidle]; rfl
  case outside =>
    rw [hmem]
    split
    · exact read_abortedMem_outside s ha
    · rfl

end Sys2Proof.Machine
end

section
/-! SUPPORT. The induction over one clock edge (40_control.md R110 to R117): a property that each operation of the block
keeps is kept by every step. The three invariants are then one operation at a time. -/

namespace Sys2Proof.Machine
open Sys2Proof.Claims

/-- `P` is kept by each thing that a step is made of. -/
structure Kept (P : State → Prop) : Prop where
  /-- the answer to a transfer -/
  resp : ∀ {s : State} (r : Response), r ≠ .inReset → P s → P { s with resp := r }
  /-- the edge taken off the host's list -/
  host : ∀ {s : State} (l : List HostEdge), P s → P { s with host := l }
  /-- a cycle of the running command that is not its last -/
  count : ∀ {s : State} {left : Nat}, s.phase = .busy left → 1 < left → P s → P { s with phase := .busy (left - 1) }
  /-- either reset, with the answer that goes with it -/
  reset : ∀ {s : State} (r : Response), P s → P { s.resetRegs with resp := r }
  /-- the CTRL write that is no reset -/
  ctrl : ∀ {s : State} (c : Ctrl), P s → P { s with ctrl := c }
  /-- the STATUS write -/
  clearFlags : ∀ {s : State} (v : Word), P s → P (s.clearFlags v)
  /-- a CMD write while idle, with its answer -/
  accept : ∀ {s : State} (w : Word) (e : Bool), s.phase = .idle → P s → P { s.accept w with resp := .write e }
  /-- a CMD write while busy or at a completion edge -/
  overrun : ∀ {s : State}, P s → P s.overrun
  /-- a configuration write -/
  config : ∀ {s : State} (v : Word) (r : Reg), P s → P (s.writeConfig v r)
  /-- a write of a stored word -/
  word : ∀ {s : State} {b : Nat} (v : Word), (∀ k < 4, storedAddr (b + k) = true) → P s →
    P { s with mem := s.mem.writeWord b v }
  /-- a failed end -/
  fail : ∀ {s : State} {e : ErrCode}, e ≠ .none → P s → P (s.fail e)
  /-- a command's effect and its successful end -/
  success : ∀ {s : State} {i : Instr}, s.check i = none → P s → P (effectOf i s).complete

theorem phase_of_not_busy {s : State} (h : s.busy = false) : s.phase = .idle := by
  cases hp : s.phase with
  | idle => rfl
  | busy left =>
    rw [busy_of_busy hp] at h
    cases h

/-- A check that fails names an error (60_exceptions.md R191). -/
theorem check_ne_some_none (s : State) (i : Instr) : s.check i ≠ some .none := by
  cases i with
  | nop | gfMul | pkClr | mkFmt _ => exact nofun
  | _ =>
    simp only [State.check, checkRsDiv, checkRsRem, checkBlockCfg, checkPkApp, checkPkFin, checkQcfg]
    split_ifs <;> exact nofun

namespace Kept
variable {P : State → Prop} (hP : Kept P)
include hP

theorem begin {s : State} (h : P s) : P s.begin := hP.resp .noTransfer (by simp) (hP.host s.host.tail h)

theorem runAccepted {s t : State} (h : P s) (hrun : runAccepted s = .next t) : P t := by
  cases hd : decode s.cmd with
  | error x =>
    rw [runAccepted_of_reject hd] at hrun
    cases hrun
    exact hP.fail (by simp) h
  | ok i =>
    rw [runAccepted_of_decode hd] at hrun
    rcases exec_cases hrun with ⟨e, hc, rfl⟩ | ⟨hc, rfl⟩
    · exact hP.fail (fun he => check_ne_some_none s i (he ▸ hc)) h
    · exact hP.success hc h

theorem writeCtrl {s : State} (v : Word) (e : Bool) (h : P s) : P { writeCtrl v s with resp := .write e } := by
  cases hv : v.getLsbD 0 with
  | true =>
    rw [writeCtrl_of_srst hv]
    exact hP.reset _ h
  | false =>
    rw [writeCtrl_of_not_srst hv]
    exact hP.resp _ (by simp) (hP.ctrl _ h)

theorem writeCmd {s : State} (v : Word) (e : Bool) (h : P s) : P { (writeCmd v s).1 with resp := .write e } := by
  cases hb : s.busy with
  | true =>
    rw [writeCmd_busy hb]
    exact hP.resp _ (by simp) (hP.overrun h)
  | false =>
    rw [writeCmd_idle (phase_of_not_busy hb)]
    exact hP.accept v e (phase_of_not_busy hb) h

theorem writeReg {s : State} (r : Reg) (v : Word) (e : Bool) (h : P s) :
    P { (writeReg r v s).1 with resp := .write e } := by
  rcases writeReg_cases r v s with ⟨-, hw⟩ | ⟨-, hw⟩ | ⟨-, hw⟩ | ⟨-, -, hw⟩ | ⟨-, -, hw⟩ | ⟨-, -, -, -, hw⟩ <;> rw [hw]
  · exact hP.writeCtrl v e h
  · exact hP.resp _ (by simp) (hP.clearFlags v h)
  · exact hP.writeCmd v e h
  · exact hP.resp _ (by simp) h
  · exact hP.resp _ (by simp) (hP.config v r h)
  · exact hP.resp _ (by simp) h

theorem busWrite {s : State} (a : BitVec 16) (v : Word) (e : Bool) (h : P s) :
    P { (busWrite a v s).1 with resp := .write e } := by
  rcases busWrite_cases a v s with ⟨r, -, hw⟩ | ⟨b, ht, -, hw⟩ | ⟨e', hw⟩ <;> rw [hw]
  · exact hP.writeReg r v e h
  · exact hP.resp _ (by simp) (hP.word v (stored_of_target ht).2 h)
  · exact hP.resp _ (by simp) h

theorem transfer {s : State} (e : HostEdge) (h : P s) : P (transfer e s) := by
  cases e with
  | quiet => exact h
  | read a => exact hP.resp _ (by simp) h
  | write a v => exact hP.busWrite a v _ h
  | resetLow => exact hP.reset _ h

theorem plainEdge {s : State} (e : HostEdge) (hdue : s.due = false) (h : P s) : P (plainEdge e s) := by
  cases hp : s.phase with
  | idle =>
    rw [plainEdge_of_idle hp]
    exact hP.transfer e h
  | busy left =>
    rw [due_of_busy hp, decide_eq_false_iff_not] at hdue
    rw [plainEdge_of_busy hp]
    exact hP.transfer e (hP.count hp (by omega) h)

theorem onNext_runAccepted {s t : State} {f : State → State} (hf : ∀ {u : State}, P u → P (f u)) (h : P s)
    (ht : onNext (Machine.runAccepted s) f = .next t) : P t := by
  obtain ⟨u, hu, -, -⟩ := runAccepted_next s
  rw [hu, onNext_next] at ht
  cases ht
  exact hf (hP.runAccepted h hu)

theorem completionEdge {s t : State} (e : HostEdge) (h : P s) (ht : completionEdge e s = .next t) : P t := by
  cases e with
  | quiet => exact hP.runAccepted h ht
  | read a => exact hP.onNext_runAccepted (hP.transfer (.read a)) h ht
  | resetLow =>
    cases ht
    exact hP.reset _ h
  | write a v =>
    rw [Machine.completionEdge] at ht
    split_ifs at ht
    · exact hP.runAccepted (hP.transfer (.write a v) h) ht
    · exact hP.onNext_runAccepted (fun hu => hP.resp _ (by simp) (hP.overrun hu)) h ht
    · exact hP.onNext_runAccepted (hP.transfer (.write a v)) h ht

/-- The induction of every invariant below. -/
theorem step {s t : State} (h : P s) (ht : step s = .next t) : P t := by
  cases hdue : s.due with
  | true =>
    rw [step_of_due hdue] at ht
    exact hP.completionEdge s.edge (hP.begin h) ht
  | false =>
    rw [step_of_not_due hdue] at ht
    cases ht
    exact hP.plainEdge s.edge hdue (hP.begin h)

end Kept

/-! ### The memory's canonical form -/

theorem wf_resetRegs {s : State} (h : s.mem.wf = true) : s.resetRegs.mem.wf = true := by
  have hmem : s.resetRegs.mem = if s.busy then s.abortedMem else s.mem := rfl
  rw [hmem]
  split
  · exact wf_abortedMem h
  · exact h

@[simp] theorem State.writeConfig_mem (s : State) (v : Word) (r : Reg) : (s.writeConfig v r).mem = s.mem := by
  cases r <;> rfl

theorem kept_memoryForm : Kept fun s => s.mem.wf = true where
  resp _ _ h := h
  host _ h := h
  count _ _ h := h
  reset _ h := wf_resetRegs h
  ctrl _ h := h
  clearFlags _ h := h
  accept _ _ _ h := h
  overrun h := h
  config v r h := by rwa [State.writeConfig_mem]
  word v hst h := Memory.wf_writeWord h hst v
  fail _ h := h
  success hc h := wf_effectOf hc h

/-- Settles O30: memory changes only by writes at stored addresses. -/
theorem stepKeepsTheMemoryForm : Obligations.StepKeepsTheMemoryForm := fun _ _ h ht => kept_memoryForm.step h ht

/-! ### RESULT and the penalty registers (10_state.md R28, R42) -/

theorem bounded_reset : Bounded State.reset := by
  constructor <;> decide

/-- The bounds speak of RESULT and PEN alone. -/
theorem Bounded.of_eq {s t : State} (h : Bounded s) (hresult : t.result = s.result) (hpen : t.pen = s.pen) :
    Bounded t := by
  obtain ⟨h0, h1, h2, h3, h4⟩ := h
  constructor
  · rwa [hresult]
  all_goals rwa [hpen]

/-- The range of one mask's registers. -/
def Penalty.InRange (p : Penalty) : Prop :=
  p.p1.toNat ≤ 61950 ∧ p.p2.toNat ≤ 92928 ∧ p.p3.toNat ≤ 40 * 2 * 354 * 171 ∧ p.p4.toNat ≤ 100

theorem bounded_iff (s : State) : Bounded s ↔ s.result.toNat < 2 ^ 23 ∧ ∀ m : Fin 8, s.pen[m].InRange := by
  constructor
  · rintro ⟨h0, h1, h2, h3, h4⟩
    exact ⟨h0, fun m => ⟨h1 m, h2 m, h3 m, h4 m⟩⟩
  · rintro ⟨h0, h⟩
    refine ⟨h0, fun m => ?_, fun m => ?_, fun m => ?_, fun m => ?_⟩ <;> obtain ⟨h1, h2, h3, h4⟩ := h m <;> assumption

theorem regs_inRange {s : State} (hv : s.qcfg.valid = true) (m : Fin 8) : (s.scores m).regs.InRange := by
  obtain ⟨h1, h2, h3, h4⟩ := scores_le hv m
  obtain ⟨e1, e2, e3, e4⟩ := toNat_regs hv m
  exact ⟨e1.trans_le h1, e2.trans_le h2, e3.trans_le h3, e4.trans_le h4⟩

/-- Every result a command writes is below 2^23 (10_state.md R28). -/
theorem result_effectOf_lt {i : Instr} {s : State} (hc : s.check i = none) (h : s.result.toNat < 2 ^ 23) :
    (effectOf i s).result.toNat < 2 ^ 23 := by
  cases i with
  | nop | rsDiv _ | rsRem | rsEnc | pkClr | pkApp _ => exact h
  | gfMul =>
    have hlt := (gfMul s.gfA s.gfB).isLt
    have hval : (effectOf .gfMul s).result.toNat = (gfMul s.gfA s.gfB).toNat := BitVec.toNat_setWidth_of_le (by decide)
    omega
  | pkFin =>
    obtain ⟨hcap, -, -⟩ := Bcfg.totals_le (checkPkFin_eq_none.mp hc).1
    have hcount := padCount_eq s.bcfg.dataCw s.pkBitlen.toNat
    have hval : (effectOf .pkFin s).result.toNat = padCount (8 * s.bcfg.dataCw) s.pkBitlen.toNat :=
      toNat_natWord (by omega)
    omega
  | ilRun =>
    obtain ⟨-, -, htotal⟩ := Bcfg.totals_le (checkBlockCfg_eq_none.mp hc)
    have hlen := length_interleaved s
    have hval : (effectOf .ilRun s).result.toNat = s.interleaved.length := toNat_natWord (by omega)
    omega
  | mkFmt m =>
    have hlt := fmtWord_lt s.qcfg.ecl m
    have hval : (effectOf (.mkFmt m) s).result.toNat = fmtWord (eclCode s.qcfg.ecl) m.val :=
      toNat_natWord (Nat.lt_trans hlt (by decide))
    omega
  | mkScore m =>
    have hlt := penalty_lt (checkQcfg_eq_none.mp hc) m
    have hval : (effectOf (.mkScore m) s).result.toNat = s.penalty m := toNat_natWord (Nat.lt_trans hlt (by decide))
    omega
  | mkApply m => exact (toNat_natWord_mask m).trans_lt (by omega)
  | mkSel => exact (toNat_natWord_mask s.bestMask).trans_lt (by omega)

theorem pen_mkScore_same (s : State) (m : Fin 8) : (effectOf (.mkScore m) s).pen[m] = (s.scores m).regs :=
  Vector.getElem_set_self m.isLt

theorem pen_mkScore_other (s : State) {m k : Fin 8} (h : k ≠ m) : (effectOf (.mkScore m) s).pen[k] = s.pen[k] :=
  Vector.getElem_set_ne m.isLt k.isLt fun hmk => h (Fin.ext hmk.symm)

/-- A command leaves each mask's registers as they were, or holding the scores of a valid version. -/
theorem pen_effectOf {i : Instr} {s : State} (hc : s.check i = none) (k : Fin 8) :
    (effectOf i s).pen[k] = s.pen[k] ∨ (s.qcfg.valid = true ∧ (effectOf i s).pen[k] = (s.scores k).regs) := by
  cases i with
  | mkScore m =>
    by_cases hk : k = m
    · subst hk
      exact .inr ⟨checkQcfg_eq_none.mp hc, pen_mkScore_same s k⟩
    · exact .inl (pen_mkScore_other s hk)
  | mkSel => exact .inr ⟨checkQcfg_eq_none.mp hc, pen_mkSel s k⟩
  | _ => exact .inl rfl

theorem bounded_effectOf {i : Instr} {s : State} (hc : s.check i = none) (h : Bounded s) : Bounded (effectOf i s) := by
  rw [bounded_iff] at h ⊢
  obtain ⟨hresult, hpen⟩ := h
  refine ⟨result_effectOf_lt hc hresult, fun k => ?_⟩
  rcases pen_effectOf hc k with hk | ⟨hv, hk⟩ <;> rw [hk]
  · exact hpen k
  · exact regs_inRange hv k

@[simp] theorem State.writeConfig_result (s : State) (v : Word) (r : Reg) : (s.writeConfig v r).result = s.result := by
  cases r <;> rfl

@[simp] theorem State.writeConfig_pen (s : State) (v : Word) (r : Reg) : (s.writeConfig v r).pen = s.pen := by
  cases r <;> rfl

theorem kept_bounded : Kept Bounded where
  resp _ _ h := h.of_eq rfl rfl
  host _ h := h.of_eq rfl rfl
  count _ _ h := h.of_eq rfl rfl
  reset _ _ := bounded_reset.of_eq rfl rfl
  ctrl _ h := h.of_eq rfl rfl
  clearFlags _ h := h.of_eq rfl rfl
  accept _ _ _ h := h.of_eq rfl rfl
  overrun h := h.of_eq rfl rfl
  config v r h := h.of_eq (State.writeConfig_result _ v r) (State.writeConfig_pen _ v r)
  word _ _ h := h.of_eq rfl rfl
  fail _ h := h.of_eq rfl rfl
  success hc h := (bounded_effectOf hc h).of_eq rfl rfl

/-- Settles O31: the registers change only by a reset and by the commands' effects. -/
theorem stepKeepsTheBounds : Obligations.StepKeepsTheBounds := fun _ _ h ht => kept_bounded.step h ht

end Sys2Proof.Machine
end

section
/-! SUPPORT. The relations between the registers (10_state.md sections 4 to 7), operation by operation: what an edge, a
transfer and the two ends of a command do to them, then the effects that write one of the related registers. -/

namespace Sys2Proof.Machine
open Sys2Proof.Claims

theorem inv_reset : Inv State.reset where
  lastopIsCmd := by decide
  errHasCode := by decide
  busyNotDone := by decide
  busyHasEdge := nofun
  resetIsIdle := nofun
  streamFits := by decide
  degreeLegal := by decide
  divisorHeld := by decide
  penaltySum := by decide
  mselBlank _ := rfl

/-- Settles O28: no register is set and no memory byte listed. -/
theorem resetMeetsTheInvariants : Obligations.ResetMeetsTheInvariants := ⟨inv_reset, bounded_reset, rfl⟩

theorem inv_resetRegs (s : State) (r : Response) : Inv { s.resetRegs with resp := r } :=
  { inv_reset with resetIsIdle := fun _ => rfl }

namespace Inv
variable {s : State} (h : Inv s)
include h

theorem count {left : Nat} (hp : s.phase = .busy left) (hleft : 1 < left) :
    Inv { s with phase := .busy (left - 1) } :=
  { h with
    busyNotDone := fun _ => h.busyNotDone (busy_of_busy hp)
    busyHasEdge := by rintro _ ⟨⟩; omega
    resetIsIdle := fun hr => by rw [h.resetIsIdle hr] at hp; cases hp }

theorem clearFlags (v : Word) : Inv (s.clearFlags v) :=
  { h with
    lastopIsCmd := by simpa using h.lastopIsCmd
    errHasCode := by
      rw [State.clearFlags_status, Status.hostWrite_err, Status.hostWrite_errcode]
      cases v.getLsbD 2 <;> simp [h.errHasCode]
    busyNotDone := fun hb => by
      have hdone : s.status.done = false := h.busyNotDone hb
      simp [hdone] }

theorem accept (w : Word) (e : Bool) : Inv { s.accept w with resp := .write e } :=
  { h with
    lastopIsCmd := rfl
    busyNotDone := fun _ => rfl
    busyHasEdge := by rintro _ ⟨⟩; exact Nat.le_add_right 1 _
    resetIsIdle := nofun }

theorem overrun : Inv s.overrun :=
  { h with errHasCode := ⟨fun _ => nofun, fun _ => rfl⟩ }

theorem writeConfig (v : Word) (r : Reg) : Inv (s.writeConfig v r) := by
  cases r <;> exact { h with }

theorem fail {e : ErrCode} (he : e ≠ .none) : Inv (s.fail e) :=
  { h with
    errHasCode := ⟨fun _ => he, fun _ => rfl⟩
    busyNotDone := nofun
    busyHasEdge := nofun
    resetIsIdle := fun _ => rfl }

theorem complete : Inv s.complete :=
  { h with
    busyNotDone := nofun
    busyHasEdge := nofun
    resetIsIdle := fun _ => rfl }

/-! ### The effects on the related registers -/

/-- DIV_DEG and DIVRAM are loaded together (41_gf_rs.md R126, R128). -/
theorem loadDivisor {n : Nat} (hn : n ≤ 30) : Inv (s.loadDivisor n) := by
  have hdeg : (s.loadDivisor n).divDeg.toNat = n := Nat.mod_eq_of_lt (by omega)
  exact { h with
    degreeLegal := hdeg.trans_le hn
    divisorHeld := by rw [hdeg]; rfl }

theorem withStream {p : Stream} (hp : p.len ≤ 32768) : Inv (s.withStream p) :=
  { h with streamFits := (toNat_pkBitlen_withStream (s := s) hp).trans_le hp }

theorem withPen {pen : Vector Penalty 8}
    (hpen : ∀ m : Fin 8, pen[m].total = pen[m].p1 + pen[m].p2 + pen[m].p3 + pen[m].p4) : Inv { s with pen := pen } :=
  { h with penaltySum := hpen }

end Inv

/-- The registers add up as the scores do, modulo 2^32 (10_state.md R43). -/
theorem total_regs (x : Scores) : x.regs.total = x.regs.p1 + x.regs.p2 + x.regs.p3 + x.regs.p4 := by
  simp only [Scores.regs, Scores.total, natWord, BitVec.ofNat_add]

theorem penaltySum_effectOf {i : Instr} {s : State} (hc : s.check i = none) (h : Inv s) (m : Fin 8) :
    (effectOf i s).pen[m].total =
      (effectOf i s).pen[m].p1 + (effectOf i s).pen[m].p2 + (effectOf i s).pen[m].p3 + (effectOf i s).pen[m].p4 := by
  rcases pen_effectOf hc m with hm | ⟨-, hm⟩ <;> rw [hm]
  · exact h.penaltySum m
  · exact total_regs _

theorem Inv.effectOf {i : Instr} {s : State} (hc : s.check i = none) (h : Inv s) : Inv (effectOf i s) := by
  have hpen := penaltySum_effectOf hc h
  cases i with
  | nop | gfMul | rsRem | ilRun | mkFmt _ => exact { h with }
  | rsDiv deg => exact h.loadDivisor (checkRsDiv_eq_none.mp hc).2
  | rsEnc => exact { h.loadDivisor (Bcfg.ecb_le (checkBlockCfg_eq_none.mp hc)) with }
  | pkClr => exact { h with streamFits := Nat.zero_le _ }
  | pkApp n =>
    obtain ⟨-, hfits⟩ := checkPkApp_eq_none.mp hc
    exact h.withStream (by simpa using hfits)
  | pkFin =>
    obtain ⟨hv, hfits⟩ := checkPkFin_eq_none.mp hc
    obtain ⟨hcap, -, -⟩ := Bcfg.totals_le hv
    have hfull := len_add_length_finBits hfits
    exact { h.withStream (p := s.stream.pushAll (finBits (8 * s.bcfg.dataCw) s.pkBitlen.toNat))
      (by rw [Stream.len_pushAll, State.len_stream]; omega) with }
  | mkScore m => exact { h.withPen hpen with }
  | mkApply m => exact { h with mselBlank := nofun }
  | mkSel => exact { h.withPen hpen with mselBlank := nofun }

theorem kept_inv : Kept Inv where
  resp _ hr h := { h with resetIsIdle := fun he => absurd he hr }
  host _ h := { h with }
  count hp hleft h := h.count hp hleft
  reset r _ := inv_resetRegs _ r
  ctrl _ h := { h with }
  clearFlags v h := h.clearFlags v
  accept w e _ h := h.accept w e
  overrun h := h.overrun
  config v r h := h.writeConfig v r
  word _ _ h := { h with }
  fail he h := h.fail he
  success hc h := (Inv.effectOf hc h).complete

/-- Settles O29: each operation of a step keeps the relations. -/
theorem stepKeepsTheInvariant : Obligations.StepKeepsTheInvariant := fun _ _ h ht => kept_inv.step h ht

end Sys2Proof.Machine
end

section
/-! SUPPORT. What each command may write (10_state.md sections 4 to 6; 20_memory.md R78), register by register and
memory by memory. -/

namespace Sys2Proof.Machine
open Sys2Proof.Claims

/-! ### Registers -/

section Registers
variable (i : Instr) (s : State)

theorem effectOf_writes_divisor (h : (effectOf i s).divram ≠ s.divram ∨ (effectOf i s).divDeg ≠ s.divDeg) :
    (∃ deg, i = .rsDiv deg) ∨ i = .rsEnc := by
  cases i with
  | rsDiv deg => exact .inl ⟨deg, rfl⟩
  | rsEnc => exact .inr rfl
  | _ => exact h.elim (absurd rfl) (absurd rfl)

theorem effectOf_writes_pkBitlen (h : (effectOf i s).pkBitlen ≠ s.pkBitlen) :
    i = .pkClr ∨ (∃ n, i = .pkApp n) ∨ i = .pkFin := by
  cases i with
  | pkClr => exact .inl rfl
  | pkApp n => exact .inr (.inl ⟨n, rfl⟩)
  | pkFin => exact .inr (.inr rfl)
  | _ => exact absurd rfl h

theorem effectOf_writes_msel (h : (effectOf i s).msel ≠ s.msel) : (∃ m, i = .mkApply m) ∨ i = .mkSel := by
  cases i with
  | mkApply m => exact .inl ⟨m, rfl⟩
  | mkSel => exact .inr rfl
  | _ => exact absurd rfl h

theorem effectOf_writes_pen (h : (effectOf i s).pen ≠ s.pen) : (∃ m, i = .mkScore m) ∨ i = .mkSel := by
  cases i with
  | mkScore m => exact .inl ⟨m, rfl⟩
  | mkSel => exact .inr rfl
  | _ => exact absurd rfl h

theorem effectOf_writes_result (h : (effectOf i s).result ≠ s.result) :
    i = .gfMul ∨ i = .pkFin ∨ i = .ilRun ∨ (∃ m, i = .mkFmt m) ∨ (∃ m, i = .mkScore m) ∨ (∃ m, i = .mkApply m) ∨
      i = .mkSel := by
  cases i with
  | nop | rsDiv _ | rsRem | rsEnc | pkClr | pkApp _ => exact absurd rfl h
  | _ => simp

end Registers

/-! ### Memories -/

/-- The memories by their windows and the commands that write them. -/
def WrittenBy (i : Instr) (a : Nat) : Prop :=
  (((∃ n, i = .pkApp n) ∨ i = .pkFin) ∧ 0x1000 ≤ a ∧ a < 0x2000) ∨
  ((i = .rsRem ∨ i = .rsEnc) ∧ 0x2000 ≤ a ∧ a < 0x3000) ∨
  (i = .ilRun ∧ 0x3000 ≤ a ∧ a < 0x4000) ∨
  (((∃ m, i = .mkApply m) ∨ i = .mkSel) ∧ 0x8000 ≤ a)

theorem writtenBy_of_window {i : Instr} {a : Nat} (hlo : (writeWindow i).1 ≤ a) (hhi : a < (writeWindow i).2) :
    WrittenBy i a := by
  cases i with
  | pkApp n => exact .inl ⟨.inl ⟨n, rfl⟩, hlo, hhi⟩
  | pkFin => exact .inl ⟨.inr rfl, hlo, hhi⟩
  | rsRem => exact .inr (.inl ⟨.inl rfl, hlo, hhi⟩)
  | rsEnc => exact .inr (.inl ⟨.inr rfl, hlo, hhi⟩)
  | ilRun => exact .inr (.inr (.inl ⟨rfl, hlo, hhi⟩))
  | mkApply m => exact .inr (.inr (.inr ⟨.inl ⟨m, rfl⟩, hlo⟩))
  | mkSel => exact .inr (.inr (.inr ⟨.inr rfl, hlo⟩))
  | nop | gfMul | rsDiv _ | pkClr | mkFmt _ | mkScore _ => exact absurd hhi (Nat.not_lt_of_le hlo)

theorem writtenBy_of_read_ne {i : Instr} {s : State} (hc : s.check i = none) {a : Nat}
    (h : (effectOf i s).mem.read a ≠ s.mem.read a) : WrittenBy i a := by
  have hin : ¬ (a < (writeWindow i).1 ∨ (writeWindow i).2 ≤ a) := fun hout => h (read_effectOf_outside_window hc hout)
  exact writtenBy_of_window (by omega) (by omega)

/-- Settles O33: a failing command writes no register and no memory, and the effects write what they are named for. -/
theorem onlyNamedCommandsWriteARegister : Obligations.OnlyNamedCommandsWriteARegister := by
  intro s i
  cases hc : s.check i with
  | some e => exact ⟨_, exec_of_check_some hc, rfl, rfl, by simp⟩
  | none =>
    have hmem : ∀ {a}, (effectOf i s).complete.mem.read a ≠ s.mem.read a → WrittenBy i a := writtenBy_of_read_ne hc
    refine ⟨_, exec_of_check_none hc, ?fields, ?lastop, effectOf_writes_divisor i s, effectOf_writes_pkBitlen i s,
      effectOf_writes_msel i s, effectOf_writes_pen i s, effectOf_writes_result i s, ?dmem, ?emem, ?omem, ?planes,
      ?final⟩
    case fields =>
      rw [effectOf_frame]
      rfl
    case lastop =>
      rw [effectOf_frame]
      rfl
    case dmem =>
      rintro ⟨a, ha, hne⟩
      rcases hmem hne with ⟨hi, -⟩ | ⟨-, ha'⟩ | ⟨-, ha'⟩ | ⟨-, ha'⟩
      · exact hi
      all_goals omega
    case emem =>
      rintro ⟨a, hlo, hhi, hne⟩
      rcases hmem hne with ⟨-, ha'⟩ | ⟨hi, -⟩ | ⟨-, ha'⟩ | ⟨-, ha'⟩
      case inr.inl => exact hi
      all_goals omega
    case omem =>
      rintro ⟨a, hlo, hhi, hne⟩
      rcases hmem hne with ⟨-, ha'⟩ | ⟨-, ha'⟩ | ⟨hi, -⟩ | ⟨-, ha'⟩
      case inr.inr.inl => exact hi
      all_goals omega
    case planes =>
      intro a hlo hhi
      by_contra hne
      rcases hmem hne with ⟨-, ha'⟩ | ⟨-, ha'⟩ | ⟨-, ha'⟩ | ⟨-, ha'⟩ <;> omega
    case final =>
      rintro ⟨a, ha, hne⟩
      rcases hmem hne with ⟨-, ha'⟩ | ⟨-, ha'⟩ | ⟨-, ha'⟩ | ⟨hi, -⟩
      case inr.inr.inr => exact hi
      all_goals omega

end Sys2Proof.Machine
end

section
/-! SUPPORT. What a command reads (20_memory.md R78; 44_mask.md section 4): the candidate matrix as a function of the
symbol's cells, and every effect as the same on two memories that agree outside OMEM and FINAL. -/

namespace Sys2Proof.Machine
open Sys2Proof.Claims

/-! ### The candidate matrix -/

theorem Memory.row_eq_map (m : Memory) (base r n : Nat) : m.row base r n = (List.range n).map (m.cell base r) := by
  have hrow := map_getD_range false (m.row base r n)
  rw [Memory.length_row] at hrow
  rw [← hrow]
  exact List.map_congr_left fun c hc => Memory.getD_row m base r n (List.mem_range.mp hc)

theorem Memory.row_congr {m m' : Memory} {base r n : Nat} (h : ∀ c < n, m.cell base r c = m'.cell base r c) :
    m.row base r n = m'.row base r n := by
  rw [Memory.row_eq_map, Memory.row_eq_map]
  exact List.map_congr_left fun c hc => h c (List.mem_range.mp hc)

section Symbol
variable {s u : State} (hq : s.qcfg = u.qcfg)
  (hcells : ∀ r < s.qcfg.side, ∀ c < s.qcfg.side,
    s.mem.modCell r c = u.mem.modCell r c ∧ s.mem.funcCell r c = u.mem.funcCell r c)
include hq hcells

theorem masked_congr (m : Fin 8) : s.masked m = u.masked m := by
  rw [State.masked, State.masked, ← hq]
  refine List.map_congr_left fun r hr => ?_
  have hr := List.mem_range.mp hr
  rw [Memory.row_congr (base := modBase) fun c hc => (hcells r hr c hc).1,
    Memory.row_congr (base := funcBase) fun c hc => (hcells r hr c hc).2]

theorem scratch_congr (m : Fin 8) : s.scratch m = u.scratch m := by
  rw [State.scratch, State.scratch, masked_congr hq hcells, State.formatWord, State.formatWord, hq]

theorem scores_congr (m : Fin 8) : s.scores m = u.scores m := by
  rw [State.scores, State.scores, scratch_congr hq hcells, hq]

end Symbol

/-- Settles O59: the rows a candidate is made of are lists of the symbol's cells. -/
theorem scoresDependOnlyOnTheSymbol : Obligations.ScoresDependOnlyOnTheSymbol := fun _ _ m hq hcells =>
  ⟨scratch_congr hq hcells m, scores_congr hq hcells m⟩

/-- Settles O60: the bounds of a square matrix of side at most 177. -/
theorem scoresAreBounded : Obligations.ScoresAreBounded := by
  intro s m hv
  obtain ⟨h1, h2, h3, h4⟩ := scores_le hv m
  exact ⟨h1, h2, h3, h4, penalty_lt hv m⟩

/-! ### The same writes on two memories -/

/-- Two memories that agree outside OMEM and FINAL. -/
def AgreeOnInputs (m m' : Memory) : Prop :=
  ∀ a, ¬ (0x3000 ≤ a ∧ a < 0x4000) → ¬ (0x8000 ≤ a ∧ a < 0xA000) → m'.read a = m.read a

/-- From `m` to `n` and from `m'` to `n'` the same bytes are written: each byte ends the same, or neither changed it. -/
def SameWrites (m m' n n' : Memory) : Prop :=
  ∀ a, n'.read a = n.read a ∨ (n'.read a = m'.read a ∧ n.read a = m.read a)

theorem sameWrites_refl (m m' : Memory) : SameWrites m m' m m' := fun _ => .inr ⟨rfl, rfl⟩

theorem SameWrites.read_eq {m m' n n' : Memory} (h : SameWrites m m' n n') {a : Nat} (ha : m'.read a = m.read a) :
    n'.read a = n.read a := by
  rcases h a with h | ⟨h', h⟩
  · exact h
  · rw [h', h, ha]

theorem sameWrites_writeBlock (m m' : Memory) (lo : Nat) (bs : List Byte) :
    SameWrites m m' (m.writeBlock lo bs) (m'.writeBlock lo bs) := by
  intro a
  rw [Memory.read_writeBlock, Memory.read_writeBlock]
  split
  · exact .inl rfl
  · exact .inr ⟨rfl, rfl⟩

/-- Push reads no byte but the one it writes. -/
theorem SameWrites.push {m m' : Memory} {p p' : Stream} (h : SameWrites m m' p.mem p'.mem) (hlen : p'.len = p.len)
    (hbyte : m'.dmem (p.len / 8) = m.dmem (p.len / 8)) (b : Bool) : SameWrites m m' (p.push b).mem (p'.push b).mem := by
  intro a
  by_cases ha : a = dmemBase + p.len / 8
  · have hsame := p'.read_push_same b
    rw [hlen] at hsame
    have hold : p'.mem.dmem (p.len / 8) = p.mem.dmem (p.len / 8) := h.read_eq hbyte
    exact .inl (by rw [ha, hsame, p.read_push_same, hold])
  · rw [p.read_push_other b a ha, p'.read_push_other b a (by rwa [hlen])]
    exact h a

theorem SameWrites.pushAll {m m' : Memory} (hdmem : ∀ k < 4096, m'.dmem k = m.dmem k) (bits : List Bool) :
    ∀ {p p' : Stream}, SameWrites m m' p.mem p'.mem → p'.len = p.len → p.len + bits.length ≤ 32768 →
      SameWrites m m' (p.pushAll bits).mem (p'.pushAll bits).mem := by
  induction bits with
  | nil => exact fun h _ _ => h
  | cons b bits ih =>
    intro p p' h hlen hfits
    rw [List.length_cons] at hfits
    exact ih (h.push hlen (hdmem _ (by omega)) b) (congrArg (· + 1) hlen) (by rw [Stream.len_push]; omega)

/-! ### The operands of the commands -/

theorem Memory.readBlock_congr {m m' : Memory} {a n : Nat} (h : ∀ k < n, m'.read (a + k) = m.read (a + k)) :
    m'.readBlock a n = m.readBlock a n := by
  rw [Memory.readBlock_eq_map, Memory.readBlock_eq_map]
  exact List.map_congr_left fun k hk => h k (List.mem_range.mp hk)

/-- Every data block lies in DMEM[0 .. DATA_CW-1] (10_state.md R33, R35). -/
theorem doff_add_lt_dataCw {c : Bcfg} {b j : Nat} (hb : b < c.nb) (hj : j < c.len b) : c.doff b + j < c.dataCw := by
  rw [Bcfg.nb] at hb
  rw [Bcfg.len] at hj
  rw [Bcfg.doff, Bcfg.dataCw]
  split at hj
  next hgroup1 =>
    have hmul : (b + 1) * c.d1.toNat ≤ c.nb1.toNat * c.d1.toNat := Nat.mul_le_mul_right _ hgroup1
    rw [Nat.succ_mul] at hmul
    rw [if_pos hgroup1]
    omega
  next hgroup2 =>
    have hmul : (b - c.nb1.toNat + 1) * (c.d1.toNat + 1) ≤ c.nb2.toNat * (c.d1.toNat + 1) :=
      Nat.mul_le_mul_right _ (by omega)
    rw [Nat.succ_mul] at hmul
    rw [if_neg hgroup2]
    omega

section Operands
variable {s : State} {m : Memory} (hm : AgreeOnInputs s.mem m)
include hm

theorem AgreeOnInputs.dmem {k : Nat} (hk : k < 4096) : m.dmem k = s.mem.dmem k :=
  hm _ (by rw [dmemBase]; omega) (by rw [dmemBase]; omega)

theorem AgreeOnInputs.emem {k : Nat} (hk : k < 4096) : m.emem k = s.mem.emem k :=
  hm _ (by rw [ememBase]; omega) (by rw [ememBase]; omega)

theorem AgreeOnInputs.remainderBytes (hsrc : s.rsSrc.toNat + s.rsLen.toNat ≤ 4096) :
    ({ s with mem := m } : State).remainderBytes = s.remainderBytes := by
  have hblock := Memory.readBlock_congr (m := s.mem) (m' := m) (a := dmemBase + s.rsSrc.toNat) (n := s.rsLen.toNat)
    fun k hk => by rw [Nat.add_assoc]; exact hm.dmem (by omega)
  rw [State.remainderBytes, State.remainderBytes, ← hblock]
  rfl

theorem AgreeOnInputs.dataBlocks (hv : s.bcfg.valid = true) :
    ({ s with mem := m } : State).dataBlocks = s.dataBlocks := by
  obtain ⟨hcap, -, -⟩ := Bcfg.totals_le hv
  refine List.map_congr_left fun b hb => Memory.readBlock_congr fun j hj => ?_
  have hlt : s.bcfg.doff b + j < s.bcfg.dataCw := doff_add_lt_dataCw (List.mem_range.mp hb) hj
  rw [Nat.add_assoc]
  exact hm.dmem (hlt.trans_le hcap)

theorem AgreeOnInputs.ecBlocks (hv : s.bcfg.valid = true) :
    ({ s with mem := m } : State).ecBlocks = s.ecBlocks := by
  obtain ⟨-, hcap, -⟩ := Bcfg.totals_le hv
  refine List.map_congr_left fun b hb => Memory.readBlock_congr fun j hj => ?_
  have hlt : s.bcfg.eoff b + j < s.bcfg.ecCw := eoff_add_lt_ecCw (List.mem_range.mp hb) hj
  rw [Nat.add_assoc]
  exact hm.emem (hlt.trans_le hcap)

theorem AgreeOnInputs.encodeBytes (hv : s.bcfg.valid = true) :
    ({ s with mem := m } : State).encodeBytes = s.encodeBytes := by
  rw [State.encodeBytes, State.encodeBytes, hm.dataBlocks hv]

theorem AgreeOnInputs.interleaved (hv : s.bcfg.valid = true) :
    ({ s with mem := m } : State).interleaved = s.interleaved := by
  rw [State.interleaved, State.interleaved, hm.dataBlocks hv, hm.ecBlocks hv]

/-- The symbol of a valid version lies in the stored rows of MOD and FUNC. -/
theorem AgreeOnInputs.cells (hv : s.qcfg.valid = true) : ∀ r < s.qcfg.side, ∀ c < s.qcfg.side,
    m.modCell r c = s.mem.modCell r c ∧ m.funcCell r c = s.mem.funcCell r c := by
  intro r hr c hc
  have hside := Qcfg.side_le hv
  have hmod : m.read (modBase + rowPitch * r + c / 8) = s.mem.read (modBase + rowPitch * r + c / 8) :=
    hm _ (by simp only [modBase, rowPitch]; omega) (by simp only [modBase, rowPitch]; omega)
  have hfunc : m.read (funcBase + rowPitch * r + c / 8) = s.mem.read (funcBase + rowPitch * r + c / 8) :=
    hm _ (by simp only [funcBase, rowPitch]; omega) (by simp only [funcBase, rowPitch]; omega)
  simp only [Memory.modCell, Memory.funcCell, Memory.cell, hmod, hfunc, and_self]

theorem AgreeOnInputs.scratch (hv : s.qcfg.valid = true) :
    ({ s with mem := m } : State).scratch = s.scratch :=
  funext (scratch_congr rfl (hm.cells hv))

theorem AgreeOnInputs.scores (hv : s.qcfg.valid = true) :
    ({ s with mem := m } : State).scores = s.scores :=
  funext (scores_congr rfl (hm.cells hv))

/-! ### The effects -/

/-- An effect on the second memory: the same registers, and the same writes. -/
theorem AgreeOnInputs.effectOf {i : Instr} (hc : s.check i = none) :
    effectOf i { s with mem := m } = { effectOf i s with mem := (effectOf i { s with mem := m }).mem } ∧
      SameWrites s.mem m (effectOf i s).mem (effectOf i { s with mem := m }).mem := by
  cases i with
  | nop | gfMul | rsDiv _ | pkClr | mkFmt _ => exact ⟨rfl, sameWrites_refl _ _⟩
  | rsRem =>
    obtain ⟨-, hsrc, -⟩ := checkRsRem_eq_none.mp hc
    refine ⟨rfl, ?_⟩
    simp only [Machine.effectOf, hm.remainderBytes hsrc]
    exact sameWrites_writeBlock _ _ _ _
  | rsEnc =>
    refine ⟨rfl, ?_⟩
    simp only [Machine.effectOf, hm.encodeBytes (checkBlockCfg_eq_none.mp hc)]
    exact sameWrites_writeBlock _ _ _ _
  | ilRun =>
    simp only [Machine.effectOf, hm.interleaved (checkBlockCfg_eq_none.mp hc), true_and]
    exact sameWrites_writeBlock _ _ _ _
  | pkApp n =>
    obtain ⟨-, hfits⟩ := checkPkApp_eq_none.mp hc
    refine ⟨?_, SameWrites.pushAll (fun k hk => hm.dmem hk) (s.fieldBits n) (p := s.stream)
      (sameWrites_refl _ _) rfl (by simpa using hfits)⟩
    simp only [Machine.effectOf, State.withStream, Stream.len_pushAll]
    rfl
  | pkFin =>
    obtain ⟨hv, hfits⟩ := checkPkFin_eq_none.mp hc
    obtain ⟨hcap, -, -⟩ := Bcfg.totals_le hv
    have hfull := len_add_length_finBits hfits
    refine ⟨?_, SameWrites.pushAll (fun k hk => hm.dmem hk) (finBits (8 * s.bcfg.dataCw) s.pkBitlen.toNat)
      (p := s.stream) (sameWrites_refl _ _) rfl (by rw [State.len_stream]; omega)⟩
    simp only [Machine.effectOf, State.withStream, Stream.len_pushAll]
    rfl
  | mkScore k =>
    simp only [Machine.effectOf, State.penalty, hm.scores (checkQcfg_eq_none.mp hc), true_and]
    exact sameWrites_refl _ _
  | mkApply k =>
    simp only [Machine.effectOf, State.commit, hm.scratch (checkQcfg_eq_none.mp hc), true_and]
    exact sameWrites_writeBlock _ _ _ _
  | mkSel =>
    simp only [Machine.effectOf, State.select, State.commit, State.bestMask, State.allScores,
      hm.scratch (checkQcfg_eq_none.mp hc), hm.scores (checkQcfg_eq_none.mp hc), true_and]
    exact sameWrites_writeBlock _ _ _ _

end Operands

/-- No check looks at memory. -/
theorem check_withMem (s : State) (m : Memory) (i : Instr) : ({ s with mem := m } : State).check i = s.check i := by
  cases i <;> rfl

/-- Settles O34: a failing command changes neither memory, and a succeeding one makes the same writes on both. -/
theorem noCommandReadsOmemOrFinal : Obligations.NoCommandReadsOmemOrFinal := by
  intro s m i hm
  cases hc : s.check i with
  | some e =>
    exact ⟨_, _, exec_of_check_some hc, exec_of_check_some ((check_withMem s m i).trans hc), rfl, hm,
      sameWrites_refl s.mem m⟩
  | none =>
    obtain ⟨hregs, hsame⟩ := AgreeOnInputs.effectOf hm hc
    refine ⟨_, _, exec_of_check_none hc, exec_of_check_none ((check_withMem s m i).trans hc), ?registers,
      fun a ho hf => hsame.read_eq (hm a ho hf), hsame⟩
    rw [hregs]
    rfl

end Sys2Proof.Machine
end

section
/-! SUPPORT. One clock edge by phase and host event (40_control.md R110 to R117; 70_reset_and_hazards.md R210): where
the control registers lie, what the step is at each kind of edge, and what a completion leaves alone. -/

namespace Sys2Proof.Machine
open Sys2Proof.Claims

/-! ### The addresses of CTRL and CMD -/

theorem wordAddr_eq_cmd {a : BitVec 16} : wordAddr a = 0x00C ↔ target a = .reg .cmd := by
  rw [target_eq_cmd, wordAddr]
  omega

/-- A register of the low block lies at one address (10_state.md section 2). -/
theorem wordAddr_of_target_low {a : BitVec 16} {r : Reg} {x : Nat} (hpen : ∀ m k, r ≠ .pen m k)
    (hpent : ∀ m, r ≠ .pent m) (hdivram : ∀ i, r ≠ .divram i) (hx : ∀ w < 18, lowRegs[w]? = some r → w * 4 = x)
    (h : target a = .reg r) : wordAddr a = x := by
  obtain ⟨hw, hl⟩ := targetOfWord_eq_low hpen hpent hdivram h
  exact hx _ hw hl

theorem wordAddr_of_target_ctrl {a : BitVec 16} (h : target a = .reg .ctrl) : wordAddr a = 0x004 :=
  wordAddr_of_target_low (by simp) (by simp) (by simp) (by decide) h

/-! ### The event and the state of an edge -/

section Edge
variable {s : State} {e : HostEdge} {rest : List HostEdge} {left : Nat}

theorem begin_of_cons (h : s.host = e :: rest) : s.begin = { s with host := rest, resp := .noTransfer } := by
  rw [State.begin, h, List.tail_cons]

theorem begin_of_nil (h : s.host = []) : s.begin = { s with host := [], resp := .noTransfer } := by
  rw [State.begin, h, List.tail_nil]

theorem edge_of_busy (h : s.host = e :: rest) (hp : s.phase = .busy left) : s.edge = e :=
  edge_of_cons h (leavingReset_of_busy hp)

theorem step_of_idle (h : s.host = e :: rest) (hp : s.phase = .idle) (he : s.edge = e) :
    step s = .next (transfer e { s with host := rest, resp := .noTransfer }) := by
  rw [step_of_not_due (due_of_idle hp), plainEdge_of_idle (s := s.begin) hp, he, begin_of_cons h]

theorem step_of_leavingReset (h : s.host = e :: rest) (hp : s.phase = .idle) (hr : s.resp = .inReset)
    (he : e ≠ .resetLow) : step s = .next { s with host := rest, resp := .noTransfer } := by
  rw [step_of_not_due (due_of_idle hp), plainEdge_of_idle (s := s.begin) hp,
    edge_of_leavingReset h (leavingReset_of_inReset hr hp) he, transfer_quiet, begin_of_cons h]

theorem step_of_running (h : s.host = e :: rest) (hp : s.phase = .busy left) (hleft : 1 < left) :
    step s = .next (transfer e { s with host := rest, resp := .noTransfer, phase := .busy (left - 1) }) := by
  have hdue : s.due = false := by rw [due_of_busy hp, decide_eq_false_iff_not]; omega
  rw [step_of_not_due hdue, plainEdge_of_busy (s := s.begin) hp, edge_of_busy h hp, begin_of_cons h]

theorem step_of_running_nil (h : s.host = []) (hp : s.phase = .busy left) (hleft : 1 < left) :
    step s = .next { s with host := [], resp := .noTransfer, phase := .busy (left - 1) } := by
  have hdue : s.due = false := by rw [due_of_busy hp, decide_eq_false_iff_not]; omega
  rw [step_of_not_due hdue, plainEdge_of_busy (s := s.begin) hp, edge_of_nil h, transfer_quiet, begin_of_nil h]

theorem step_of_completion (h : s.host = e :: rest) (hp : s.phase = .busy left) (hleft : left ≤ 1) :
    step s = completionEdge e { s with host := rest, resp := .noTransfer } := by
  have hdue : s.due = true := by rw [due_of_busy hp, decide_eq_true hleft]
  rw [step_of_due hdue, edge_of_busy h hp, begin_of_cons h]

theorem step_of_completion_nil (h : s.host = []) (hp : s.phase = .busy left) (hleft : left ≤ 1) :
    step s = runAccepted { s with host := [], resp := .noTransfer } := by
  have hdue : s.due = true := by rw [due_of_busy hp, decide_eq_true hleft]
  rw [step_of_due hdue, edge_of_nil h, begin_of_nil h]
  rfl

end Edge

/-! ### The completion edge -/

/-- The transfers that act on the state the completion leaves. -/
theorem completionEdge_of_transfer {e : HostEdge} (he : e ≠ .resetLow)
    (hw : ∀ a v, e = .write a v → wordAddr a ≠ 0x008 ∧ wordAddr a ≠ 0x00C) {s u : State}
    (hu : runAccepted s = .next u) :
    completionEdge e s = .next (transfer e u) := by
  cases e with
  | quiet => exact hu
  | read a => rw [completionEdge, hu, onNext_next]
  | resetLow => exact absurd rfl he
  | write a v =>
    obtain ⟨hstatus, hcmd⟩ := hw a v rfl
    rw [completionEdge, if_neg (mt wordAddr_eq_status.mpr hstatus), if_neg (mt wordAddr_eq_cmd.mpr hcmd), hu,
      onNext_next]

theorem completionEdge_of_cmd {a : BitVec 16} (ha : wordAddr a = 0x00C) (w : Word) {s u : State}
    (hu : runAccepted s = .next u) : completionEdge (.write a w) s = .next { u.overrun with resp := .write true } := by
  have ht := wordAddr_eq_cmd.mp ha
  rw [completionEdge, if_neg (by simp [ht]), if_pos ht, hu, onNext_next]

theorem completionEdge_of_status {a : BitVec 16} (ha : target a = .reg .status) (v : Word) (s : State) :
    completionEdge (.write a v) s = runAccepted { s.clearFlags v with resp := .write false } := by
  rw [completionEdge, if_pos ha, transfer, busWrite_reg ha]
  rfl

theorem completionEdge_next (e : HostEdge) (s : State) : ∃ t, completionEdge e s = .next t := by
  cases e with
  | quiet =>
    obtain ⟨u, hu, -, -⟩ := runAccepted_next s
    exact ⟨u, hu⟩
  | read a =>
    obtain ⟨u, hu, -, -⟩ := runAccepted_next s
    exact ⟨_, completionEdge_of_transfer (by simp) (by simp) hu⟩
  | resetLow => exact ⟨_, rfl⟩
  | write a v =>
    rw [completionEdge]
    split_ifs
    · obtain ⟨u, hu, -, -⟩ := runAccepted_next (transfer (.write a v) s)
      exact ⟨u, hu⟩
    all_goals
      obtain ⟨u, hu, -, -⟩ := runAccepted_next s
      rw [hu]
      exact ⟨_, rfl⟩

/-- A completion keeps CMD and LASTOP (40_control.md R111, R112). -/
theorem runAccepted_keeps {s t : State} (h : runAccepted s = .next t) :
    t.cmd = s.cmd ∧ t.status.lastop = s.status.lastop := by
  cases hd : decode s.cmd with
  | error x =>
    rw [runAccepted_of_reject hd] at h
    cases h
    exact ⟨rfl, rfl⟩
  | ok i =>
    rw [runAccepted_of_decode hd] at h
    rcases exec_cases h with ⟨e, -, rfl⟩ | ⟨-, rfl⟩
    · exact ⟨rfl, rfl⟩
    · rw [effectOf_frame]
      exact ⟨rfl, rfl⟩

/-! ### The statements on one edge -/

/-- Settles O7: a plain edge has a next state, and so has every completion edge. -/
theorem everyStepGoesOn : Obligations.EveryStepGoesOn := by
  intro s
  cases hdue : s.due with
  | true =>
    rw [Runs, step_of_due hdue]
    exact completionEdge_next _ _
  | false => exact ⟨_, step_of_not_due hdue⟩

/-- Settles O11: the edge's event is the host's, but for the edge that leaves reset. -/
theorem stepTakesTheHostTransfer : Obligations.StepTakesTheHostTransfer := by
  refine fun s e rest h => ⟨fun hp hr => ?idle, fun hp hr he => step_of_leavingReset h hp hr he,
    fun left hp hleft => step_of_running h hp hleft, fun _ _ => rfl, fun _ _ _ => rfl⟩
  case idle =>
    rcases hr with hr | rfl
    · exact step_of_idle h hp (edge_of_cons h (leavingReset_of_resp hr))
    · exact step_of_idle h hp (edge_of_resetLow h)

/-- Settles O5: the completion edge with no transfer, and with one that acts on what the completion leaves. -/
theorem stepRunsTheDecodedCommand : Obligations.StepRunsTheDecodedCommand := by
  intro s i left rest hp hleft hd
  have hrun := runAccepted_of_decode (s := { s with host := rest, resp := .noTransfer }) hd
  refine ⟨fun hhost => ?quiet, fun e hhost he hw => ?transfer⟩
  case quiet =>
    rw [← hrun]
    rcases hhost with hhost | ⟨hhost, rfl⟩
    · exact step_of_completion hhost hp hleft
    · exact step_of_completion_nil hhost hp hleft
  case transfer =>
    obtain ⟨u, hu, -, -⟩ := runAccepted_next { s with host := rest, resp := .noTransfer }
    refine ⟨u, hrun.symm.trans hu, ?_⟩
    rw [step_of_completion hhost hp hleft, completionEdge_of_transfer he hw hu]

/-- Settles O6: the completion, then the refusal on top of it. -/
theorem cmdWriteAtCompletionIsRefused : Obligations.CmdWriteAtCompletionIsRefused := by
  intro s left a w rest hp hleft hhost ha
  obtain ⟨u, hu, hidle, hdone⟩ := runAccepted_next { s with host := rest, resp := .noTransfer }
  obtain ⟨hcmd, hlastop⟩ := runAccepted_keeps hu
  refine ⟨u, hu, hcmd, hidle, ?_⟩
  rw [step_of_completion hhost hp hleft, completionEdge_of_cmd ha w hu, State.overrun, Status.overrun, hdone, hlastop]

/-- Settles O20: a CMD write while idle is the acceptance, whose latency is 1 and more. -/
theorem acceptanceWrites : Obligations.AcceptanceWrites := by
  refine fun s w hidle => ⟨Nat.le_add_right 1 _, ?_⟩
  rw [busWrite_cmd, writeCmd_idle hidle]
  rfl

/-! ### The STATUS write (10_state.md R25) -/

theorem Status.hostWrite_eq (st : Status) (v : Word) :
    st.hostWrite v =
      { done := if v.getLsbD 1 then false else st.done
        err := if v.getLsbD 2 then false else st.err
        errcode := if v.getLsbD 2 then .none else st.errcode
        lastop := st.lastop } := by
  unfold Status.hostWrite
  cases v.getLsbD 1 <;> cases v.getLsbD 2 <;> rfl

theorem busWrite_status_eq (s : State) (v : Word) :
    busWrite 0x008 v s =
      ({ s with
          status :=
            { done := if v.getLsbD 1 then false else s.status.done
              err := if v.getLsbD 2 then false else s.status.err
              errcode := if v.getLsbD 2 then .none else s.status.errcode
              lastop := s.status.lastop } }, false) := by
  rw [busWrite_status, State.clearFlags, Status.hostWrite_eq]

/-- What a completion acts on at the edge of a STATUS write: the flags cleared, and the write answered. -/
def State.flagsCleared (s : State) (v : Word) (rest : List HostEdge) : State :=
  { State.clearFlags { s with host := rest, resp := .noTransfer } v with resp := .write false }

/-- No check looks at what the write changes. -/
theorem check_flagsCleared (s : State) (v : Word) (rest : List HostEdge) (i : Instr) :
    (s.flagsCleared v rest).check i = s.check i := by
  cases i <;> rfl

theorem step_of_statusWrite {s : State} {left : Nat} {v : Word} {rest : List HostEdge} (hp : s.phase = .busy left)
    (hleft : left ≤ 1) (hhost : s.host = .write 0x008 v :: rest) : step s = runAccepted (s.flagsCleared v rest) :=
  (step_of_completion hhost hp hleft).trans (completionEdge_of_status (by decide) v _)

/-- Settles O22: the write clears the flags, and a completion at its edge acts on the state with them cleared. -/
theorem statusWriteClearsFlags : Obligations.StatusWriteClearsFlags := by
  refine ⟨busWrite_status_eq, fun s left v rest hp hleft hhost => ?_⟩
  obtain ⟨t, ht, -, hdone⟩ := runAccepted_next (s.flagsCleared v rest)
  refine ⟨t, (step_of_statusWrite hp hleft hhost).trans ht, hdone, fun x hd => ?reject, fun i e hd hc => ?fails,
    fun i hd hc => ?succeeds⟩
  case reject =>
    rw [runAccepted_of_reject (s := s.flagsCleared v rest) hd] at ht
    cases ht
    exact ⟨rfl, rfl⟩
  case fails =>
    rw [runAccepted_of_decode (s := s.flagsCleared v rest) hd,
      exec_of_check_some ((check_flagsCleared s v rest i).trans hc)] at ht
    cases ht
    exact ⟨rfl, rfl⟩
  case succeeds =>
    rw [runAccepted_of_decode (s := s.flagsCleared v rest) hd,
      exec_of_check_none ((check_flagsCleared s v rest i).trans hc), effectOf_frame] at ht
    cases ht
    change (s.status.hostWrite v).err = _ ∧ (s.status.hostWrite v).errcode = _
    rw [Status.hostWrite_eq]
    exact ⟨rfl, rfl⟩

/-! ### PRESETn = 0 (70_reset_and_hazards.md R210) -/

/-- Whatever the phase, the edge is the reset of some state with the same coming edges. -/
theorem step_of_resetLow {s : State} {rest : List HostEdge} (h : s.host = .resetLow :: rest) :
    ∃ u, u.host = rest ∧ step s = .next (transfer .resetLow u) := by
  have hrest : s.begin.host = rest := by rw [State.begin_host, h, List.tail_cons]
  cases hdue : s.due with
  | true =>
    rw [step_of_due hdue, edge_of_resetLow h]
    exact ⟨s.begin, hrest, rfl⟩
  | false =>
    rw [step_of_not_due hdue, edge_of_resetLow h]
    cases hp : s.phase with
    | idle => exact ⟨s.begin, hrest, by rw [plainEdge_of_idle (s := s.begin) hp]⟩
    | busy left =>
      exact ⟨{ s.begin with phase := .busy (left - 1) }, hrest, by rw [plainEdge_of_busy (s := s.begin) hp]⟩

theorem coreRun_succ (M : Host.Core) {s t : M.State} (h : M.step s = .next t) (k : Nat) :
    M.run (k + 1) s = M.run k t := by
  simp only [Host.Core.run, h]

theorem run_succ {s t : State} (h : step s = .next t) (k : Nat) :
    Host.Core.run Sys2Proof.core (k + 1) s = Host.Core.run Sys2Proof.core k t :=
  coreRun_succ Sys2Proof.core h k

theorem readReg_reset (r : Reg) : State.reset.readReg r = if r = .id then 0x51524543 else 0 := by
  cases r with
  | pen m k => revert m k; decide
  | pent m => revert m; decide
  | divram i => revert i; decide
  | _ => decide

theorem wordAddr_eq_id {a : BitVec 16} : wordAddr a = 0 ↔ target a = .reg .id :=
   ⟨target_of_wordAddr, wordAddr_of_target_low (by simp) (by simp) (by simp) (by decide)⟩

/-- Settles O25: the reset edge, the edge after it, and the reads of the state they leave. -/
theorem hardResetLeavesTheResetState : Obligations.HardResetLeavesTheResetState := by
  refine ⟨fun s rest h => ?low, fun s e rest h he => ?leaving, fun a ha => ?reads⟩
  case low =>
    obtain ⟨u, rfl, hstep⟩ := step_of_resetLow h
    exact ⟨_, hstep, rfl, rfl, rfl, rfl⟩
  case leaving =>
    obtain ⟨u, hu, hstep⟩ := step_of_resetLow h
    have hleave := step_of_leavingReset (s := transfer .resetLow u) hu rfl rfl he
    exact ⟨_, (run_succ hstep 1).trans (run_succ hleave 0), rfl⟩
  case reads =>
    obtain ⟨r, hr⟩ := target_registerAddr ha
    rw [busRead_reg hr, readReg_reset]
    simp only [wordAddr_eq_id, hr, Target.reg.injEq]

end Sys2Proof.Machine
end

section
/-! SUPPORT. A running command over many edges (40_control.md R113; 70_reset_and_hazards.md R216, R221): what the host's
transfers can change meanwhile, and the run up to the completion. -/

namespace Sys2Proof.Machine
open Sys2Proof.Claims

/-! ### Transfers while busy -/

/-- While a command runs a write that is no reset changes CTRL and the STATUS flags at most. -/
theorem busWrite_busy_frame {s : State} (hb : s.busy = true) {a : BitVec 16} {v : Word} (h : NoReset (.write a v)) :
    ∃ c st, (busWrite a v s).1 = { s with ctrl := c, status := st } ∧ st.lastop = s.status.lastop := by
  rcases busWrite_cases a v s with ⟨r, ht, hw⟩ | ⟨-, -, hidle, -⟩ | ⟨e, hw⟩
  case inr.inl => rw [hb] at hidle; cases hidle
  case inr.inr => exact ⟨s.ctrl, s.status, by rw [hw], rfl⟩
  rcases writeReg_cases r v s with ⟨rfl, hr⟩ | ⟨rfl, hr⟩ | ⟨rfl, hr⟩ | ⟨-, -, hr⟩ | ⟨-, hidle, -⟩ | ⟨-, -, -, -, hr⟩
  · have hsrst := h.2 a v rfl (wordAddr_of_target_ctrl ht)
    exact ⟨_, s.status, by rw [hw, hr, writeCtrl_of_not_srst hsrst], rfl⟩
  · exact ⟨s.ctrl, _, by rw [hw, hr]; rfl, Status.hostWrite_lastop _ v⟩
  · exact ⟨s.ctrl, s.status.overrun, by rw [hw, hr, writeCmd_busy hb]; rfl, rfl⟩
  · exact ⟨s.ctrl, s.status, by rw [hw, hr], rfl⟩
  · rw [hb] at hidle; cases hidle
  · exact ⟨s.ctrl, s.status, by rw [hw, hr], rfl⟩

theorem transfer_busy_frame {s : State} (hb : s.busy = true) {e : HostEdge} (h : NoReset e) :
    ∃ c st r, transfer e s = { s with ctrl := c, status := st, resp := r } ∧ st.lastop = s.status.lastop := by
  cases e with
  | quiet => exact ⟨s.ctrl, s.status, s.resp, rfl, rfl⟩
  | read a => exact ⟨s.ctrl, s.status, _, rfl, rfl⟩
  | resetLow => exact absurd rfl h.1
  | write a v =>
    obtain ⟨c, st, hw, hlastop⟩ := busWrite_busy_frame hb h
    exact ⟨c, st, _, by rw [transfer, hw], hlastop⟩

/-- Settles O9: the edge counts a cycle, and its transfer finds the block busy. -/
theorem operandsAreStableWhileRunning : Obligations.OperandsAreStableWhileRunning := by
  intro s left e rest hp hleft hhost he
  obtain ⟨c, st, r, hframe, hlastop⟩ := transfer_busy_frame
    (s := { s with host := rest, resp := .noTransfer, phase := .busy (left - 1) }) rfl he
  refine ⟨_, step_of_running hhost hp hleft, ?_⟩
  rw [hframe]
  exact ⟨hlastop, rfl⟩

/-! ### The completion and the flags -/

/-- No check looks at CTRL or STATUS. -/
theorem check_withFlags (s : State) (c : Ctrl) (st : Status) (i : Instr) :
    ({ s with ctrl := c, status := st } : State).check i = s.check i := by
  cases i <;> rfl

theorem effectOf_withFlags (s : State) (c : Ctrl) (st : Status) (i : Instr) :
    effectOf i { s with ctrl := c, status := st } = { effectOf i s with ctrl := c, status := st } := by
  cases i <;> rfl

/-- CTRL and the flags a completion finds do not reach its registers and memories. -/
theorem runAccepted_withFlags {s t : State} (c : Ctrl) {st : Status} (hst : st.lastop = s.status.lastop)
    (h : runAccepted s = .next t) :
    ∃ st', runAccepted { s with ctrl := c, status := st } = .next { t with ctrl := c, status := st' } ∧
      st'.lastop = t.status.lastop := by
  rw [(runAccepted_keeps h).2, ← hst]
  cases hd : decode s.cmd with
  | error x =>
    rw [runAccepted_of_reject hd] at h
    cases h
    exact ⟨_, runAccepted_of_reject (s := { s with ctrl := c, status := st }) hd, rfl⟩
  | ok i =>
    rw [runAccepted_of_decode hd] at h
    rw [runAccepted_of_decode (s := { s with ctrl := c, status := st }) hd]
    rcases exec_cases h with ⟨e, hc, rfl⟩ | ⟨hc, rfl⟩
    · exact ⟨_, exec_of_check_some ((check_withFlags s c st i).trans hc), rfl⟩
    · refine ⟨st.completed, ?_, rfl⟩
      rw [exec_of_check_none ((check_withFlags s c st i).trans hc), effectOf_withFlags]
      rfl

/-! ### The run of a command -/

/-- The state in which a running command is completed at once. -/
def State.atCompletion (s : State) : State := { s with phase := .busy 1, host := [], resp := .noTransfer }

theorem atCompletion_of_last {s : State} (hp : s.phase = .busy 1) (hhost : s.host = []) :
    s.begin = s.atCompletion := by
  rw [begin_of_nil hhost, State.atCompletion, ← hp]

theorem step_atCompletion {s : State} (hp : s.phase = .busy 1) (hhost : s.host = []) :
    step s = runAccepted s.atCompletion := by
  rw [← atCompletion_of_last hp hhost, begin_of_nil hhost, step_of_completion_nil hhost hp (le_refl 1)]

/-- Settles O10, by induction on the edges before the completion: each changes CTRL, the flags and the answer at
most. -/
theorem resultDoesNotDependOnLatency : Obligations.ResultDoesNotDependOnLatency := by
  intro s n
  induction n generalizing s with
  | zero =>
    intro hp hlen _
    obtain ⟨u, hu, -, hdone⟩ := runAccepted_next s.atCompletion
    have hstep := (step_atCompletion hp (List.eq_nil_of_length_eq_zero hlen)).trans hu
    exact ⟨u, u, run_succ hstep 0, hu, rfl, hdone, rfl⟩
  | succ n ih =>
    intro hp hlen hno
    obtain ⟨e, rest, hhost⟩ := List.exists_cons_of_length_eq_add_one hlen
    rw [hhost] at hlen hno
    obtain ⟨t, hstep, hlastop, ht⟩ := operandsAreStableWhileRunning s (n + 1 + 1) e rest hp (by omega) hhost
      (hno e (by simp))
    have hrest : t.host = rest := by rw [ht]
    obtain ⟨u, v', hrun, hv', huv', hdone, hlast⟩ := ih t (by rw [ht]; rfl) (by rw [hrest]; simpa using hlen)
      (fun e' he' => hno e' (by rw [hrest] at he'; simp [he']))
    obtain ⟨v, hv, -, -⟩ := runAccepted_next s.atCompletion
    obtain ⟨st, hvt, hst⟩ := runAccepted_withFlags (s := s.atCompletion) t.ctrl hlastop hv
    have hsame : t.atCompletion = { s.atCompletion with ctrl := t.ctrl, status := t.status } := by rw [ht]; rfl
    rw [← hsame] at hvt
    cases hvt.symm.trans hv'
    exact ⟨u, v, (run_succ hstep _).trans hrun, hv, huv', hdone, hlast.trans hst⟩

/-- With no transfers a running command counts its edges. -/
theorem run_quiet (k : Nat) : ∀ {s : State} {left : Nat}, s.host = [] → s.phase = .busy left → k < left →
    ∃ r, Host.Core.run Sys2Proof.core k s = .next { s with phase := .busy (left - k), resp := r } := by
  induction k with
  | zero => exact fun {s left} _ hp _ => ⟨s.resp, by rw [Nat.sub_zero, ← hp]; rfl⟩
  | succ k ih =>
    intro s left hhost hp hk
    have hstep := step_of_running_nil hhost hp (by omega)
    obtain ⟨r, hr⟩ := ih (s := { s with host := [], resp := .noTransfer, phase := .busy (left - 1) }) rfl rfl (by omega)
    refine ⟨r, ?_⟩
    rw [run_succ hstep, hr, hhost, Nat.sub_sub, Nat.add_comm 1 k]

/-- With no transfers a running command is completed at its last edge. -/
theorem run_quiet_completes (n : Nat) : ∀ {s : State}, s.host = [] → s.phase = .busy (n + 1) →
    ∃ t, Host.Core.run Sys2Proof.core (n + 1) s = .next t ∧ runAccepted s.atCompletion = .next t := by
  induction n with
  | zero =>
    intro s hhost hp
    obtain ⟨t, ht, -, -⟩ := runAccepted_next s.atCompletion
    exact ⟨t, run_succ ((step_atCompletion hp hhost).trans ht) 0, ht⟩
  | succ n ih =>
    intro s hhost hp
    have hstep := step_of_running_nil hhost hp (by omega)
    obtain ⟨t, hrun, ht⟩ := ih (s := { s with host := [], resp := .noTransfer, phase := .busy (n + 1 + 1 - 1) }) rfl rfl
    exact ⟨t, (run_succ hstep _).trans hrun, ht⟩

/-- Settles O8: the first edge accepts the word, and the quiet edges after it count down to the completion. -/
theorem commandCompletesAfterItsLatency : Obligations.CommandCompletesAfterItsLatency := by
  intro s w hp hr hhost
  have hstep := step_of_idle hhost hp (edge_of_cons hhost (leavingReset_of_resp hr))
  have haccept : transfer (.write 0x00C w) { s with host := [], resp := .noTransfer } =
      { s.accept w with host := [], resp := .write false } := by
    rw [transfer, busWrite_cmd, writeCmd_idle (s := { s with host := [], resp := .noTransfer }) hp]
    rfl
  rw [haccept] at hstep
  refine ⟨fun k h1 hk => ?counts, ?completes⟩
  case counts =>
    obtain ⟨j, rfl⟩ := Nat.exists_eq_add_of_le' h1
    obtain ⟨r, hrun⟩ := run_quiet j (s := { s.accept w with host := [], resp := .write false }) rfl rfl hk
    refine ⟨_, (run_succ hstep j).trans hrun, ?_, rfl⟩
    rw [Nat.add_sub_add_right]
  case completes =>
    obtain ⟨n, hn⟩ : ∃ n, s.latency w = n + 1 := ⟨_, Nat.add_comm 1 _⟩
    obtain ⟨t, hrun, ht⟩ := run_quiet_completes n (s := { s.accept w with host := [], resp := .write false }) rfl
      (congrArg Phase.busy hn)
    obtain ⟨t', ht', hidle, hdone⟩ := runAccepted_next
      (State.atCompletion { s.accept w with host := [], resp := .write false })
    cases ht.symm.trans ht'
    refine ⟨t, ?_, hidle, hdone, ht⟩
    rw [Nat.add_comm 1, run_succ hstep, hn, hrun]

end Sys2Proof.Machine
end

section
/-! SUPPORT. What the registers read as (10_state.md sections 2 to 6): a word made of fields side by side is their
weighted sum, and each register's address. -/

namespace Sys2Proof.Machine
open Sys2Proof.Claims

/-! ### Fields side by side -/

/-- A field placed above bit `k` of a word that ends below it adds its value times 2^k. -/
theorem toNat_or_shiftLeft {lo hi : Word} {k x y : Nat} (hlo : lo.toNat = x) (hx : x < 2 ^ k) (hhi : hi.toNat = y)
    (hy : 2 ^ k * y < 2 ^ 32) : (lo ||| hi <<< k).toNat = x + 2 ^ k * y := by
  have hshift : y <<< k < 2 ^ 32 := by rwa [Nat.shiftLeft_eq, Nat.mul_comm]
  rw [BitVec.toNat_or, BitVec.toNat_shiftLeft, hlo, hhi, Nat.mod_eq_of_lt hshift, Nat.or_comm,
    ← Nat.shiftLeft_add_eq_or_of_lt hx, Nat.shiftLeft_eq, Nat.mul_comm, Nat.add_comm]

theorem toNat_zeroExtend_word {w : Nat} (x : BitVec w) (hw : w ≤ 32) : (x.zeroExtend 32 : Word).toNat = x.toNat :=
  BitVec.toNat_setWidth_of_le hw

@[simp] theorem toNat_bitWord (b : Bool) : (bitWord b).toNat = b.toNat := by cases b <;> rfl

theorem toNat_ctrlWord (c : Ctrl) : c.word.toNat = 2 * c.ieDone.toNat + 4 * c.ieErr.toNat := by
  obtain ⟨d, e⟩ := c
  cases d <;> cases e <;> rfl

theorem toNat_statusWord (s : State) : s.statusWord.toNat =
    s.busy.toNat + 2 * s.status.done.toNat + 4 * s.status.err.toNat + 2 ^ 8 * s.status.errcode.code.toNat +
      2 ^ 16 * s.status.lastop.toNat := by
  have hbusy := s.busy.toNat_le
  have hdone := s.status.done.toNat_le
  have herr := s.status.err.toNat_le
  have hcode := s.status.errcode.code.isLt
  have hop := s.status.lastop.isLt
  have h1 := toNat_or_shiftLeft (k := 1) (toNat_bitWord s.busy) (by omega) (toNat_bitWord s.status.done) (by omega)
  have h2 := toNat_or_shiftLeft (k := 2) h1 (by omega) (toNat_bitWord s.status.err) (by omega)
  have h3 := toNat_or_shiftLeft (k := 8) h2 (by omega) (toNat_zeroExtend_word s.status.errcode.code (by decide))
    (by omega)
  exact toNat_or_shiftLeft (k := 16) h3 (by omega) (toNat_zeroExtend_word s.status.lastop (by decide)) (by omega)

theorem toNat_qcfgWord (q : Qcfg) : q.word.toNat = q.ver.toNat + 2 ^ 8 * q.ecl.toNat := by
  have hver := q.ver.isLt
  have hecl := q.ecl.isLt
  exact toNat_or_shiftLeft (k := 8) (toNat_zeroExtend_word q.ver (by decide)) (by omega)
    (toNat_zeroExtend_word q.ecl (by decide)) (by omega)

theorem toNat_bcfgWord (b : Bcfg) : b.word.toNat =
    b.nb1.toNat + 2 ^ 8 * b.nb2.toNat + 2 ^ 16 * b.d1.toNat + 2 ^ 24 * b.ecb.toNat := by
  have hnb1 := b.nb1.isLt
  have hnb2 := b.nb2.isLt
  have hd1 := b.d1.isLt
  have hecb := b.ecb.isLt
  have h1 := toNat_or_shiftLeft (k := 8) (toNat_zeroExtend_word b.nb1 (by decide)) (by omega)
    (toNat_zeroExtend_word b.nb2 (by decide)) (by omega)
  have h2 := toNat_or_shiftLeft (k := 16) h1 (by omega) (toNat_zeroExtend_word b.d1 (by decide)) (by omega)
  exact toNat_or_shiftLeft (k := 24) h2 (by omega) (toNat_zeroExtend_word b.ecb (by decide)) (by omega)

theorem toNat_mselWord (x : Msel) : x.word.toNat = x.mask.val + 2 ^ 8 * x.valid.toNat + 2 ^ 16 * x.auto.toNat := by
  have hmask := x.mask.isLt
  have hvalid := x.valid.toNat_le
  have hauto := x.auto.toNat_le
  have h1 := toNat_or_shiftLeft (k := 8) (toNat_natWord_mask x.mask) (by omega) (toNat_bitWord x.valid) (by omega)
  exact toNat_or_shiftLeft (k := 16) h1 (by omega) (toNat_bitWord x.auto) (by omega)

theorem toNat_cfgCheck (s : State) : (s.readReg .cfgCheck).toNat = s.bcfg.valid.toNat + 2 * s.qcfg.valid.toNat := by
  have hb := s.bcfg.valid.toNat_le
  have hq := s.qcfg.valid.toNat_le
  exact toNat_or_shiftLeft (k := 1) (toNat_bitWord _) (by omega) (toNat_bitWord _) (by omega)

/-! ### The derived totals (10_state.md R33) -/

theorem Bcfg.dataCw_lt (b : Bcfg) : b.dataCw < 2 ^ 18 := by
  have hgroup1 : b.nb1.toNat * b.d1.toNat ≤ 255 * 255 := Nat.mul_le_mul (by omega) (by omega)
  have hgroup2 : b.nb2.toNat * (b.d1.toNat + 1) ≤ 255 * 256 := Nat.mul_le_mul (by omega) (by omega)
  rw [Bcfg.dataCw]
  omega

theorem Bcfg.ecCw_lt (b : Bcfg) : b.ecCw < 2 ^ 14 := by
  have hmul : (b.nb1.toNat + b.nb2.toNat) * b.ecb.toNat ≤ 510 * 31 := Nat.mul_le_mul (by omega) (by omega)
  rw [Bcfg.ecCw, Bcfg.nb]
  omega

theorem Bcfg.totalCw_lt (b : Bcfg) : b.totalCw < 2 ^ 19 := by
  have hdata := b.dataCw_lt
  have hec := b.ecCw_lt
  rw [Bcfg.totalCw]
  omega

/-! ### Bytes of a word (20_memory.md R66 item 1) -/

theorem getLsbD_wordOfBytes (b0 b1 b2 b3 : Byte) {j : Nat} (hj : j < 32) :
    (wordOfBytes b0 b1 b2 b3).getLsbD j = ([b0, b1, b2, b3].getD (j / 8) 0).getLsbD (j % 8) := by
  simp only [wordOfBytes, BitVec.getLsbD_append]
  split_ifs with h0 h1 h2
  · rw [show j / 8 = 0 by omega, show j % 8 = j by omega]; rfl
  · rw [show j / 8 = 1 by omega, show j % 8 = j - 8 by omega]; rfl
  · rw [show j / 8 = 2 by omega, show j % 8 = j - 8 - 8 by omega]; rfl
  · rw [show j / 8 = 3 by omega, show j % 8 = j - 8 - 8 - 8 by omega]; rfl

/-- Byte `k` of a word is its bits 8k+7:8k. -/
theorem extractLsb'_wordOfBytes (b0 b1 b2 b3 : Byte) {k : Nat} (hk : k < 4) :
    (wordOfBytes b0 b1 b2 b3).extractLsb' (8 * k) 8 = [b0, b1, b2, b3].getD k 0 := by
  apply BitVec.eq_of_getLsbD_eq
  intro i hi
  rw [BitVec.getLsbD_extractLsb', decide_eq_true hi, Bool.true_and, getLsbD_wordOfBytes _ _ _ _ (by omega),
    show (8 * k + i) / 8 = k by omega, show (8 * k + i) % 8 = i by omega]

theorem extractLsb'_divWord (s : State) (i : Fin 8) : ∀ k < 4,
    (s.divWord i).extractLsb' (8 * k) 8 = s.divram.toList.getD (4 * i.val + k) 0 := by
  intro k hk
  rw [State.divWord, extractLsb'_wordOfBytes _ _ _ _ hk]
  interval_cases k <;> rfl

/-! ### The registers by address -/

theorem busRead_register {a : BitVec 16} {x : Nat} {r : Reg} (ha : wordAddr a = x)
    (hx : targetOfWord (x / 4) = .reg r) (s : State) : (busRead a s).1 = s.readReg r := by
  rw [busRead_reg ((target_of_wordAddr ha).trans hx)]

theorem busRead_register_noError {a : BitVec 16} (h : RegisterAddr a) (s : State) : (busRead a s).2 = false := by
  obtain ⟨r, hr⟩ := target_registerAddr h
  rw [busRead_reg hr]

/-- PEN[m][k+1] lies at 0x080 + 16 m + 4 k. -/
theorem busRead_pen {a : BitVec 16} (m : Fin 8) (k : Fin 4) (ha : wordAddr a = 0x080 + 16 * m.val + 4 * k.val)
    (s : State) : (busRead a s).1 = s.pen[m].rule k := by
  have hw : (0x080 + 16 * m.val + 4 * k.val) / 4 = 0x80 / 4 + 4 * m.val + k.val := by omega
  exact busRead_register ha (hw ▸ targetOfWord_pen m k) s

theorem busRead_pent {a : BitVec 16} (m : Fin 8) (ha : wordAddr a = 0x100 + 4 * m.val) (s : State) :
    (busRead a s).1 = s.pen[m].total := by
  have hw : (0x100 + 4 * m.val) / 4 = 0x100 / 4 + m.val := by omega
  exact busRead_register ha (hw ▸ targetOfWord_pent m) s

theorem busRead_divram {a : BitVec 16} (i : Fin 8) (ha : wordAddr a = 0x140 + 4 * i.val) (s : State) :
    (busRead a s).1 = s.divWord i := by
  have hw : (0x140 + 4 * i.val) / 4 = 0x140 / 4 + i.val := by omega
  exact busRead_register ha (hw ▸ targetOfWord_divram i) s

/-- Settles O12: each register at its address, and its word as the sum of its fields. -/
theorem registerReadsGiveTheFields : Obligations.RegisterReadsGiveTheFields := by
  intro s a ha
  have hreg : ∀ {x : Nat} {r : Reg}, targetOfWord (x / 4) = .reg r → wordAddr a = x → (busRead a s).1 = s.readReg r :=
    fun hx hax => busRead_register hax hx s
  refine ⟨busRead_register_noError ha s, hreg (r := .id) rfl, ?ctrl, ?status, hreg (r := .cmd) rfl,
    hreg (r := .arg0) rfl, hreg (r := .result) rfl, ?qcfg, ?bcfg, ?dataCw, ?ecCw, ?totalCw, ?cfgCheck, ?pkBitlen,
    ?rsSrc, ?rsLen, ?rsDst, ?divDeg, ?msel, fun m h => busRead_pen m 0 h s, fun m h => busRead_pen m 1 ?_ s,
    fun m h => busRead_pen m 2 ?_ s, fun m h => busRead_pen m 3 ?_ s, fun m h => busRead_pent m h s,
    fun i h => ?divram⟩
  case ctrl => exact fun h => hreg (r := .ctrl) rfl h ▸ toNat_ctrlWord _
  case status => exact fun h => hreg (r := .status) rfl h ▸ toNat_statusWord _
  case qcfg => exact fun h => hreg (r := .qcfg) rfl h ▸ toNat_qcfgWord _
  case bcfg => exact fun h => hreg (r := .bcfg) rfl h ▸ toNat_bcfgWord _
  case dataCw => exact fun h => hreg (r := .dataCw) rfl h ▸ toNat_natWord (s.bcfg.dataCw_lt.trans (by decide))
  case ecCw => exact fun h => hreg (r := .ecCw) rfl h ▸ toNat_natWord (s.bcfg.ecCw_lt.trans (by decide))
  case totalCw => exact fun h => hreg (r := .totalCw) rfl h ▸ toNat_natWord (s.bcfg.totalCw_lt.trans (by decide))
  case cfgCheck => exact fun h => hreg (r := .cfgCheck) rfl h ▸ toNat_cfgCheck s
  case pkBitlen => exact fun h => hreg (r := .pkBitlen) rfl h ▸ toNat_zeroExtend_word s.pkBitlen (by decide)
  case rsSrc => exact fun h => hreg (r := .rsSrc) rfl h ▸ toNat_zeroExtend_word s.rsSrc (by decide)
  case rsLen => exact fun h => hreg (r := .rsLen) rfl h ▸ toNat_zeroExtend_word s.rsLen (by decide)
  case rsDst => exact fun h => hreg (r := .rsDst) rfl h ▸ toNat_zeroExtend_word s.rsDst (by decide)
  case divDeg => exact fun h => hreg (r := .divDeg) rfl h ▸ toNat_zeroExtend_word s.divDeg (by decide)
  case msel => exact fun h => hreg (r := .msel) rfl h ▸ toNat_mselWord _
  case divram => exact busRead_divram i h s ▸ extractLsb'_divWord s i
  all_goals
    rw [h]
    simp only [Fin.isValue, Fin.coe_ofNat_eq_mod]
    omega

end Sys2Proof.Machine
end

section
/-! SUPPORT. Bus accesses while idle (20_memory.md R66; 40_control.md R115): the word at a stored address as bytes and
as cells, and the implemented bits of the configuration registers. -/

namespace Sys2Proof.Machine
open Sys2Proof.Claims

/-! ### Stored words -/

/-- A word's bit `j` is bit `j` mod 8 of its byte `j` / 8. -/
theorem Memory.getLsbD_readWord (m : Memory) (b : Nat) {j : Nat} (hj : j < 32) :
    (m.readWord b).getLsbD j = (m.read (b + j / 8)).getLsbD (j % 8) := by
  have hbyte : j / 8 < 4 := by omega
  rw [Memory.readWord, getLsbD_wordOfBytes _ _ _ _ hj]
  generalize j / 8 = k at hbyte
  interval_cases k <;> rfl

theorem Memory.extractLsb'_readWord (m : Memory) (b : Nat) : ∀ i < 4,
    (m.readWord b).extractLsb' (8 * i) 8 = m.read (b + i) := by
  intro i hi
  rw [Memory.readWord, extractLsb'_wordOfBytes _ _ _ _ hi]
  interval_cases i <;> rfl

theorem Memory.read_writeWord_inside (m : Memory) (b : Nat) (v : Word) : ∀ i < 4,
    (m.writeWord b v).read (b + i) = v.extractLsb' (8 * i) 8 := by
  intro i hi
  rw [← Memory.extractLsb'_readWord _ b i hi, Memory.readWord_writeWord]

theorem Memory.read_writeWord_outside (m : Memory) (b : Nat) (v : Word) {x : Nat} (h : x < b ∨ b + 4 ≤ x) :
    (m.writeWord b v).read x = m.read x :=
  Memory.read_writeBlock_outside m b x _ h

section StoredWord
variable {a : BitVec 16} {s : State} (ha : WindowAddr a) (hs : storedAddr (wordAddr a) = true) (hp : s.phase = .idle)
include ha hs hp

theorem busRead_stored : busRead a s = (s.mem.readWord (wordAddr a), false) := by
  have ht : target a = .mem (wordAddr a) := by rw [target_windowAddr ha, if_pos hs]
  rw [busRead_mem ht, busy_of_idle hp]
  rfl

theorem busWrite_stored (v : Word) :
    busWrite a v s = ({ s with mem := s.mem.writeWord (wordAddr a) v }, false) := by
  have ht : target a = .mem (wordAddr a) := by rw [target_windowAddr ha, if_pos hs]
  rw [busWrite_mem ht, busy_of_idle hp]
  rfl

/-- A word written reads back over the bus. -/
theorem busRead_writeWord_stored (v : Word) :
    busRead a { s with mem := s.mem.writeWord (wordAddr a) v } = (v, false) := by
  rw [busRead_stored ha hs (s := { s with mem := s.mem.writeWord (wordAddr a) v }) hp, Memory.readWord_writeWord]

end StoredWord

/-- Settles O17: every address of the three windows is stored, and a word's lanes are its bytes. -/
theorem codewordWindowWrite : Obligations.CodewordWindowWrite := by
  intro s v a hp hlo hhi
  have hword : 0x1000 ≤ wordAddr a ∧ wordAddr a < 0x4000 := by rw [wordAddr]; omega
  have ha : WindowAddr a := ⟨hword.1, hword.2.trans (by decide)⟩
  have hs : storedAddr (wordAddr a) = true := (storedAddr_iff _).mpr (.inl hword)
  rw [busRead_stored ha hs hp, busWrite_stored ha hs hp]
  exact ⟨rfl, s.mem.extractLsb'_readWord _, _, rfl, busRead_writeWord_stored ha hs hp v,
    s.mem.read_writeWord_inside _ v, fun _ hx => s.mem.read_writeWord_outside _ v hx⟩

/-- Bit `j` of word `w` of a plane row is cell 32w + j (20_memory.md R66 item 2). -/
theorem Memory.getLsbD_readWord_plane (m : Memory) (base r w : Nat) {j : Nat} (hj : j < 32) :
    (m.readWord (base + 32 * r + 4 * w)).getLsbD j = m.cell base r (32 * w + j) := by
  rw [Memory.getLsbD_readWord _ _ hj, Memory.cell, rowPitch, show (32 * w + j) / 8 = 4 * w + j / 8 by omega,
    show (32 * w + j) % 8 = j % 8 by omega, Nat.add_assoc (base + 32 * r)]

/-- A cell of another row or another word of the row lies outside the word. -/
theorem Memory.cell_writeWord_plane_other (m : Memory) (base : Nat) {r w r' c' : Nat} (v : Word) (hw : w < 8)
    (hc : c' < 256) (h : r' ≠ r ∨ c' / 32 ≠ w) :
    (m.writeWord (base + 32 * r + 4 * w) v).cell base r' c' = m.cell base r' c' := by
  rw [Memory.cell, Memory.cell, Memory.read_writeWord_outside _ _ _ (by rw [rowPitch]; omega)]

/-- Settles O18: the rows 0 .. 176 of a plane are stored, and a word's bits are its cells. -/
theorem planeWindowWrite : Obligations.PlaneWindowWrite := by
  intro s v a base r w hp hbase hr hw haddr
  have hbase : base = 0x4000 ∨ base = 0x6000 ∨ base = 0x8000 := by simpa using hbase
  have ha : WindowAddr a := by unfold WindowAddr; omega
  have hs : storedAddr (wordAddr a) = true := by rw [storedAddr_iff, haddr]; omega
  have hback := busRead_writeWord_stored ha hs hp v
  rw [busRead_stored ha hs hp, busWrite_stored ha hs hp]
  rw [haddr] at hback ⊢
  refine ⟨rfl, fun j hj => s.mem.getLsbD_readWord_plane base r w hj, _, rfl, hback, fun j hj => ?_,
    fun r' c' hc h => s.mem.cell_writeWord_plane_other base v hw hc h, fun _ hx => s.mem.read_writeWord_outside _ v hx⟩
  rw [← Memory.getLsbD_readWord_plane _ _ _ _ hj, Memory.readWord_writeWord]

/-! ### Configuration registers -/

theorem busWrite_config_idle {a : BitVec 16} {r : Reg} (ht : target a = .reg r) (hr : r.isConfig = true) {s : State}
    (hp : s.phase = .idle) (v : Word) : busWrite a v s = (s.writeConfig v r, false) := by
  rw [busWrite_reg ht]
  cases r <;> cases hr <;> simp [writeReg, Reg.isConfig, busy_of_idle hp]

/-- Bits 9:8 and 5:0 of QCFG are implemented (10_state.md R29). -/
theorem Qcfg.word_ofWord (v : Word) : (Qcfg.ofWord v).word = v &&& 0x0000033F := by
  have hmask : ∀ i : Fin 32, (0x0000033F : Word).getLsbD i.val = decide (i.val < 6 ∨ (8 ≤ i.val ∧ i.val < 10)) := by
    decide
  apply BitVec.eq_of_getLsbD_eq
  intro i hi
  rw [BitVec.getLsbD_and, hmask ⟨i, hi⟩]
  simp only [Qcfg.word, Qcfg.ofWord, BitVec.truncate_eq_setWidth, BitVec.getLsbD_or, BitVec.getLsbD_shiftLeft,
    BitVec.getLsbD_setWidth, BitVec.getLsbD_extractLsb']
  by_cases h6 : i < 6
  · simp [h6, hi, show i < 8 by omega]
  by_cases h8 : i < 8
  · simp [h6, h8]
  · have hlt : i - 8 < 2 ↔ i < 10 := by omega
    simp [h6, h8, hi, hlt, show i - 8 < 32 by omega, show 8 + (i - 8) = i by omega, show 8 ≤ i by omega, Bool.and_comm]

/-- Bits 28:0 of BCFG are implemented (10_state.md R32). -/
theorem Bcfg.word_ofWord (v : Word) : (Bcfg.ofWord v).word = v &&& 0x1FFFFFFF := by
  have hlow : (v &&& 0x1FFFFFFF).toNat = v.toNat % 2 ^ 29 := by
    rw [BitVec.toNat_and]
    exact Nat.and_two_pow_sub_one_eq_mod v.toNat 29
  apply BitVec.eq_of_toNat_eq
  rw [hlow, toNat_bcfgWord]
  simp only [Bcfg.ofWord, BitVec.extractLsb'_toNat, Nat.shiftRight_eq_div_pow]
  omega

/-- A field from bit 0 on is the word modulo a power of two. -/
theorem toNat_extractLsb'_zero (v : Word) (n : Nat) : (v.extractLsb' 0 n).toNat = v.toNat % 2 ^ n := by
  rw [BitVec.extractLsb'_toNat, Nat.shiftRight_zero]

/-- Settles O19: each configuration register is written by its own field's update, and the two made of fields read back
masked. -/
theorem configWritesKeepImplementedBits : Obligations.ConfigWritesKeepImplementedBits := by
  intro s v hp
  have hwrite : ∀ {a : BitVec 16} {r : Reg}, r.isConfig = true → target a = .reg r →
      busWrite a v s = (s.writeConfig v r, false) := fun hr ht => busWrite_config_idle ht hr hp v
  refine ⟨hwrite (r := .arg0) rfl (by decide), ⟨_, hwrite (r := .qcfg) rfl (by decide), ?qcfg⟩,
    ⟨_, hwrite (r := .bcfg) rfl (by decide), ?bcfg⟩,
    ⟨_, hwrite (r := .rsSrc) rfl (by decide), toNat_extractLsb'_zero v 12⟩,
    ⟨_, hwrite (r := .rsLen) rfl (by decide), toNat_extractLsb'_zero v 13⟩,
    ⟨_, hwrite (r := .rsDst) rfl (by decide), toNat_extractLsb'_zero v 12⟩⟩
  case qcfg =>
    rw [busRead_reg (r := .qcfg) (by decide)]
    exact Qcfg.word_ofWord v
  case bcfg =>
    rw [busRead_reg (r := .bcfg) (by decide)]
    exact Bcfg.word_ofWord v

end Sys2Proof.Machine
end

section
/-! SUPPORT. The field (41_gf_rs.md R129 items 1 and 2): α has order 255, so its powers are all the nonzero bytes and
each has the inverse that completes it to α^255. -/

namespace Sys2Proof.Machine
open Sys2Proof.Claims

/-! ### The powers of α (R122) -/

@[simp] theorem gfAlphaPow_zero : gfAlphaPow 0 = 1#8 := rfl

theorem gfAlphaPow_add (i j : Nat) : gfAlphaPow (i + j) = gfMul (gfAlphaPow i) (gfAlphaPow j) := by
  induction j with
  | zero => rw [Nat.add_zero, gfAlphaPow_zero, gfMul_one]
  | succ j ih => rw [← Nat.add_assoc, gfAlphaPow_succ, gfAlphaPow_succ, ih, gfMul_assoc]

theorem gfAlphaPow_eq_iterate (k : Nat) : gfAlphaPow k = (gfMul · 0x02)^[k] 1 := by
  induction k with
  | zero => rfl
  | succ k ih => rw [Function.iterate_succ_apply', ← ih, gfAlphaPow_succ]

theorem gfAlphaPow_eq_one_iff (k : Nat) : gfAlphaPow k = 1 ↔ Function.IsPeriodicPt (gfMul · 0x02) k 1 := by
  rw [gfAlphaPow_eq_iterate]
  rfl

theorem gfAlphaPow_255 : gfAlphaPow 255 = 1#8 := by decide +kernel

/-- A divisor of 255 = 3 · 5 · 17 other than itself divides one of 85, 51 and 15. -/
theorem dvd_of_dvd_255 {g : Nat} (h : g ∣ 255) (hne : g ≠ 255) : g ∣ 85 ∨ g ∣ 51 ∨ g ∣ 15 := by
  have hmem : g ∈ Nat.divisors 255 := Nat.mem_divisors.mpr ⟨h, by decide⟩
  have hdivisors : ∀ g ∈ Nat.divisors 255, g ≠ 255 → g ∣ 85 ∨ g ∣ 51 ∨ g ∣ 15 := by decide +kernel
  exact hdivisors g hmem hne

/-- A smaller order would divide 85, 51 or 15, and those powers of α are not 1. -/
theorem gfAlphaPow_ne_one {k : Nat} (h0 : 0 < k) (hk : k < 255) : gfAlphaPow k ≠ 1 := by
  intro h
  have hgcd := ((gfAlphaPow_eq_one_iff k).mp h).gcd ((gfAlphaPow_eq_one_iff 255).mp gfAlphaPow_255)
  have hlt : k.gcd 255 ≤ k := Nat.gcd_le_left 255 h0
  have hone : ∀ n, k.gcd 255 ∣ n → gfAlphaPow n = 1 := fun n hn => (gfAlphaPow_eq_one_iff n).mpr (hgcd.trans_dvd hn)
  rcases dvd_of_dvd_255 (Nat.gcd_dvd_right k 255) (by omega) with hd | hd | hd
  · exact absurd (hone 85 hd) (by decide +kernel)
  · exact absurd (hone 51 hd) (by decide +kernel)
  · exact absurd (hone 15 hd) (by decide +kernel)

/-! ### Inverses -/

theorem gfAlphaPow_mul_complement {k : Nat} (hk : k ≤ 255) : gfMul (gfAlphaPow k) (gfAlphaPow (255 - k)) = 1#8 := by
  rw [← gfAlphaPow_add, Nat.add_sub_cancel' hk, gfAlphaPow_255]

theorem gfAlphaPow_ne_zero {k : Nat} (hk : k ≤ 255) : gfAlphaPow k ≠ 0#8 := by
  intro h
  have hinv := gfAlphaPow_mul_complement hk
  rw [h, zero_gfMul] at hinv
  exact absurd hinv (by decide)

theorem gfAlphaPow_ne {i j : Nat} (hij : i < j) (hj : j < 255) : gfAlphaPow i ≠ gfAlphaPow j := by
  intro h
  have hone := gfAlphaPow_mul_complement (k := i) (by omega)
  rw [h, ← gfAlphaPow_add, show j + (255 - i) = j - i + 255 by omega, gfAlphaPow_add, gfAlphaPow_255, gfMul_one] at hone
  exact gfAlphaPow_ne_one (by omega) (by omega) hone

/-- The place of the power α^k among the 255 nonzero bytes. -/
def alphaIndex (k : Fin 255) : Fin 255 :=
  ⟨(gfAlphaPow k.val).toNat - 1, by have := (gfAlphaPow k.val).isLt; omega⟩

theorem toNat_gfAlphaPow (k : Fin 255) : (gfAlphaPow k.val).toNat = (alphaIndex k).val + 1 := by
  have hpos : (gfAlphaPow k.val).toNat ≠ 0 := fun h =>
    gfAlphaPow_ne_zero (Nat.le_of_lt k.isLt) (BitVec.eq_of_toNat_eq h)
  rw [alphaIndex]
  dsimp only
  omega

theorem alphaIndex_injective : Function.Injective alphaIndex := by
  intro i j h
  have heq : gfAlphaPow i.val = gfAlphaPow j.val :=
    BitVec.eq_of_toNat_eq (by rw [toNat_gfAlphaPow, toNat_gfAlphaPow, h])
  rcases lt_trichotomy i.val j.val with hlt | hval | hlt
  · exact absurd heq (gfAlphaPow_ne hlt j.isLt)
  · exact Fin.ext hval
  · exact absurd heq.symm (gfAlphaPow_ne hlt i.isLt)

/-- The 255 different powers of α are all the nonzero bytes. -/
theorem exists_gfAlphaPow_eq {a : Byte} (ha : a ≠ 0) : ∃ k < 255, gfAlphaPow k = a := by
  have hpos : a.toNat ≠ 0 := fun h => ha (BitVec.eq_of_toNat_eq h)
  have hlt := a.isLt
  obtain ⟨k, hk⟩ := Finite.injective_iff_surjective.mp alphaIndex_injective ⟨a.toNat - 1, by omega⟩
  refine ⟨k.val, k.isLt, BitVec.eq_of_toNat_eq ?_⟩
  rw [toNat_gfAlphaPow, hk]
  dsimp only
  omega

theorem exists_gfMul_eq_one {a : Byte} (ha : a ≠ 0) : ∃ b, gfMul a b = 1 := by
  obtain ⟨k, hk, rfl⟩ := exists_gfAlphaPow_eq ha
  exact ⟨_, gfAlphaPow_mul_complement (Nat.le_of_lt hk)⟩

/-- Settles O37: the ring laws of the product, and the inverses from the order of α. -/
theorem gfIsAField : Obligations.GfIsAField :=
  ⟨gfMul_comm, gfMul_assoc, gfMul_xor_right, gfMul_one, fun _ => exists_gfMul_eq_one, gfAlphaPow_255,
    fun _ => gfAlphaPow_ne_one⟩

end Sys2Proof.Machine
end

section
/-! SUPPORT. The remainder as a map of the data (41_gf_rs.md R124, R129 items 4 to 6): one step is additive, takes a
leading 0 to nothing, and at a root of the divisor multiplies by x and adds the new byte times x^n. -/

namespace Sys2Proof.Machine
open Sys2Proof.Claims

/-! ### Linearity -/

/-- The exclusive or of two byte strings. -/
def xorBytes (u v : List Byte) : List Byte := List.zipWith (· ^^^ ·) u v

theorem xorBytes_cons (a b : Byte) (u v : List Byte) :
    xorBytes (a :: u) (b :: v) = (a ^^^ b) :: xorBytes u v := rfl

theorem xorBytes_append {u v : List Byte} (h : u.length = v.length) (u' v' : List Byte) :
    xorBytes (u ++ u') (v ++ v') = xorBytes u v ++ xorBytes u' v' := List.zipWith_append h

theorem headD_xorBytes : ∀ {u v : List Byte}, u.length = v.length → (xorBytes u v).headD 0 = u.headD 0 ^^^ v.headD 0
  | [], [], _ => rfl
  | _ :: _, _ :: _, _ => rfl

theorem xorBytes_replicate_zero (n : Nat) :
    xorBytes (List.replicate n 0) (List.replicate n 0) = List.replicate n 0 := by
  rw [xorBytes, List.zipWith_replicate, Nat.min_self]
  rfl

/-- Adding `f` times the divisor to the shifted remainder. -/
def addMultiple (f : Byte) (r d : List Byte) : List Byte := List.zipWith (fun ri di => ri ^^^ gfMul di f) r d

theorem remainderStep_eq (d r : List Byte) (b : Byte) :
    remainderStep d r b = addMultiple (b ^^^ r.headD 0) (r.tail ++ [0]) d := rfl

theorem addMultiple_xor (f f' : Byte) : ∀ r r' d : List Byte, r.length = r'.length →
    addMultiple (f ^^^ f') (xorBytes r r') d = xorBytes (addMultiple f r d) (addMultiple f' r' d)
  | [], [], _, _ => rfl
  | _ :: _, _ :: _, [], _ => rfl
  | a :: r, a' :: r', c :: d, h => by
    have ih := addMultiple_xor f f' r r' d (by simpa using h)
    have hhead : a ^^^ a' ^^^ gfMul c (f ^^^ f') = (a ^^^ gfMul c f) ^^^ (a' ^^^ gfMul c f') := by
      rw [gfMul_xor_right]
      ac_rfl
    exact congrArg₂ List.cons hhead ih

theorem remainderStep_xor {d r r' : List Byte} (h : r.length = r'.length) (b b' : Byte) :
    remainderStep d (xorBytes r r') (b ^^^ b') = xorBytes (remainderStep d r b) (remainderStep d r' b') := by
  have htail : (xorBytes r r').tail ++ [0] = xorBytes (r.tail ++ [0]) (r'.tail ++ [0]) := by
    rw [xorBytes_append (by simp [h])]
    exact congrArg (· ++ [0]) (List.tail_zipWith)
  rw [remainderStep_eq, remainderStep_eq, remainderStep_eq, headD_xorBytes h, htail,
    ← addMultiple_xor _ _ _ _ _ (by simp [h])]
  congr 1
  ac_rfl

theorem foldl_remainderStep_xor (d : List Byte) : ∀ u v r r' : List Byte, u.length = v.length → r.length = d.length →
    r'.length = d.length → (xorBytes u v).foldl (remainderStep d) (xorBytes r r') =
      xorBytes (u.foldl (remainderStep d) r) (v.foldl (remainderStep d) r')
  | [], [], _, _, _, _, _ => rfl
  | a :: u, b :: v, r, r', h, hr, hr' => by
    rw [xorBytes_cons, List.foldl_cons, remainderStep_xor (hr.trans hr'.symm)]
    exact foldl_remainderStep_xor d u v _ _ (by simpa using h) (length_remainderStep d r a hr)
      (length_remainderStep d r' b hr')

theorem addMultiple_zero_left : ∀ r d : List Byte, r.length = d.length → addMultiple 0 r d = r
  | [], [], _ => rfl
  | a :: r, c :: d, h => by
    have ih := addMultiple_zero_left r d (by simpa using h)
    have hhead : a ^^^ gfMul c 0#8 = a := by simp
    exact congrArg₂ List.cons hhead ih

/-- A step whose byte cancels the remainder's first one shifts the remainder. -/
theorem remainderStep_of_cancel {d r : List Byte} {b : Byte} (hr : r.length = d.length) (hd : d ≠ [])
    (hb : b = r.headD 0) : remainderStep d r b = r.tail ++ [0] := by
  have hpos := List.length_pos_of_ne_nil hd
  rw [remainderStep_eq, hb, BitVec.xor_self]
  exact addMultiple_zero_left _ _ (by simp; omega)

theorem remainderStep_zero (d : List Byte) :
    remainderStep d (List.replicate d.length 0) 0 = List.replicate d.length 0 := by
  cases d with
  | nil => rfl
  | cons c d =>
    have hstep := remainderStep_of_cancel (d := c :: d) (r := List.replicate (d.length + 1) 0) (b := 0) (by simp)
      (by simp) rfl
    rw [List.replicate_succ, List.tail_cons, ← List.replicate_succ', ← List.replicate_succ] at hstep
    exact hstep

/-- Settles O40: a step is additive in the remainder and the byte together, and a leading 0 leaves the remainder 0. -/
theorem remainderIsLinear : Obligations.RemainderIsLinear := by
  refine ⟨fun u v d h => ?additive, fun u d => ?leadingZero⟩
  case additive =>
    have hzeros : (List.replicate d.length (0 : Byte)).length = d.length := List.length_replicate
    have hfold := foldl_remainderStep_xor d u v _ _ h hzeros hzeros
    rwa [xorBytes_replicate_zero] at hfold
  case leadingZero => rw [rsRemainder, List.foldl_cons, remainderStep_zero, rsRemainder]

/-! ### Codewords -/

theorem xor_xor_xor_cancel_right (a b c : Byte) : (a ^^^ c) ^^^ (b ^^^ c) = a ^^^ b := by
  rw [BitVec.xor_comm b, BitVec.xor_assoc, ← BitVec.xor_assoc c, BitVec.xor_self, BitVec.zero_xor]

/-- x^n. -/
def gfPow (x : Byte) (n : Nat) : Byte := Nat.repeat (gfMul · x) n 1

theorem gfPow_succ (x : Byte) (n : Nat) : gfPow x (n + 1) = gfMul (gfPow x n) x := rfl

/-- Horner's rule from the value `c` on. -/
theorem foldl_hornerStep (x : Byte) (p : List Byte) : ∀ c : Byte,
    p.foldl (hornerStep x) c = gfMul c (gfPow x p.length) ^^^ evalPoly p x := by
  induction p with
  | nil => intro c; simp [gfPow, Nat.repeat, evalPoly]
  | cons a p ih =>
    intro c
    rw [List.foldl_cons, ih, evalPoly_cons, ih, List.length_cons, gfPow_succ, hornerStep, gfMul_xor_left, gfMul_assoc,
      gfMul_comm x]
    ac_rfl

theorem evalPoly_append (p q : List Byte) (x : Byte) :
    evalPoly (p ++ q) x = gfMul (evalPoly p x) (gfPow x q.length) ^^^ evalPoly q x := by
  rw [evalPoly_eq_foldl, List.foldl_append, foldl_hornerStep]
  rfl

theorem evalPoly_cons_eq (c x : Byte) (p : List Byte) :
    evalPoly (c :: p) x = gfMul c (gfPow x p.length) ^^^ evalPoly p x := by
  rw [evalPoly_cons, foldl_hornerStep]

theorem length_addMultiple {f : Byte} {r d : List Byte} (h : r.length = d.length) :
    (addMultiple f r d).length = d.length := by
  rw [addMultiple, List.length_zipWith, h, Nat.min_self]

theorem evalPoly_addMultiple (f x : Byte) : ∀ r d : List Byte, r.length = d.length →
    evalPoly (addMultiple f r d) x = evalPoly r x ^^^ gfMul (evalPoly d x) f
  | [], [], _ => by simp [addMultiple, evalPoly]
  | a :: r, c :: d, h => by
    have h' : r.length = d.length := by simpa using h
    have ih := evalPoly_addMultiple f x r d h'
    have hcons : addMultiple f (a :: r) (c :: d) = (a ^^^ gfMul c f) :: addMultiple f r d := rfl
    rw [hcons, evalPoly_cons_eq, evalPoly_cons_eq, evalPoly_cons_eq, ih, length_addMultiple h', h', gfMul_xor_left,
      gfMul_xor_left, gfMul_right_comm c f]
    ac_rfl

theorem evalPoly_concat (p : List Byte) (c x : Byte) : evalPoly (p ++ [c]) x = gfMul (evalPoly p x) x ^^^ c := by
  rw [evalPoly_eq_foldl, List.foldl_concat]
  rfl

/-- Shifting a remainder multiplies by x and drops the top term. -/
theorem evalPoly_shift {r : List Byte} (hr : r ≠ []) (x : Byte) :
    evalPoly (r.tail ++ [0]) x = gfMul (evalPoly r x) x ^^^ gfMul (r.headD 0) (gfPow x r.length) := by
  obtain ⟨a, r, rfl⟩ := List.exists_cons_of_ne_nil hr
  have hshift : evalPoly (r ++ [0]) x = gfMul (evalPoly r x) x := (evalPoly_concat r 0 x).trans BitVec.xor_zero
  rw [List.tail_cons, List.headD_cons, hshift, evalPoly_cons_eq, List.length_cons, gfPow_succ, gfMul_xor_left,
    gfMul_assoc, BitVec.xor_comm (gfMul a _), BitVec.xor_assoc, BitVec.xor_self, BitVec.xor_zero]

/-- Where the divisor with its leading 1 vanishes, the divisor's value is x^n. -/
theorem evalPoly_of_root {d : List Byte} {x : Byte} (h : evalPoly (1#8 :: d) x = 0#8) :
    evalPoly d x = gfPow x d.length := by
  rw [evalPoly_cons_eq, one_gfMul] at h
  exact (BitVec.xor_eq_zero_iff.mp h).symm

section Root
variable {d : List Byte} {x : Byte} (hd : d ≠ []) (hroot : evalPoly (1#8 :: d) x = 0#8)
include hd hroot

/-- At a root of the divisor a step takes r(x) to r(x) · x + b · x^n. -/
theorem evalPoly_remainderStep {r : List Byte} (hr : r.length = d.length) (b : Byte) :
    evalPoly (remainderStep d r b) x = gfMul (evalPoly r x) x ^^^ gfMul b (gfPow x d.length) := by
  have hpos := List.length_pos_of_ne_nil hd
  have hne : r ≠ [] := List.ne_nil_of_length_pos (hr ▸ hpos)
  rw [remainderStep_eq, evalPoly_addMultiple _ _ _ _ (by simp; omega), evalPoly_shift hne, evalPoly_of_root hroot, hr,
    gfMul_comm _ (b ^^^ _), gfMul_xor_left, xor_xor_xor_cancel_right]

/-- At a root of the divisor the remainder's value keeps step with the data's, times x^n. -/
theorem evalPoly_foldl_remainderStep (data : List Byte) : ∀ (r : List Byte) (c : Byte), r.length = d.length →
    evalPoly r x = gfMul c (gfPow x d.length) →
    evalPoly (data.foldl (remainderStep d) r) x = gfMul (data.foldl (hornerStep x) c) (gfPow x d.length) := by
  induction data with
  | nil => exact fun _ _ _ h => h
  | cons b data ih =>
    intro r c hr h
    refine ih _ _ (length_remainderStep d r b hr) ?_
    rw [evalPoly_remainderStep hd hroot hr, h, hornerStep, gfMul_xor_left, gfMul_right_comm]

theorem evalPoly_rsRemainder (data : List Byte) :
    evalPoly (rsRemainder data d) x = gfMul (evalPoly data x) (gfPow x d.length) := by
  have hzero : ∀ n, evalPoly (List.replicate n 0#8) x = 0#8 := by
    intro n
    induction n with
    | zero => rfl
    | succ n ih => rw [List.replicate_succ, evalPoly_cons_eq, zero_gfMul, ih, BitVec.xor_zero]
  exact evalPoly_foldl_remainderStep hd hroot data _ 0#8 (by simp) (by rw [zero_gfMul]; exact hzero _)

/-- Data followed by its remainder vanishes where the divisor does. -/
theorem evalPoly_codeword (data : List Byte) : evalPoly (data ++ rsRemainder data d) x = 0#8 := by
  rw [evalPoly_append, length_rsRemainder, evalPoly_rsRemainder hd hroot, BitVec.xor_self]

end Root

/-- A remainder fed to itself is shifted out byte by byte. -/
theorem foldl_remainderStep_self {d : List Byte} (hd : d ≠ []) (l : List Byte) : ∀ k, l.length + k = d.length →
    l.foldl (remainderStep d) (l ++ List.replicate k 0) = List.replicate d.length 0 := by
  induction l with
  | nil => intro k hk; rw [← hk, List.length_nil, Nat.zero_add]; rfl
  | cons a l ih =>
    intro k hk
    rw [List.length_cons] at hk
    have hstep := remainderStep_of_cancel (r := a :: (l ++ List.replicate k 0)) (b := a) (by simp; omega) hd rfl
    rw [List.tail_cons, List.append_assoc, ← List.replicate_succ'] at hstep
    rw [List.foldl_cons, List.cons_append, hstep]
    exact ih (k + 1) (by omega)

theorem rsRemainder_codeword {d : List Byte} (hd : d ≠ []) (data : List Byte) :
    rsRemainder (data ++ rsRemainder data d) d = List.replicate d.length 0 := by
  have hself := foldl_remainderStep_self hd (rsRemainder data d) 0 (by simp)
  rw [List.replicate_zero, List.append_nil] at hself
  conv_lhs => rw [rsRemainder, List.foldl_append]
  exact hself

/-! ### The roots of the divisor -/

theorem foldl_rootFactor_zero (x : Byte) (l : List Nat) : l.foldl (rootFactor x) 0 = 0 := by
  induction l with
  | nil => rfl
  | cons i l ih =>
    have hzero : rootFactor x 0 i = 0 := zero_gfMul _
    rw [List.foldl_cons, hzero, ih]

theorem foldl_rootFactor_of_mem {i : Nat} (l : List Nat) (hi : i ∈ l) : ∀ c : Byte,
    l.foldl (rootFactor (gfAlphaPow i)) c = 0 := by
  induction l with
  | nil => cases hi
  | cons j l ih =>
    intro c
    rw [List.foldl_cons]
    rcases List.mem_cons.mp hi with rfl | hi
    · have hzero : rootFactor (gfAlphaPow i) c i = 0 := by rw [rootFactor, BitVec.xor_self]; exact gfMul_zero c
      rw [hzero, foldl_rootFactor_zero]
    · exact ih hi _

theorem rootProduct_eq_zero {n i : Nat} (h : i < n) : rootProduct n (gfAlphaPow i) = 0 := by
  rw [rootProduct_eq_foldl]
  exact foldl_rootFactor_of_mem _ (by simpa using h) 1

/-- Settles O41: the divisor vanishes at its roots, so the codeword does; and a remainder fed to itself leaves 0. -/
theorem codewordVanishesAtTheRoots : Obligations.CodewordVanishesAtTheRoots := by
  intro data n hn hn30
  obtain ⟨hlen, heval⟩ := divisorIsTheGeneratorPolynomial n hn hn30
  have hd : rsDivisor n ≠ [] := List.ne_nil_of_length_pos (by omega)
  refine ⟨fun i hi => evalPoly_codeword hd ((heval _).trans (rootProduct_eq_zero hi)) data, ?_⟩
  rw [rsRemainder_codeword hd, hlen]

end Sys2Proof.Machine
end
